-- ==== Sys2Proof/Word.lean ====
section
/-! DEFINITION. Sys2Proof/Word.lean: the two value types of the block. Every architectural data value is an
unsigned byte (R12); a time is an exact rational number of seconds (R8, R130). -/

namespace Sys2Proof

/-- A byte (00_scope.md section 5.1): the one width the block has (R12). -/
abbrev Byte := BitVec 8

/-- A time in seconds (R8 "time base", R130). It is exact: nothing rounds it (R15). That a time is not negative
is part of the invariant of Sys2Proof/Safety.lean, not of the type. -/
abbrev Time := Rat

end Sys2Proof
end

