-- ==== Sys2Proof/Config.lean ====
section
/-! DEFINITION. Sys2Proof/Config.lean: the named constants of R7, the parameters of one instance (R8) and the
free values, which have no body. -/

namespace Sys2Proof.Config

/-! ### Protocol constants (R7, each a name so that a claim can be stated over it, D35) -/

/-- The escape byte, also the first byte of the header and of the terminator (R7). -/
def dle : Byte := 0x10
/-- Control word of STOP (R7, R72). -/
def cwStop : Byte := 0xC0
/-- Control word of SET (R7, R72). -/
def cwSet : Byte := 0xC0
/-- Control word of GET, request and reply (R7, R72). -/
def cwGet : Byte := 0x60
/-- Command tag of STOP (R7, R72). -/
def tagStop : Byte := 0x84
/-- Command tag of SET (R7, R72). -/
def tagSet : Byte := 0x8F
/-- Command tag of GET (R7, R72). -/
def tagGet : Byte := 0x55
/-- "leave unchanged" on SET, "unknown/not reported" on GET (R7). -/
def sentinel : Byte := 0xFF
/-- DECODE rejects a byte count below this (R7, R103). -/
def bcMin : Nat := 6
/-- Bit-times per character in the silent period (R7, R131). -/
def bitsPerChar : Rat := 11
/-- Character-times of silence (R7, R131). -/
def silentChars : Rat := 7 / 2

/-! ### Parameters of an instance (R8) -/

/-- The two delimiter values the source names without giving a value; "a model should take them as configuration
fields" (R7, D1). -/
structure Delims where
  stx : Byte
  etx : Byte
  deriving DecidableEq, Repr

/-- The default values 0x02 and 0x03 (R7; from general knowledge there, log entry 1). -/
def Delims.ascii : Delims := { stx := 0x02, etx := 0x03 }

/-- Which engine of the block is active (R8 `ROLE`, R210): static, one value for the life of an instance. -/
inductive Role where
  | master
  | slave
  deriving DecidableEq, Repr

/-- The parameters of one instance (R8). Those the spec leaves OPEN are fields, so that a statement about every state
holds for every value of them; no step changes them (log entry 2). The two `CFG` bits are parameters of the table too,
with the value 0 decided there: a legal instance has no other (`Params.wf`). -/
structure Params where
  role               : Role
  deviceTypeInit     : Byte
  sourceAddressInit  : Byte
  slaveAddressInit   : Byte
  respWindow         : Nat
  rxMaxLen           : Nat
  localEchoInit      : Bool
  closeAfterCallInit : Bool
  delims             : Delims
  deriving DecidableEq, Repr

/-- DESIGN CHOICE (log entry 3, unsafe): the instance that `State.reset` is the reset state of. R8 leaves these OPEN
(but for the two CFG bits, 0); the identity is that of the master of 95_test_vectors.md, `RX_MAX_LEN` the suggested
32, `RESP_WINDOW` 32. -/
def params : Params :=
  { role := .master, deviceTypeInit := 0x20, sourceAddressInit := 0x05, slaveAddressInit := 0x01,
    respWindow := 32, rxMaxLen := 32, localEchoInit := false, closeAfterCallInit := false,
    delims := Delims.ascii }

/-! ### Free values -/

/-- Free value: how many bytes the transport has ready at its n-th unscripted answer to a read (R53 "oracle draw",
U3). No body: nothing can be proved about it (log entry 6). -/
opaque readLen : Nat → Nat

/-- Free value: what `MCMD` latches for an operand that the command does not have (the "-" of R152 and R154).
No body (log entry 7). -/
opaque unusedOperand : Nat → Byte

/-- Free value: what has gone out on the line by a transport call that failed ("make no claim about the line's contents
afterwards", U6). No body (log entry 13). -/
opaque sentAfterError : Nat → List Byte

/-- Free value: what is left unread after a transport call that failed (U6). No body (log entry 13). -/
opaque unreadAfterError : Nat → List Byte

end Sys2Proof.Config
end

