-- ==== Sys2Proof/Syntax.lean ====
section
/-! DEFINITION. Sys2Proof/Syntax.lean: the instructions of the block. opcode_table.json has four wire frames and
thirteen operations (R88): `Instr` has one constructor for each. The types its operands and results need stand
before it. -/

namespace Sys2Proof

/-- The command of a transaction (R26 `cmd`). -/
inductive Cmd where
  | stop
  | set
  | get
  deriving DecidableEq, Repr

/-- A command with the arguments its shape has: "a closed tagged variant", so that a SET without its two arguments,
or a STOP or GET with arguments, cannot be expressed (R100). -/
inductive Command where
  | stop
  | set (height angle : Byte)
  | get
  deriving DecidableEq, Repr

/-- The layout to decode against: a request or a reply (R103 `dir`). -/
inductive Dir where
  | req
  | rep
  deriving DecidableEq, Repr

/-- Why DECODE rejects its input (R105): diagnostic, read by no rule. -/
inductive SubCause where
  | header
  | truncated
  | bytecount
  | command
  | terminator
  | checksum
  deriving DecidableEq, Repr

/-- The five failures of the source with the information each records (R200, R202). -/
inductive Failure where
  | invalidAddressRange (das dae : Byte)
  | invalidBaudRate (baud : Int)
  | malformedFrame (cause : SubCause)
  | localEchoMismatch
  | noResponse
  deriving DecidableEq, Repr

/-- What DECODE returns (R103): `(bc, das, dae, cw, sax, sa, cmd, args)` for a request, `(bc, da, cw, sax, sa, cmd,
args)` for a reply. The command tag is the constructor, and the arguments have the shape of the command (R104). -/
inductive Record where
  | stop (bc das dae cw sax sa : Byte)
  | set (bc das dae cw sax sa height angle : Byte)
  | get (bc das dae cw sax sa : Byte)
  | reply (bc da cw sax sa height angle : Byte)
  deriving DecidableEq, Repr

/-- The instructions: one constructor per row of opcode_table.json. The first four are the wire frames, with the
fields that R71 and R73 give them; BC and FCC are no operands, since R78 and R79 compute them from the other fields.
The others are the operations of the block, with the operands of the row. -/
inductive Instr where
  /-- `STOP.request`: a STOP request frame reaches the engine that acts on it (R152, R180). -/
  | stopRequest (das dae cw sax sa : Byte)
  /-- `SET.request` (R153, R177). -/
  | setRequest (das dae cw sax sa height angle : Byte)
  /-- `GET.request` (R154, R178). -/
  | getRequest (das dae cw sax sa : Byte)
  /-- `GET.reply` (R179, R148). -/
  | getReply (da cw sax sa height angle : Byte)
  /-- `ENCODE` (R100). -/
  | encode (cmd : Command) (das dae deviceType sourceAddress : Byte)
  /-- `ENCODE_REPLY` (R102). -/
  | encodeReply (da deviceType sourceAddress height angle : Byte)
  /-- `DECODE` (R103). -/
  | decode (raw : List Byte) (dir : Dir)
  /-- `GATE` (R132). -/
  | gate
  /-- `GATE_RECORD` (R134). -/
  | gateRecord
  /-- `EXECUTE` (R140). -/
  | execute (cmd : Cmd) (das dae height angle : Byte)
  /-- `STOP` (R152). -/
  | stop (das dae : Byte)
  /-- `SET` (R153): `none` is an omitted argument, which "default[s] to 255" (R87). -/
  | set (das dae : Byte) (height angle : Option Byte)
  /-- `GET` (R154). -/
  | get (address : Byte)
  /-- `RECEIVE` (R171): the step for one byte actually received. -/
  | receive (b : Byte)
  /-- `RESPOND` (R175). -/
  | respond
  /-- `SET_SLAVE_ADDRESS` (R183): the operand is an integer, not a byte (D31). -/
  | setSlaveAddress (v : Int)
  /-- `RESET` (R230). -/
  | reset
  deriving DecidableEq, Repr

/-- The instruction a decoded record stands for: the record without the byte count that carried it. -/
def Record.toInstr : Record → Instr
  | .stop _ das dae cw sax sa => .stopRequest das dae cw sax sa
  | .set _ das dae cw sax sa h a => .setRequest das dae cw sax sa h a
  | .get _ das dae cw sax sa => .getRequest das dae cw sax sa
  | .reply _ da cw sax sa h a => .getReply da cw sax sa h a

/-- The byte count a record carries. -/
def Record.bc : Record → Byte
  | .stop bc .. => bc
  | .set bc .. => bc
  | .get bc .. => bc
  | .reply bc .. => bc

/-- The command tag of a record (R72). -/
def Record.tag : Record → Byte
  | .stop .. => Config.tagStop
  | .set .. => Config.tagSet
  | .get .. => Config.tagGet
  | .reply .. => Config.tagGet

/-- The arguments of a record: 0 or 2 bytes (R103). -/
def Record.args : Record → List Byte
  | .stop .. => []
  | .set _ _ _ _ _ _ h a => [h, a]
  | .get .. => []
  | .reply _ _ _ _ _ h a => [h, a]

/-- The layout a record was decoded with. -/
def Record.dir : Record → Dir
  | .stop .. => .req
  | .set .. => .req
  | .get .. => .req
  | .reply .. => .rep

/-- The direction of a wire-frame row; an operation has none (R88). -/
def Instr.dir? : Instr → Option Dir
  | .stopRequest .. => some .req
  | .setRequest .. => some .req
  | .getRequest .. => some .req
  | .getReply .. => some .rep
  | .encode .. => none
  | .encodeReply .. => none
  | .decode .. => none
  | .gate => none
  | .gateRecord => none
  | .execute .. => none
  | .stop .. => none
  | .set .. => none
  | .get .. => none
  | .receive .. => none
  | .respond => none
  | .setSlaveAddress .. => none
  | .reset => none

/-- The tag of a command with its arguments dropped. -/
def Command.cmd : Command → Cmd
  | .stop => .stop
  | .set .. => .set
  | .get => .get

end Sys2Proof
end

