-- ==== Sys2Proof/WellFormed.lean ====
section
/-! DEFINITION. Sys2Proof/WellFormed.lean: which instructions an encoder of the block can produce, and which
parameters make a legal instance. Each check is a decidable proposition with a name. -/

namespace Sys2Proof

/-- "`STX ≠ DLE`, `ETX ≠ DLE`, `STX ≠ ETX`" (R7). -/
abbrev Config.Delims.wf (d : Config.Delims) : Prop :=
  d.stx ≠ Config.dle ∧ d.etx ≠ Config.dle ∧ d.stx ≠ d.etx

/-- A legal instance (R8, R232): the slave address in 1..255, `RESP_WINDOW ≥ 18`, `RX_MAX_LEN ≥ 21`, and the value 0
that R8 decides for `LOCAL_ECHO_INIT` and `CLOSE_AFTER_CALL_INIT`. -/
abbrev Config.Params.wf (p : Config.Params) : Prop :=
  p.slaveAddressInit ≠ 0 ∧ 18 ≤ p.respWindow ∧ 21 ≤ p.rxMaxLen ∧ p.localEchoInit = false ∧
    p.closeAfterCallInit = false ∧ p.delims.wf

/-- The control word R72 fixes for each frame, and `das ≤ dae` of R100: what ENCODE and ENCODE_REPLY produce. DECODE
accepts more (R85, R106); an operation is well formed with any operands, since its operand types admit nothing
else (R100, D31). -/
abbrev Instr.wf : Instr → Prop
  | .stopRequest das dae cw _ _ => das ≤ dae ∧ cw = Config.cwStop
  | .setRequest das dae cw _ _ _ _ => das ≤ dae ∧ cw = Config.cwSet
  | .getRequest das dae cw _ _ => das ≤ dae ∧ cw = Config.cwGet
  | .getReply _ cw _ _ _ _ => cw = Config.cwGet
  | .encode .. => True
  | .encodeReply .. => True
  | .decode .. => True
  | .gate => True
  | .gateRecord => True
  | .execute .. => True
  | .stop .. => True
  | .set .. => True
  | .get .. => True
  | .receive .. => True
  | .respond => True
  | .setSlaveAddress .. => True
  | .reset => True

end Sys2Proof
end

