-- ==== Sys2Proof/Decode.lean ====
section
/-! DEFINITION. Sys2Proof/Decode.lean: the Frame Codec's pure functions (30_encoding.md, 40_codec.md): the field walk
that decodes any byte sequence or rejects it by name, then the encoder over the same layouts, then the rows of
opcode_table.json as masks over the logical frame. -/

namespace Sys2Proof

open Config (Delims)

/-! ### Shared arithmetic -/

/-- `sum(s)`: the sum of the bytes as an unbounded natural number (00_scope.md section 5.1). -/
def sumBytes : List Byte → Nat
  | [] => 0
  | b :: bs => b.toNat + sumBytes bs

/-- `FCC = (-sum(body)) mod 256` (R14, R79). -/
def fcc (body : List Byte) : Byte :=
  BitVec.ofNat 8 ((256 - sumBytes body % 256) % 256)

/-! ### Decoding (R77, R103 to R107) -/

/-- `take()` of R103: one field, unstuffed (R77), and the bytes after it. -/
def takeField : List Byte → Except SubCause (Byte × List Byte)
  | [] => .error .truncated
  | b :: rest =>
    if b = Config.dle then
      match rest with
      | [] => .error .truncated
      | v :: rest' => .ok (v, rest')
    else .ok (b, rest)

/-- The request fields of R103 from DAS to the last argument, and the bytes after them. The tag decides how many
arguments follow, and any other tag is `MalformedFrame(COMMAND)` (R104). -/
def walkRequest (bc : Byte) (p : List Byte) : Except SubCause (Record × List Byte) := do
  let (das, p) ← takeField p
  let (dae, p) ← takeField p
  let (cw, p) ← takeField p
  let (sax, p) ← takeField p
  let (sa, p) ← takeField p
  let (cmd, p) ← takeField p
  if cmd = Config.tagStop then
    return (.stop bc das dae cw sax sa, p)
  else if cmd = Config.tagSet then
    let (height, p) ← takeField p
    let (angle, p) ← takeField p
    return (.set bc das dae cw sax sa height angle, p)
  else if cmd = Config.tagGet then
    return (.get bc das dae cw sax sa, p)
  else throw .command

/-- The reply fields of R103 from DA to the last argument, and the bytes after them. The one reply tag is GET's
(R104). -/
def walkReply (bc : Byte) (p : List Byte) : Except SubCause (Record × List Byte) := do
  let (da, p) ← takeField p
  let (cw, p) ← takeField p
  let (sax, p) ← takeField p
  let (sa, p) ← takeField p
  let (cmd, p) ← takeField p
  if cmd = Config.tagGet then
    let (height, p) ← takeField p
    let (angle, p) ← takeField p
    return (.reply bc da cw sax sa height angle, p)
  else throw .command

/-- The walk in the layout that the direction selects (R103). -/
def walkFields (dir : Dir) (bc : Byte) (p : List Byte) : Except SubCause (Record × List Byte) :=
  match dir with
  | .req => walkRequest bc p
  | .rep => walkReply bc p

/-- The end of R103: the terminator where the walk ends, at the place BC says, then the FCC over the wire bytes from
BC through ETX. `body` is the input from the BC field on, `pay` its part from the first field after BC, `p` what the
walk left. Bytes after the FCC are ignored (D9). -/
def checkEnd (d : Delims) (r : Record) (body pay p : List Byte) : Except SubCause Record :=
  match p with
  | t0 :: t1 :: rest =>
    if t0 ≠ Config.dle ∨ t1 ≠ d.etx then .error .terminator
    else if pay.length - rest.length ≠ r.bc.toNat then .error .terminator
    else
      match rest with
      | [] => .error .truncated
      | f :: _ =>
        if (sumBytes (body.take (body.length - rest.length)) + f.toNat) % 256 ≠ 0 then .error .checksum
        else .ok r
  | _ => .error .terminator

/-- `DECODE(raw, dir)` (R103): total on any bytes, the rejections in the order of R105. -/
def decodeFrame (d : Delims) (dir : Dir) (raw : List Byte) : Except SubCause Record :=
  match raw with
  | h0 :: h1 :: body =>
    if h0 ≠ Config.dle ∨ h1 ≠ d.stx then .error .header
    else do
      let (bc, pay) ← takeField body
      if bc.toNat < Config.bcMin then throw .bytecount
      let (r, p) ← walkFields dir bc pay
      checkEnd d r body pay p
  | _ => .error .header

/-- The wire frame as an instruction: `DECODE` and then the row the record belongs to. -/
def decodeInstr (d : Delims) (dir : Dir) (raw : List Byte) : Except SubCause Instr :=
  (decodeFrame d dir raw).map Record.toInstr

/-! ### Encoding (R71 to R81, R100, R102) -/

/-- Stuffing: `esc(v) = [DLE, v]` if `v = DLE`, else `[v]` (R76). -/
def esc (v : Byte) : List Byte :=
  if v = Config.dle then [Config.dle, v] else [v]

/-- The payload: the stuffed fields in layout order (R76). -/
def payloadOf (fields : List Byte) : List Byte :=
  fields.flatMap esc

/-- `BC = len(payload) + 2`: wire bytes after stuffing, the terminator included (R78). -/
def byteCount (fields : List Byte) : Byte :=
  BitVec.ofNat 8 ((payloadOf fields).length + 2)

/-- `body = esc(BC) ++ payload ++ [DLE, ETX]`: the bytes the FCC covers (R79). -/
def bodyOf (d : Delims) (fields : List Byte) : List Byte :=
  esc (byteCount fields) ++ payloadOf fields ++ [Config.dle, d.etx]

/-- The wire frame `[DLE, STX] ++ esc(BC) ++ payload ++ [DLE, ETX] ++ [FCC]` of a field list (R81). -/
def frameOf (d : Delims) (fields : List Byte) : List Byte :=
  [Config.dle, d.stx] ++ bodyOf d fields ++ [fcc (bodyOf d fields)]

/-- The control word fixed for a command (R72). -/
def controlWord : Cmd → Byte
  | .stop => Config.cwStop
  | .set => Config.cwSet
  | .get => Config.cwGet

/-- The command tag (R72). -/
def tagOf : Cmd → Byte
  | .stop => Config.tagStop
  | .set => Config.tagSet
  | .get => Config.tagGet

/-- The argument bytes of a command (R100 `args`). -/
def Command.args : Command → List Byte
  | .stop => []
  | .set height angle => [height, angle]
  | .get => []

/-- The request fields in the order of R71. -/
def requestFields (c : Command) (das dae deviceType sourceAddress : Byte) : List Byte :=
  [das, dae, controlWord c.cmd, deviceType, sourceAddress, tagOf c.cmd] ++ c.args

/-- `ENCODE` (R100): the frame, or the failure when `das > dae`. -/
def encodeRequest (d : Delims) (c : Command) (das dae deviceType sourceAddress : Byte) :
    Except Failure (List Byte) :=
  if dae < das then .error (.invalidAddressRange das dae)
  else .ok (frameOf d (requestFields c das dae deviceType sourceAddress))

/-- `ENCODE_REPLY` (R102). -/
def encodeReply (d : Delims) (da deviceType sourceAddress height angle : Byte) : List Byte :=
  frameOf d [da, Config.cwGet, deviceType, sourceAddress, Config.tagGet, height, angle]

/-- The logical fields of a wire-frame row, any control word (R71, R73); an operation has no bit pattern (R88). -/
def Instr.fields? : Instr → Option (List Byte)
  | .stopRequest das dae cw sax sa => some [das, dae, cw, sax, sa, Config.tagStop]
  | .setRequest das dae cw sax sa h a => some [das, dae, cw, sax, sa, Config.tagSet, h, a]
  | .getRequest das dae cw sax sa => some [das, dae, cw, sax, sa, Config.tagGet]
  | .getReply da cw sax sa h a => some [da, cw, sax, sa, Config.tagGet, h, a]
  | .encode .. => none
  | .encodeReply .. => none
  | .decode .. => none
  | .gate => none
  | .gateRecord => none
  | .execute .. => none
  | .stop .. => none
  | .set .. => none
  | .get .. => none
  | .receive .. => none
  | .respond => none
  | .setSlaveAddress .. => none
  | .reset => none

/-- The wire frame of an instruction that has one (R81, R88). -/
def encode (d : Delims) (i : Instr) : Option (List Byte) :=
  i.fields?.map (frameOf d)

/-! ### opcode_table.json: rows over the logical frame (R88) -/

/-- A wire-frame row: `match` and `mask` over the bytes of the logical frame, index 0 first. -/
structure TableRow where
  pattern : List Byte
  mask    : List Byte
  deriving DecidableEq, Repr

/-- "a logical frame belongs to the row when `frame AND mask = match`" (R88). -/
def TableRow.admits (r : TableRow) (frame : List Byte) : Bool :=
  frame.length == r.mask.length && List.zipWith (· &&& ·) frame r.mask == r.pattern

/-- Row `STOP.request` of the table. -/
def rowStopRequest : TableRow :=
  { pattern := [0x10, 0x02, 0x00, 0x00, 0x00, 0x00, 0x00, 0x00, 0x84, 0x10, 0x03, 0x00]
    mask    := [0xFF, 0xFF, 0x00, 0x00, 0x00, 0x00, 0x00, 0x00, 0xFF, 0xFF, 0xFF, 0x00] }

/-- Row `SET.request` of the table. -/
def rowSetRequest : TableRow :=
  { pattern := [0x10, 0x02, 0x00, 0x00, 0x00, 0x00, 0x00, 0x00, 0x8F, 0x00, 0x00, 0x10, 0x03, 0x00]
    mask    := [0xFF, 0xFF, 0x00, 0x00, 0x00, 0x00, 0x00, 0x00, 0xFF, 0x00, 0x00, 0xFF, 0xFF, 0x00] }

/-- Row `GET.request` of the table. -/
def rowGetRequest : TableRow :=
  { pattern := [0x10, 0x02, 0x00, 0x00, 0x00, 0x00, 0x00, 0x00, 0x55, 0x10, 0x03, 0x00]
    mask    := [0xFF, 0xFF, 0x00, 0x00, 0x00, 0x00, 0x00, 0x00, 0xFF, 0xFF, 0xFF, 0x00] }

/-- Row `GET.reply` of the table. -/
def rowGetReply : TableRow :=
  { pattern := [0x10, 0x02, 0x00, 0x00, 0x00, 0x00, 0x00, 0x55, 0x00, 0x00, 0x10, 0x03, 0x00]
    mask    := [0xFF, 0xFF, 0x00, 0x00, 0x00, 0x00, 0x00, 0xFF, 0x00, 0x00, 0xFF, 0xFF, 0x00] }

/-- The instruction of the table row a logical frame belongs to. The mask leaves BC and FCC open: "which depend on
the stuffing" (R88). -/
def logicalInstr (frame : List Byte) : Option Instr :=
  match frame with
  | [_, _, _, das, dae, cw, sax, sa, _, _, _, _] =>
    if rowStopRequest.admits frame then some (.stopRequest das dae cw sax sa)
    else if rowGetRequest.admits frame then some (.getRequest das dae cw sax sa)
    else none
  | [_, _, _, da, cw, sax, sa, _, height, angle, _, _, _] =>
    if rowGetReply.admits frame then some (.getReply da cw sax sa height angle) else none
  | [_, _, _, das, dae, cw, sax, sa, _, height, angle, _, _, _] =>
    if rowSetRequest.admits frame then some (.setRequest das dae cw sax sa height angle) else none
  | _ => none

/-- The `n` bytes of a table word, the first byte in bits 7..0. -/
def bytesOfNat : Nat → Nat → List Byte
  | 0, _ => []
  | n + 1, w => BitVec.ofNat 8 (w % 256) :: bytesOfNat n (w / 256)

/-- The wire frame of a table word: "the wire frame is obtained from the logical frame by applying `esc` to every
field marked stuffable", with BC and FCC as R78 and R79 give them (R88; log entry 15). DESIGN CHOICE (log entry 15):
R88 does not say how the rows, which print the header 0x02 and the terminator 0x03, read at an instance whose STX or
ETX is another byte; the word is matched against the rows as printed at every instance, and the wire frame is framed
by the instance's own delimiters `d`. -/
def wireOfTableWord (d : Delims) (nbits w : Nat) : Option (Dir × List Byte) :=
  match logicalInstr (bytesOfNat (nbits / 8) w) with
  | none => none
  | some i =>
    match i.dir?, encode d i with
    | some dir, some wire => some (dir, wire)
    | _, _ => none

/-- The instruction the decoder reads from a word numbered as opcode_table.json numbers it: the word's wire frame is
given to `decodeInstr`. -/
def decodeTableWord (nbits w : Nat) : Option Instr :=
  match wireOfTableWord Delims.ascii nbits w with
  | none => none
  | some (dir, wire) => (decodeInstr Delims.ascii dir wire).toOption

end Sys2Proof
end

