-- ==== Sys2Proof/Machine/State.lean ====
section
/-! DEFINITION. Sys2Proof/Machine/State.lean: what the machine holds. The registers are those of R20, the parameters
of the instance stand beside them (R8), and `Env` is what R37 calls the environment of the block: the transport, the
time source, the host. Everything is plain data. -/

namespace Sys2Proof.Machine

open Config (Params Role)

/-! ### Register types -/

/-- The master's phase register (R30). -/
inductive MPhase where
  | idle
  | gate
  | echo
  | read
  deriving DecidableEq, Repr

/-- The Responder's phase register (R33). -/
inductive RPhase where
  | accum
  | fcc
  | ready
  deriving DecidableEq, Repr

/-- The outcome codes (R201), "a model should use an enumeration", and one outcome that is none of them. -/
inductive Code where
  | ok
  | invalidAddressRange
  | invalidBaudRate
  | malformedFrame
  | localEchoMismatch
  | noResponse
  | busy
  | wrongRole
  | invalidSlaveAddress
  | rxOverflow
  /-- A transport call failed: "an outcome outside the codes of 60_exceptions.md rule R201" (U6; log entry 13). -/
  | transportError
  deriving DecidableEq, Repr

/-- `CFG` (R28): two bits, `local_echo` bit 0 and `close_after_call` bit 1. -/
structure Cfg where
  localEcho      : Bool
  closeAfterCall : Bool
  deriving DecidableEq, Repr

/-- `MCMD` (R26): the operands of the transaction in flight. -/
structure MCmd where
  cmd    : Cmd
  das    : Byte
  dae    : Byte
  height : Byte
  angle  : Byte
  deriving DecidableEq, Repr

/-- `MRES` (R27): the outcome of the most recent completed transaction. -/
structure MRes where
  code   : Code
  height : Byte
  angle  : Byte
  deriving DecidableEq, Repr

/-- `RSTAT` (R35): the outcome of the most recent RESPOND or overflow, and the command last decoded. -/
structure RStat where
  code    : Code
  lastCmd : Option Cmd
  deriving DecidableEq, Repr

/-! ### The environment (R37) -/

/-- One use of the transport (R50), in the order the block makes it. -/
inductive TEvent where
  /-- `TOpen()` (R55). -/
  | opened
  /-- `TClose()` (R55). -/
  | closed
  /-- `Baud()` answered `b` (R54). -/
  | baud (b : Int)
  /-- `TWrite(bs)` at time `at_` (R52). -/
  | wrote (at_ : Time) (bs : List Byte)
  /-- `TRead(n)` returned `bs` (R53). -/
  | read (n : Nat) (bs : List Byte)
  /-- A transport call failed (U6); `sent` is what it put on the line all the same, a free value. -/
  | broken (sent : List Byte)
  deriving DecidableEq, Repr

/-- Why the block turns a host operation away before it changed any state (R203). -/
inductive HostRefusal where
  | busy
  | wrongRole
  | invalidSlaveAddress (v : Int)
  deriving DecidableEq, Repr

/-- What a caller is told (R206, R203) or is returned. -/
inductive Report where
  /-- An Execute succeeded: `(0, height, angle)` for GET, `(0)` for STOP and SET (R206). -/
  | completed (values : Option (Byte × Byte))
  /-- The completion report `(code(E), info)` of a failure (R206), or the failure a codec operation raised. -/
  | failed (f : Failure)
  /-- A transport call of the transaction failed (U6), which is none of the five failures (R200). -/
  | transportFailed
  /-- The operation was refused (R203). -/
  | refused (r : HostRefusal)
  /-- The frame that ENCODE or ENCODE_REPLY returned (R100, R102). -/
  | frame (bs : List Byte)
  /-- The record that DECODE returned (R103). -/
  | decoded (r : Record)
  /-- GATE, SET_SLAVE_ADDRESS or a write of `CFG` returned ok. -/
  | ok
  deriving DecidableEq, Repr

/-- What can happen to the block from outside, one event at a time. -/
inductive Input where
  /-- An operation is presented: by the host, or by whoever calls a component of the block. A wire frame is no operation
  of a caller: its bytes reach the block over the line, as for `arrive` (log entry 11). -/
  | op (i : Instr)
  /-- The host writes `CFG`, bit 0 `local_echo`, bit 1 `close_after_call` (R28). -/
  | writeCfg (v : BitVec 2)
  /-- The line delivers bytes to the block (R51). -/
  | arrive (bs : List Byte)
  /-- The time source reads `t` (R130). -/
  | clock (t : Time)
  /-- The host configures the transport's baud rate (R54, R246). -/
  | setBaud (b : Int)
  /-- The block takes the step it is at, if one is enabled; an outstanding read returns at most `k` bytes (R53). -/
  | turn (k : Nat)
  /-- As `op i`, but of the transport calls that the step makes the first `n` succeed and the next one fails (U6). -/
  | opFails (n : Nat) (i : Instr)
  /-- As `turn k`, but of the transport calls that the step makes the first `n` succeed and the next one fails (U6). -/
  | turnFails (n k : Nat)
  /-- Two stations write at once, which no rule of the spec describes (U13). -/
  | collision
  deriving DecidableEq, Repr

/-- The environment: no register of the block (R37). `inputs` is what the outside will do next, oldest first; it is no
queue of the block (log entry 4). `draws` counts free values (log entry 6). `gateCall` says that the caller blocked
in `M_GATE` called GATE itself (log entry 9). -/
structure Env where
  now      : Time
  baud     : Int
  inbound  : List Byte
  trace    : List TEvent
  reports  : List Report
  inputs   : List Input
  draws    : Nat
  gateCall : Bool
  deriving DecidableEq, Repr

/-- The state of one instance: the parameters (R8), then the registers of R20, then the environment. -/
structure State where
  params  : Params
  devtype : Byte
  srcaddr : Byte
  slvaddr : Byte
  height  : Byte
  angle   : Byte
  cfg     : Cfg
  lrt     : Option Time
  mphase  : MPhase
  mcmd    : MCmd
  gdl     : Time
  txbuf   : List Byte
  mres    : MRes
  rphase  : RPhase
  rxbuf   : List Byte
  rstat   : RStat
  env     : Env
  deriving DecidableEq, Repr

/-- How the machine stops with a fault: in no way. Every failure of the block is reported or recorded and leaves it
usable (R206 to R208), a transport call that fails included (U6), so no meaning raises one. -/
inductive Fault where
  deriving DecidableEq, Repr

/-- Why a step has no meaning. -/
inductive Refusal where
  /-- An instruction whose arm of `exec` gives it no meaning yet. Safe. No arm raises it. -/
  | notModelled (mnemonic : String)
  /-- The input `collision`: "two stations writing at once is not modelled" (U13). Safe. -/
  | lineCollision
  deriving DecidableEq, Repr

/-- The registers of R38 and R230 at their reset values for an instance with parameters `p`, in environment `e`:
reset "does not touch the transport" (R230). `MCMD` and `GDL`, which the spec leaves unspecified, get the values of
log entry 5 (DESIGN CHOICE, unsafe). -/
def State.resetWith (p : Params) (e : Env) : State :=
  { params := p
    devtype := p.deviceTypeInit
    srcaddr := p.sourceAddressInit
    slvaddr := p.slaveAddressInit
    height := 0xFF
    angle := 0xFF
    cfg := { localEcho := p.localEchoInit, closeAfterCall := p.closeAfterCallInit }
    lrt := none
    mphase := .idle
    mcmd := { cmd := .stop, das := 0, dae := 0, height := 0, angle := 0 }
    gdl := 0
    txbuf := []
    mres := { code := .ok, height := 0xFF, angle := 0xFF }
    rphase := .accum
    rxbuf := []
    rstat := { code := .ok, lastCmd := none }
    env := e }

/-- The surroundings of `State.reset`: nothing on the line, nothing reported, no input, time 0, 9600 baud
(DESIGN CHOICE, log entry 8, unsafe). -/
def Env.initial : Env :=
  { now := 0, baud := 9600, inbound := [], trace := [], reports := [], inputs := [], draws := 0, gateCall := false }

/-- The machine right after reset (R230), for the instance `Config.params` (log entry 3). -/
def State.reset : State :=
  State.resetWith Config.params Env.initial

end Sys2Proof.Machine
end

