-- ==== Sys2Proof/Machine/Flags.lean ====
section
/-! DEFINITION. Sys2Proof/Machine/Flags.lean: the block has no condition flags (R34); the only status a program can
read is an outcome code. Here are the codes, their numbers, and the code of each failure, refusal and report. -/

namespace Sys2Proof.Machine

/-- The number of a code (R201); 10 is the first number that R201 does not use (log entry 13). -/
def Code.toNat : Code → Nat
  | .ok => 0
  | .invalidAddressRange => 1
  | .invalidBaudRate => 2
  | .malformedFrame => 3
  | .localEchoMismatch => 4
  | .noResponse => 5
  | .busy => 6
  | .wrongRole => 7
  | .invalidSlaveAddress => 8
  | .rxOverflow => 9
  | .transportError => 10

/-- `code(E)` of a failure (R201). -/
def failureCode : Failure → Code
  | .invalidAddressRange .. => .invalidAddressRange
  | .invalidBaudRate .. => .invalidBaudRate
  | .malformedFrame .. => .malformedFrame
  | .localEchoMismatch => .localEchoMismatch
  | .noResponse => .noResponse

/-- The code of a refusal (R201). -/
def HostRefusal.code : HostRefusal → Code
  | .busy => .busy
  | .wrongRole => .wrongRole
  | .invalidSlaveAddress .. => .invalidSlaveAddress

/-- The code a report carries (R206, R203): 0 for every success. -/
def Report.code : Report → Code
  | .completed .. => .ok
  | .failed f => failureCode f
  | .transportFailed => .transportError
  | .refused r => r.code
  | .frame .. => .ok
  | .decoded .. => .ok
  | .ok => .ok

/-- The command a decoded record carries (R175 "command of d.cmd"); a reply has GET's tag (R72). -/
def recordCmd : Record → Cmd
  | .stop .. => .stop
  | .set .. => .set
  | .get .. => .get
  | .reply .. => .get

end Sys2Proof.Machine
end

