-- ==== Sys2Proof/Machine/Operands.lean ====
section
/-! DEFINITION. Sys2Proof/Machine/Operands.lean: the operand forms: address ranges, arguments of a command, omitted
arguments, the integer operand of SET_SLAVE_ADDRESS, the bits of `CFG`. -/

namespace Sys2Proof.Machine

/-- `das ≤ addr ≤ dae`, unsigned, never wrapping (R13): the range of a command covers the address (R177). -/
def covers (das dae addr : Byte) : Bool :=
  das ≤ addr && addr ≤ dae

/-- `das = addr and dae = addr`: addressed "exactly and only" to this slave (R178). -/
def addressesOnly (das dae addr : Byte) : Bool :=
  das == addr && dae == addr

/-- An argument of SET that stores: the received byte, or the old value for the sentinel (R177). -/
def updated (old received : Byte) : Byte :=
  if received = Config.sentinel then old else received

/-- An omitted `height` or `angle` is 255 (R87, R153). -/
def orDefault (operand : Option Byte) : Byte :=
  operand.getD Config.sentinel

/-- The command that Execute encodes: `args = [height, angle] if cmd = SET else []` (R140 step 2). -/
def commandOf (cmd : Cmd) (height angle : Byte) : Command :=
  match cmd with
  | .stop => .stop
  | .set => .set height angle
  | .get => .get

/-- The operand of SET_SLAVE_ADDRESS as a slave address, when it is one (R183: `1 ≤ v ≤ 255`). -/
def slaveAddress? (v : Int) : Option Byte :=
  if 1 ≤ v ∧ v ≤ 255 then some (BitVec.ofInt 8 v) else none

/-- `CFG` from the two bits the host writes: `local_echo` is bit 0, `close_after_call` bit 1 (R28). -/
def cfgOfBits (v : BitVec 2) : Cfg :=
  { localEcho := v.getLsbD 0, closeAfterCall := v.getLsbD 1 }

/-- The two bits the host reads (R28). -/
def cfgBits (c : Cfg) : BitVec 2 :=
  BitVec.ofBool c.closeAfterCall ++ BitVec.ofBool c.localEcho

end Sys2Proof.Machine
end

