-- ==== Sys2Proof/Machine/Ops.lean ====
section
/-! DEFINITION. Sys2Proof/Machine/Ops.lean: the shared operations: the five of the transport (R50), the reports to
the caller, and what ends a transaction: `raiseFailure` is the block's form of taking an exception (R206), and
`completeTransaction` its normal end. There is no return from a failure: the next Execute is accepted at once (R208).
`failAtCall` is what a transport call that fails makes of a step (U6). -/

namespace Sys2Proof.Machine

/-! ### Reports and the transport -/

/-- The caller is told `r`. -/
def report (r : Report) (s : State) : State :=
  { s with env := { s.env with reports := s.env.reports ++ [r] } }

/-- The block makes the transport event `e`, after every earlier one (R62). -/
def emit (e : TEvent) (s : State) : State :=
  { s with env := { s.env with trace := s.env.trace ++ [e] } }

/-- `TOpen()` (R55): "events with no effect on block state". Bytes unread at an open stay too (log entry 24). -/
def tOpen (s : State) : State :=
  emit .opened s

/-- `TClose()` (R55): likewise. Whether bytes pending at a close are lost is left open there ("out of scope"); in this
model they stay in the inbound stream (DESIGN CHOICE, log entry 24, unsafe). -/
def tClose (s : State) : State :=
  emit .closed s

/-- `Baud()` (R54): the rate is `s.env.baud`; the event records that the block read it. -/
def sampleBaud (s : State) : State :=
  emit (.baud s.env.baud) s

/-- `TWrite(bs)` (R52): one atomic append to the outbound stream, now. -/
def tWrite (bs : List Byte) (s : State) : State :=
  emit (.wrote s.env.now bs) s

/-- What `TRead(n)` returns when the transport answers with at most `k` bytes: the oldest unread bytes, at most `n`
of them (R53). -/
def readBytes (n k : Nat) (s : State) : List Byte :=
  s.env.inbound.take (min k n)

/-- `TRead(n)` (R53): the bytes returned are consumed. -/
def tRead (n k : Nat) (s : State) : State :=
  emit (.read n (readBytes n k s))
    { s with env := { s.env with inbound := s.env.inbound.drop (min k n) } }

/-- The bytes of one transport event that went out on the line. -/
def TEvent.written : TEvent → List Byte
  | .wrote _ bs => bs
  | .opened => []
  | .closed => []
  | .baud .. => []
  | .read .. => []
  | .broken sent => sent

/-- The outbound stream (R51): the bytes the block has written, in order. -/
def outbound (s : State) : List Byte :=
  s.env.trace.flatMap TEvent.written

/-! ### The port policy (R150) -/

/-- "`if CFG.close_after_call = 1: TOpen()`" (R150). -/
def openIfRequested (s : State) : State :=
  if s.cfg.closeAfterCall then tOpen s else s

/-- "`if CFG.close_after_call = 1: TClose()`" (R150). -/
def closeIfRequested (s : State) : State :=
  if s.cfg.closeAfterCall then tClose s else s

/-! ### Refusals, failures, completion -/

/-- A host operation is refused: it is told so and nothing else changes (R203). -/
def refuseHost (r : HostRefusal) (s : State) : State :=
  report (.refused r) s

/-- The acceptance test of Execute (R140): refused with `WrongRole` when `ROLE = SLAVE`, else with `Busy` unless
`MPHASE = M_IDLE`; otherwise it `start`s. A call of GATE or of GATE_RECORD by itself is tested in the same way (log
entries 9 and 10), since a master in a phase "does nothing else" (R132, R143). -/
def acceptWhenIdle (start : State → State) (s : State) : State :=
  if s.params.role = .slave then refuseHost .wrongRole s
  else if s.mphase ≠ .idle then refuseHost .busy s
  else start s

/-- A step of the master raises failure `f` (R206): `MRES.code <- code(E)`, `MPHASE <- M_IDLE`, the host is told. The
`TClose()` that R206 puts before these is `closeIfRequested`, applied by the steps that follow the `TOpen()`. -/
def raiseFailure (f : Failure) (s : State) : State :=
  report (.failed f)
    { s with mres := { s.mres with code := failureCode f }, mphase := .idle }

/-- A step after the `TOpen()` raises failure `f` (R150, R206). -/
def failTransaction (f : Failure) (s : State) : State :=
  raiseFailure f (closeIfRequested s)

/-- STOP or SET ends well: `TClose()` if asked for, `MRES.code <- 0`, `MPHASE <- M_IDLE`, report `(0)` (R140, R206). -/
def completeTransaction (s : State) : State :=
  let s := closeIfRequested s
  report (.completed none)
    { s with mres := { s.mres with code := .ok }, mphase := .idle }

/-- GET ends well: as above, with `MRES.height` and `MRES.angle` written and reported (R148, R206). -/
def completeGet (height angle : Byte) (s : State) : State :=
  let s := closeIfRequested s
  report (.completed (some (height, angle)))
    { s with mres := { code := .ok, height := height, angle := angle }, mphase := .idle }

/-! ### A transport call that fails (R56, U6) -/

/-- The transport events of a step from `s` to `t`. -/
def callsOf (s t : State) : List TEvent :=
  t.env.trace.drop s.env.trace.length

/-- The surroundings after a failed call, the `n` calls before it made: "no claim about the line's contents
afterwards" (U6), so what the call sent and what is left unread are free values (log entry 13). -/
def envAfterError (n : Nat) (s t : State) : Env :=
  { t.env with
    inbound := Config.unreadAfterError t.env.draws
    trace := s.env.trace ++ (callsOf s t).take n ++ [.broken (Config.sentAfterError t.env.draws)]
    reports := s.env.reports
    draws := t.env.draws + 1
    gateCall := false }

/-- The step from `s` to `t` ends at its failing call. The master does what U6 asks for: "end the transaction at the
failing call with an outcome outside the codes of" R201, "set `MPHASE <- M_IDLE`, leave `LRT` and `MRES.height`,
`MRES.angle` unchanged"; what the step wrote before its first call (`MCMD`, `TXBUF`) stands, and the host is told. U6
says nothing of a slave, which has no transaction: a failed `TRead(1)` brings no byte, and RESPOND has done all else
before its one call (log entry 13). -/
def endAtFailingCall (n : Nat) (s t : State) : State :=
  match s.params.role with
  | .master =>
    report .transportFailed
      { t with
        lrt := s.lrt, gdl := s.gdl, mphase := .idle, mres := { s.mres with code := .transportError }
        env := envAfterError n s t }
  | .slave =>
    if s.rphase = .ready then { t with env := envAfterError n s t } else { s with env := envAfterError n s t }

/-- The step from `s` to `t` when the transport call after the first `n` fails: a step that makes no such call ends as
it would. -/
def failAtCall (n : Nat) (s t : State) : State :=
  if (callsOf s t).length ≤ n then t else endAtFailingCall n s t

end Sys2Proof.Machine
end

