-- ==== Sys2Proof/Machine/Codec.lean ====
section
/-! DEFINITION. Sys2Proof/Machine/Codec.lean: the Frame Codec's operations ENCODE, ENCODE_REPLY and DECODE
(40_codec.md). They are pure: "they read no register, write no register, and touch no transport"; the one effect is
what the caller is returned. -/

namespace Sys2Proof.Machine

/-- ENCODE (R100): the frame, or `InvalidAddressRange`. -/
def execEncode (cmd : Command) (das dae deviceType sourceAddress : Byte) (s : State) :
    Host.Outcome State Fault Refusal :=
  match encodeRequest s.params.delims cmd das dae deviceType sourceAddress with
  | .ok frame => .next (report (.frame frame) s)
  | .error f => .next (report (.failed f) s)

/-- ENCODE_REPLY (R102): it cannot fail. -/
def execEncodeReply (da deviceType sourceAddress height angle : Byte) (s : State) :
    Host.Outcome State Fault Refusal :=
  .next (report (.frame (encodeReply s.params.delims da deviceType sourceAddress height angle)) s)

/-- DECODE (R103): the record, or `MalformedFrame` with its sub-cause (R105). -/
def execDecode (raw : List Byte) (dir : Dir) (s : State) : Host.Outcome State Fault Refusal :=
  match decodeFrame s.params.delims dir raw with
  | .ok r => .next (report (.decoded r) s)
  | .error c => .next (report (.failed (.malformedFrame c)) s)

end Sys2Proof.Machine
end

