-- ==== Sys2Proof/Machine/Control.lean ====
section
/-! DEFINITION. Sys2Proof/Machine/Control.lean: SET_SLAVE_ADDRESS (R183), the reset event (R230) and the host's write
of `CFG` (R28). -/

namespace Sys2Proof.Machine

/-- SET_SLAVE_ADDRESS (R183): accepted in either role and at any time; outside 1..255 it is refused. -/
def execSetSlaveAddress (v : Int) (s : State) : Host.Outcome State Fault Refusal :=
  match slaveAddress? v with
  | some a => .next (report .ok { s with slvaddr := a })
  | none => .next (refuseHost (.invalidSlaveAddress v) s)

/-- RESET (R230): every register to its reset value; the transport is not touched, and a transaction is abandoned
without a report. A call of GATE that was blocked is abandoned with it (log entry 9). -/
def execReset (s : State) : Host.Outcome State Fault Refusal :=
  .next (State.resetWith s.params { s.env with gateCall := false })

/-- The host writes `CFG`: refused with `Busy` while `MPHASE ≠ M_IDLE` (R28, R234). -/
def writeCfg (v : BitVec 2) (s : State) : State :=
  if s.mphase ≠ .idle then refuseHost .busy s
  else report .ok { s with cfg := cfgOfBits v }

end Sys2Proof.Machine
end

