-- ==== Sys2Proof/Machine/Gate.lean ====
section
/-! DEFINITION. Sys2Proof/Machine/Gate.lean: the Timing Gate's operations GATE and GATE_RECORD (41_timing_gate.md). -/

namespace Sys2Proof.Machine

/-- `P(b) = BITS_PER_CHAR × SILENT_CHARS / b` seconds, exact (R131, R15). -/
def silentPeriod (baud : Int) : Time :=
  Config.bitsPerChar * Config.silentChars / (baud : Rat)

/-- `wait` of R132: 0 before any read is recorded (R135), else `max(0, P(b) − (t0 − t))`. -/
def gateWait (baud : Int) (t0 : Time) : Option Time → Time
  | none => 0
  | some t =>
    if silentPeriod baud - (t0 - t) < 0 then 0 else silentPeriod baud - (t0 - t)

/-- The deadline `t0 + wait` (R132, R30). -/
def gateDeadline (baud : Int) (t0 : Time) (lrt : Option Time) : Time :=
  t0 + gateWait baud t0 lrt

/-- `mphase <- M_GATE` and `GDL <- t0 + wait`, with `b` and `t0` sampled once (R132, R143). -/
def enterGate (s : State) : State :=
  { s with mphase := .gate, gdl := gateDeadline s.env.baud s.env.now s.lrt }

/-- An accepted call of GATE (R132, R133): the baud test, then the block is in `M_GATE` until `Now() ≥ GDL`, when
`gateReleases` returns ok to the caller. -/
def callGate (s : State) : State :=
  let s := sampleBaud s
  if s.env.baud ≤ 0 then raiseFailure (.invalidBaudRate s.env.baud) s
  else
    let s := enterGate s
    { s with env := { s.env with gateCall := true } }

/-- GATE (R132, R133), called by itself. The engine it belongs to runs with `ROLE = MASTER` only (R137, R210), and while
it is in a phase it "does nothing else" (R132): elsewhere the call is refused (log entry 9). -/
def execGate (s : State) : Host.Outcome State Fault Refusal :=
  .next (acceptWhenIdle callGate s)

/-- The blocked call of GATE returns ok. -/
def gateReleases (s : State) : State :=
  report .ok { s with mphase := .idle, env := { s.env with gateCall := false } }

/-- `LRT <- some Now()` (R134). -/
def recordRead (s : State) : State :=
  { s with lrt := some s.env.now }

/-- GATE_RECORD (R134), called by itself: no operand and no failure, `LRT` is overwritten unconditionally. Like GATE it
belongs to the master's engine and is refused with `ROLE = SLAVE`. It is refused too while the master is in a phase
(R132, R143 "does nothing else"): moving `LRT` in `M_GATE`, behind the `GDL` computed from it, would let the write come
less than the silent period after it (R64, R136), and the one record inside a GET is step 6's own (R134, R147; log
entry 10). -/
def execGateRecord (s : State) : Host.Outcome State Fault Refusal :=
  .next (acceptWhenIdle recordRead s)

end Sys2Proof.Machine
end

