-- ==== Sys2Proof/Machine/Master.lean ====
section
/-! DEFINITION. Sys2Proof/Machine/Master.lean: the Transaction Engine (42_master.md): Execute and the host commands
STOP, SET and GET, whose step is the acceptance of the transaction, the later rows of R151 that the block takes by
itself, and the frame GET.reply, which the last of them acts on. -/

namespace Sys2Proof.Machine

/-- An accepted Execute up to the entry of `M_GATE` (R140 steps 1 to 3; the first three rows of R151). -/
def beginTransaction (cmd : Cmd) (das dae height angle : Byte) (s : State) : State :=
  let s := { s with mcmd := { cmd := cmd, das := das, dae := dae, height := height, angle := angle } }
  match encodeRequest s.params.delims (commandOf cmd height angle) das dae s.devtype s.srcaddr with
  | .error f => raiseFailure f s
  | .ok frame =>
    let s := sampleBaud (openIfRequested { s with txbuf := frame })
    if s.env.baud ≤ 0 then failTransaction (.invalidBaudRate s.env.baud) s
    else enterGate s

/-- An accepted Execute whose command has no height and no angle: the two operands that `MCMD` latches are free
values (R152, R154 "-"; log entry 7), and both are drawn. -/
def beginWithoutArguments (cmd : Cmd) (das dae : Byte) (s : State) : State :=
  beginTransaction cmd das dae (Config.unusedOperand s.env.draws) (Config.unusedOperand (s.env.draws + 1))
    { s with env := { s.env with draws := s.env.draws + 2 } }

/-- EXECUTE (R140). -/
def execExecute (cmd : Cmd) (das dae height angle : Byte) (s : State) : Host.Outcome State Fault Refusal :=
  .next (acceptWhenIdle (beginTransaction cmd das dae height angle) s)

/-- STOP (R152): `Execute(STOP, das, dae, -, -)`. -/
def execStop (das dae : Byte) (s : State) : Host.Outcome State Fault Refusal :=
  .next (acceptWhenIdle (beginWithoutArguments .stop das dae) s)

/-- SET (R153): `Execute(SET, das, dae, height, angle)`, an omitted argument being 255. -/
def execSet (das dae : Byte) (height angle : Option Byte) (s : State) : Host.Outcome State Fault Refusal :=
  .next (acceptWhenIdle (beginTransaction .set das dae (orDefault height) (orDefault angle)) s)

/-- GET (R154): `Execute(GET, das, das, -, -)`. -/
def execGet (address : Byte) (s : State) : Host.Outcome State Fault Refusal :=
  .next (acceptWhenIdle (beginWithoutArguments .get address address) s)

/-! ### The later rows of R151 -/

/-- `M_GATE` once `Now() ≥ GDL` (R144; rows 4 to 6 of R151): one `TWrite(TXBUF)`, then the phase that follows. -/
def gateOpens (s : State) : State :=
  let s := tWrite s.txbuf s
  if s.cfg.localEcho then { s with mphase := .echo }
  else if s.mcmd.cmd = .get then { s with mphase := .read }
  else completeTransaction s

/-- `M_ECHO` when the echo read returns (R145; rows 7 to 9 of R151). -/
def echoReturns (k : Nat) (s : State) : State :=
  let e := readBytes s.txbuf.length k s
  let s := tRead s.txbuf.length k s
  if e ≠ s.txbuf then failTransaction .localEchoMismatch s
  else if s.mcmd.cmd = .get then { s with mphase := .read }
  else completeTransaction s

/-- GET.reply: the fields of a reply that DECODE accepted (R148). In `M_READ` they end the GET, with the time recorded
(R147, last row of R151); the master looks at nothing but height and angle (D36). With `ROLE = SLAVE` the frame is another slave's reply, which the Responder
rejects (R110, R212). In another phase no rule acts on it (log entry 11). -/
def execGetReply (_da _cw _sax _sa height angle : Byte) (s : State) : Host.Outcome State Fault Refusal :=
  match s.params.role with
  | .master => if s.mphase = .read then .next (completeGet height angle (recordRead s)) else .next s
  | .slave => .next { s with rstat := { s.rstat with code := .malformedFrame } }

/-- The end of step 6 and step 7 on a response that holds at least one byte: the time is recorded, whatever DECODE
under `REP` says of the bytes (R147), and a reply has its meaning (R148; rows 11 and 12 of R151). -/
def handleResponse (raw : List Byte) (s : State) : Host.Outcome State Fault Refusal :=
  match decodeFrame s.params.delims .rep raw with
  | .error c => .next (failTransaction (.malformedFrame c) (recordRead s))
  | .ok (.reply _ da cw sax sa height angle) => execGetReply da cw sax sa height angle s
  | .ok (.stop ..) => .next (failTransaction (.malformedFrame .command) (recordRead s))
  | .ok (.set ..) => .next (failTransaction (.malformedFrame .command) (recordRead s))
  | .ok (.get ..) => .next (failTransaction (.malformedFrame .command) (recordRead s))

/-- `M_READ` when the response read returns (R146 to R148; rows 10 to 12 of R151): the timestamp is recorded only when
a byte came (R147). -/
def readReturns (k : Nat) (s : State) : Host.Outcome State Fault Refusal :=
  let r := readBytes s.params.respWindow k s
  let s := tRead s.params.respWindow k s
  if r = [] then .next (failTransaction .noResponse s)
  else handleResponse r s

/-- A request frame that a master has in hand. In `M_READ` it is the response, which DECODE rejects under `REP`
(R110, R236); in another phase no rule acts on it (log entry 11). -/
def requestAtMaster (wire : List Byte) (s : State) : Host.Outcome State Fault Refusal :=
  if s.mphase = .read then handleResponse wire s else .next s

end Sys2Proof.Machine
end

