-- ==== Sys2Proof/Machine/Responder.lean ====
section
/-! DEFINITION. Sys2Proof/Machine/Responder.lean: the Responder (43_responder.md): RECEIVE, RESPOND and the three
request frames that RESPOND acts on. -/

namespace Sys2Proof.Machine

/-- RESPOND decoded a request of command `cmd`: `RSTAT.last_cmd <- some cmd`, `RSTAT.code <- 0` (R175). -/
def recordRequest (cmd : Cmd) (s : State) : State :=
  { s with rstat := { code := .ok, lastCmd := some cmd } }

/-- STOP.request at this station (R180): accepted, no other effect and no reply. -/
def execStopRequest (das dae cw sax sa : Byte) (s : State) : Host.Outcome State Fault Refusal :=
  match s.params.role with
  | .slave => .next (recordRequest .stop s)
  | .master => requestAtMaster (frameOf s.params.delims [das, dae, cw, sax, sa, Config.tagStop]) s

/-- SET.request at this station (R177): the Blind State is overwritten, each byte but for the sentinel, when the range
covers this slave. -/
def execSetRequest (das dae cw sax sa height angle : Byte) (s : State) : Host.Outcome State Fault Refusal :=
  match s.params.role with
  | .slave =>
    let s := recordRequest .set s
    if covers das dae s.slvaddr then
      .next { s with height := updated s.height height, angle := updated s.angle angle }
    else .next s
  | .master => requestAtMaster (frameOf s.params.delims [das, dae, cw, sax, sa, Config.tagSet, height, angle]) s

/-- GET.request at this station (R178, R179): answered in the same step, ungated (R181), when it is addressed exactly
and only to this slave. -/
def execGetRequest (das dae cw sax sa : Byte) (s : State) : Host.Outcome State Fault Refusal :=
  match s.params.role with
  | .slave =>
    let s := recordRequest .get s
    if addressesOnly das dae s.slvaddr then
      .next (tWrite (encodeReply s.params.delims sa s.devtype s.srcaddr s.height s.angle) s)
    else .next s
  | .master => requestAtMaster (frameOf s.params.delims [das, dae, cw, sax, sa, Config.tagGet]) s

/-- A byte other than ETX did not leave room for an ETX and an FCC (R173). -/
def rxOverflows (s : State) : State :=
  { s with rxbuf := [], rphase := .accum, rstat := { s.rstat with code := .rxOverflow } }

/-- RECEIVE, the step `RxByte(b)` for one byte actually received (R171, R173, R182; opcode_table.json "RECEIVE(byte)").
It is enabled when `ROLE = SLAVE` and `RPHASE ≠ R_READY`; where it is not, the step is not taken (log entry 11). The read
that brings the byte is no part of it: a turn of the block makes that read first (`turn`), and a RECEIVE presented by
itself brings its own byte, with no read and whether or not bytes are unread (DESIGN CHOICE, log entry 23, unsafe). -/
def execReceive (b : Byte) (s : State) : Host.Outcome State Fault Refusal :=
  match s.params.role, s.rphase with
  | .slave, .fcc => .next { s with rxbuf := s.rxbuf ++ [b], rphase := .ready }
  | .slave, .accum =>
    if b = s.params.delims.etx then .next { s with rxbuf := s.rxbuf ++ [b], rphase := .fcc }
    else if s.params.rxMaxLen - 1 ≤ s.rxbuf.length + 1 then .next (rxOverflows s)
    else .next { s with rxbuf := s.rxbuf ++ [b] }
  | .slave, .ready => .next s
  | .master, _ => .next s

/-- `RXBUF <- []`, `rphase <- R_ACCUM`: what RESPOND does first, on every path (R175). -/
def takeFrame (s : State) : State :=
  { s with rxbuf := [], rphase := .accum }

/-- RESPOND's dispatch on the decoded request (R175). The last arm is never reached: under `REQ` DECODE returns no
reply (R103). -/
def actOn (r : Record) (s : State) : Host.Outcome State Fault Refusal :=
  match r with
  | .stop _ das dae cw sax sa => execStopRequest das dae cw sax sa s
  | .set _ das dae cw sax sa height angle => execSetRequest das dae cw sax sa height angle s
  | .get _ das dae cw sax sa => execGetRequest das dae cw sax sa s
  | .reply _ da cw sax sa height angle => execGetReply da cw sax sa height angle s

/-- A request that fails DECODE has no effect beyond `RSTAT.code <- MalformedFrame` (R176). -/
def rejectFrame (s : State) : State :=
  { s with rstat := { s.rstat with code := .malformedFrame } }

/-- RESPOND (R175): one atomic step, enabled when `ROLE = SLAVE` and `RPHASE = R_READY`; where it is not, the step is
not taken (log entry 11). -/
def execRespond (s : State) : Host.Outcome State Fault Refusal :=
  match s.params.role, s.rphase with
  | .slave, .ready =>
    match decodeFrame s.params.delims .req s.rxbuf with
    | .error _ => .next (rejectFrame (takeFrame s))
    | .ok r => actOn r (takeFrame s)
  | .slave, .accum => .next s
  | .slave, .fcc => .next s
  | .master, _ => .next s

end Sys2Proof.Machine
end

