-- ==== Sys2Proof/Machine/Dispatch.lean ====
section
/-! DEFINITION. Sys2Proof/Machine/Dispatch.lean: the meaning of every instruction, one arm each. -/

namespace Sys2Proof.Machine

def exec (i : Instr) (s : State) : Host.Outcome State Fault Refusal :=
  match i with
  | .stopRequest das dae cw sax sa => Sys2Proof.Machine.execStopRequest das dae cw sax sa s
  | .setRequest das dae cw sax sa height angle => Sys2Proof.Machine.execSetRequest das dae cw sax sa height angle s
  | .getRequest das dae cw sax sa => Sys2Proof.Machine.execGetRequest das dae cw sax sa s
  | .getReply da cw sax sa height angle => Sys2Proof.Machine.execGetReply da cw sax sa height angle s
  | .encode cmd das dae deviceType sourceAddress => Sys2Proof.Machine.execEncode cmd das dae deviceType sourceAddress s
  | .encodeReply da deviceType sourceAddress height angle => Sys2Proof.Machine.execEncodeReply da deviceType sourceAddress height angle s
  | .decode raw dir => Sys2Proof.Machine.execDecode raw dir s
  | .gate => Sys2Proof.Machine.execGate s
  | .gateRecord => Sys2Proof.Machine.execGateRecord s
  | .execute cmd das dae height angle => Sys2Proof.Machine.execExecute cmd das dae height angle s
  | .stop das dae => Sys2Proof.Machine.execStop das dae s
  | .set das dae height angle => Sys2Proof.Machine.execSet das dae height angle s
  | .get address => Sys2Proof.Machine.execGet address s
  | .receive b => Sys2Proof.Machine.execReceive b s
  | .respond => Sys2Proof.Machine.execRespond s
  | .setSlaveAddress v => Sys2Proof.Machine.execSetSlaveAddress v s
  | .reset => Sys2Proof.Machine.execReset s

end Sys2Proof.Machine
end

