-- ==== Sys2Proof/Machine/Environment.lean ====
section
/-! DEFINITION. Sys2Proof/Machine/Environment.lean: the steps the block takes by itself, what each input from outside
does, and how a frame comes to stand where the next step decodes it. -/

namespace Sys2Proof.Machine

/-- The step the block is at (R151, R182), one per phase; an outstanding read returns at most `k` bytes. The slave
runs RESPOND as soon as a candidate frame is complete (R170) and else reads one byte, where an empty read changes no
register (R172). The master in `M_GATE` is blocked while `Now() < GDL` (R143), and in `M_IDLE` it waits. -/
def turn (k : Nat) (s : State) : Host.Outcome State Fault Refusal :=
  match s.params.role with
  | .slave =>
    if s.rphase = .ready then execRespond s
    else
      match readBytes 1 k s with
      | [] => .next (tRead 1 k s)
      | b :: _ => execReceive b (tRead 1 k s)
  | .master =>
    match s.mphase with
    | .idle => .next s
    | .gate =>
      if s.env.now < s.gdl then .next s
      else if s.env.gateCall then .next (gateReleases s)
      else .next (gateOpens s)
    | .echo => .next (echoReturns k s)
    | .read => readReturns k s

/-- The line delivers bytes: they join the inbound stream behind the bytes not yet read (R51). -/
def deliver (bs : List Byte) (s : State) : State :=
  { s with env := { s.env with inbound := s.env.inbound ++ bs } }

/-- The time source reads `t`; it is monotonic: "a later call never returns a smaller value" (R130). -/
def setClock (t : Time) (s : State) : State :=
  { s with env := { s.env with now := if t < s.env.now then s.env.now else t } }

/-- The operation `i` is presented to the block. A wire frame is no operation of a caller: its bytes reach the block
over the line, and act when the block has read and decoded them (R50, R151, R182; log entry 11). -/
def present (i : Instr) (s : State) : Host.Outcome State Fault Refusal :=
  match encode s.params.delims i with
  | some wire => .next (deliver wire s)
  | none => exec i s

/-- The step `o` from `s`, with its transport call after the first `n` failing (U6). -/
def failing (n : Nat) (s : State) (o : Host.Outcome State Fault Refusal) : Host.Outcome State Fault Refusal :=
  match o with
  | .next t => .next (failAtCall n s t)
  | .fault f => .fault f
  | .refused r => .refused r

/-- One input from outside. -/
def applyInput (e : Input) (s : State) : Host.Outcome State Fault Refusal :=
  match e with
  | .op i => present i s
  | .writeCfg v => .next (writeCfg v s)
  | .arrive bs => .next (deliver bs s)
  | .clock t => .next (setClock t s)
  | .setBaud b => .next { s with env := { s.env with baud := b } }
  | .turn k => turn k s
  | .opFails n i => failing n s (present i s)
  | .turnFails n k => failing n s (turn k s)
  | .collision => .refused .lineCollision

/-- The state with `e` taken off the inputs still to come. -/
def dropInput (rest : List Input) (s : State) : State :=
  { s with env := { s.env with inputs := rest } }

/-- A step with no input left: the block takes its own step, and how many bytes the transport has ready is a free
value (R53; log entry 6). -/
def drawTurn (s : State) : Host.Outcome State Fault Refusal :=
  turn (Config.readLen s.env.draws) { s with env := { s.env with draws := s.env.draws + 1 } }

/-- A wire frame placed where the very next step decodes it (log entry 15): a request complete in `RXBUF` of a slave,
or a reply at the head of the inbound stream of a master in `M_READ`. -/
def placeFrame (dir : Dir) (wire : List Byte) (s : State) : State :=
  match dir with
  | .req =>
    { s with
      params := { s.params with role := .slave }
      rphase := .ready
      rxbuf := wire
      env := { s.env with inputs := .turn 0 :: s.env.inputs } }
  | .rep =>
    { s with
      params := { s.params with role := .master }
      mphase := .read
      env := { s.env with inbound := wire ++ s.env.inbound, inputs := .turn wire.length :: s.env.inputs } }

end Sys2Proof.Machine
end

