-- ==== Sys2Proof/Machine/Step.lean ====
section
/-! DEFINITION. Sys2Proof/Machine/Step.lean: one step, and the placing of a table word. The block fetches no
instructions (R30, R65): a step takes the next input from outside, or, when there is none, the step the block is at. -/

namespace Sys2Proof.Machine

/-- One step of the machine: the oldest input still to come, else the block's own step. -/
def step (s : State) : Host.Outcome State Fault Refusal :=
  match s.env.inputs with
  | [] => drawTurn s
  | e :: rest => applyInput e (dropInput rest s)

/-- The frame of a table word placed where the next step decodes it. A word that no row admits is placed as the bytes
it has, at the Responder. DESIGN CHOICE (log entry 15): R88 does not say how a table word reads at an instance whose
STX or ETX is not 0x02 or 0x03; the word is matched against the rows as printed, with 0x02 and 0x03, and the frame
placed has the delimiters of the instance, `s.params.delims`. -/
def State.withFetchWord (s : State) (nbits w : Nat) : State :=
  match wireOfTableWord s.params.delims nbits w with
  | some (dir, wire) => placeFrame dir wire s
  | none => placeFrame .req (bytesOfNat (nbits / 8) w) s

end Sys2Proof.Machine
end

