-- ==== Sys2Proof/Machine/Line.lean ====
section
/-! DEFINITION. Sys2Proof/Machine/Line.lean: one physical line with a master instance and its slaves (R212): "the
bytes are the other instance's outbound stream in order" (R53). Each slave hears every request and every other
slave's reply; the master hears every reply, and its own bytes first when its adapter echoes them. -/

namespace Sys2Proof.Machine

/-- The stations of a line and whether the master's adapter "retransmits what it just sent" (R145). -/
structure Line where
  master : State
  slaves : List State
  echo   : Bool
  deriving DecidableEq, Repr

/-- The lines R212 allows: one master, and slaves. "Two instances must not be attached to the same line's transport in
the master role" (R212), "a model ... must not be instantiated otherwise" (U1). A line that is not well formed, a master
among `slaves`, is no line of the spec; this model steps it by the same rules, and nothing is claimed of the protocol on
it (DESIGN CHOICE, log entry 25). R232 also asks that "all slaves on a line have distinct addresses", and what happens
otherwise is collisions, "which the block neither detects nor models" (U13). The host can give a slave any address at any
time (R183), so distinctness is no part of this condition, and two slaves at one address both answer a GET, their
replies reaching the others one after the other in the order of the steps (DESIGN CHOICE, log entry 25, unsafe). -/
abbrev Line.wf (l : Line) : Prop :=
  l.master.params.role = .master ∧ ∀ v ∈ l.slaves, v.params.role = .slave

/-- The bytes that a station put on the line between two of its states. -/
def newBytes (before after : State) : List Byte :=
  (outbound after).drop (outbound before).length

/-- The master takes a step; what it wrote reaches every slave, and itself on an echoing adapter. -/
def Line.masterStep (l : Line) : Host.Outcome Line Fault Refusal :=
  match step l.master with
  | .next m =>
    let bs := newBytes l.master m
    .next { l with
      master := if l.echo then deliver bs m else m
      slaves := l.slaves.map (deliver bs) }
  | .fault f => .fault f
  | .refused r => .refused r

/-- The `n`-th slave takes a step; what it wrote reaches the master and the other slaves. A number with no slave
changes nothing. -/
def Line.slaveStep (n : Nat) (l : Line) : Host.Outcome Line Fault Refusal :=
  match l.slaves[n]? with
  | none => .next l
  | some v =>
    match step v with
    | .next v' =>
      let bs := newBytes v v'
      .next { l with
        master := deliver bs l.master
        slaves := (l.slaves.map (deliver bs)).set n v' }
    | .fault f => .fault f
    | .refused r => .refused r

end Sys2Proof.Machine
end

