-- ==== Sys2Proof/Safety.lean ====
section
/-! DEFINITION. Sys2Proof/Safety.lean: the terms claims are stated in: the invariant of the block, what it means for a
part of the state to stay as it was, the feeding of bytes to a Responder, and when a frame holds the byte that ends
reception early (R233). -/

namespace Sys2Proof.Machine

/-! ### The invariant -/

/-- A legal instance whose identity is the one of its construction: `DEVTYPE` and `SRCADDR` are immutable (R21), and
`SLVADDR` is never 0 (R22). -/
abbrev State.identityInv (s : State) : Prop :=
  s.params.wf ∧ s.devtype = s.params.deviceTypeInit ∧ s.srcaddr = s.params.sourceAddressInit ∧ s.slvaddr ≠ 0

/-- Time is not negative (R8), no recorded read lies in the future (R130, R134), and the deadline of a master that waits
in `M_GATE` lies after the recorded read (R64, R132: by `P(b)`, and `P(b) > 0`). -/
abbrev State.timeInv (s : State) : Prop :=
  0 ≤ s.env.now ∧ 0 ≤ s.gdl ∧
    match s.lrt with
    | none => True
    | some t => 0 ≤ t ∧ t ≤ s.env.now ∧ (s.mphase = .gate → t < s.gdl)

/-- A transaction is in flight: the master left `M_IDLE` for an Execute, not for a call of GATE. -/
abbrev State.inFlight (s : State) : Prop :=
  s.mphase ≠ .idle ∧ s.env.gateCall = false

/-- The master sequencer (R30, R31, R140, R151): with `ROLE = SLAVE` it stays in `M_IDLE`; while a transaction is in
flight `TXBUF` is the encoding of `MCMD`; `M_ECHO` is entered only with `local_echo`, `M_READ` only by a GET. -/
abbrev State.masterInv (s : State) : Prop :=
  (s.params.role = .slave → s.mphase = .idle) ∧
  (s.env.gateCall = true → s.mphase = .gate) ∧
  (s.inFlight → encodeRequest s.params.delims (commandOf s.mcmd.cmd s.mcmd.height s.mcmd.angle) s.mcmd.das s.mcmd.dae
    s.devtype s.srcaddr = .ok s.txbuf) ∧
  (s.mphase = .echo → s.cfg.localEcho = true) ∧
  (s.mphase = .read → s.mcmd.cmd = .get) ∧
  (s.txbuf = [] ∨ 12 ≤ s.txbuf.length ∧ s.txbuf.length ≤ 21) ∧
  (s.mres.code.toNat ≤ 5 ∨ s.mres.code = .transportError)

/-- The Responder (R32, R33, R171, R173): `RXBUF` keeps its capacity, an accumulated ETX is the byte that ended
accumulation, and with `ROLE = MASTER` it never left reset. -/
abbrev State.responderInv (s : State) : Prop :=
  (s.params.role = .master → s.rphase = .accum ∧ s.rxbuf = []) ∧
  (match s.rphase with
    | .accum => s.rxbuf.length + 1 < s.params.rxMaxLen ∧ s.params.delims.etx ∉ s.rxbuf
    | .fcc => s.rxbuf.length < s.params.rxMaxLen ∧ s.rxbuf.getLast? = some s.params.delims.etx ∧
        s.params.delims.etx ∉ s.rxbuf.dropLast
    | .ready => s.rxbuf.length ≤ s.params.rxMaxLen ∧ 2 ≤ s.rxbuf.length) ∧
  (s.rstat.code = .ok ∨ s.rstat.code = .malformedFrame ∨ s.rstat.code = .rxOverflow)

/-- The invariant of the block. -/
abbrev State.Inv (s : State) : Prop :=
  s.identityInv ∧ s.timeInv ∧ s.masterInv ∧ s.responderInv

/-! ### What stays as it was -/

/-- The registers that both roles or the slave's host operations own: parameters and Device Identity (R21). -/
structure SameIdentity (s t : State) : Prop where
  params : t.params = s.params
  devtype : t.devtype = s.devtype
  srcaddr : t.srcaddr = s.srcaddr
  slvaddr : t.slvaddr = s.slvaddr

/-- The registers of the slave role but `SLVADDR` (R210): Blind State and Responder. -/
structure SameSlave (s t : State) : Prop where
  height : t.height = s.height
  angle : t.angle = s.angle
  rphase : t.rphase = s.rphase
  rxbuf : t.rxbuf = s.rxbuf
  rstat : t.rstat = s.rstat

/-- The registers of the master role (R210). -/
structure SameMaster (s t : State) : Prop where
  cfg : t.cfg = s.cfg
  lrt : t.lrt = s.lrt
  mphase : t.mphase = s.mphase
  mcmd : t.mcmd = s.mcmd
  gdl : t.gdl = s.gdl
  txbuf : t.txbuf = s.txbuf
  mres : t.mres = s.mres

/-- The line as the block left it: nothing written, read, opened or closed. -/
structure SameLine (s t : State) : Prop where
  inbound : t.env.inbound = s.env.inbound
  trace : t.env.trace = s.env.trace

/-- What only the outside changes: time, baud rate, the inputs still to come. -/
structure SameOutside (s t : State) : Prop where
  now : t.env.now = s.env.now
  baud : t.env.baud = s.env.baud
  inputs : t.env.inputs = s.env.inputs

/-! ### Bytes fed to a Responder -/

/-- The Responder receives `b` and, when that completes a candidate frame, responds (R170, R182). The byte comes from
the sequence and not from the inbound stream (log entry 23). -/
def hear (b : Byte) (s : State) : Host.Outcome State Fault Refusal :=
  match exec (.receive b) s with
  | .next t => if t.rphase = .ready then exec .respond t else .next t
  | .fault f => .fault f
  | .refused r => .refused r

/-- The Responder receives a byte sequence, oldest first. -/
def hearAll : List Byte → State → Host.Outcome State Fault Refusal
  | [], s => .next s
  | b :: bs, s =>
    match hear b s with
    | .next t => hearAll bs t
    | .fault f => .fault f
    | .refused r => .refused r

/-- A field of the frame has the value of ETX, which ends reception early (R233). -/
def carriesEtx (d : Config.Delims) (i : Instr) : Bool :=
  match i.fields? with
  | none => false
  | some fields => fields.contains d.etx

/-! ### Frames and steps -/

/-- The request frame of a command with its arguments, any control word (R71, R72). -/
def requestInstr (c : Command) (das dae cw sax sa : Byte) : Instr :=
  match c with
  | .stop => .stopRequest das dae cw sax sa
  | .set height angle => .setRequest das dae cw sax sa height angle
  | .get => .getRequest das dae cw sax sa

/-- The operation `i` is presented in the step at `s`, on a transport that works or fails. -/
def presents (s : State) (i : Instr) : Prop :=
  ∃ rest, s.env.inputs = .op i :: rest ∨ ∃ n, s.env.inputs = .opFails n i :: rest

/-- The step at `s` is the reset event. -/
def resets (s : State) : Prop :=
  presents s .reset

/-- The step at `s` is the block's own: nothing is presented, or the block is given its turn. -/
def ownTurn (s : State) : Prop :=
  s.env.inputs = [] ∨ ∃ k rest, s.env.inputs = .turn k :: rest ∨ ∃ n, s.env.inputs = .turnFails n k :: rest

/-- The step at `s` acts on the request frame `i`: RESPOND decodes it from `RXBUF`. -/
def actsOn (s : State) (i : Instr) : Prop :=
  s.params.role = .slave ∧ s.rphase = .ready ∧ (ownTurn s ∨ presents s .respond) ∧
    ∃ r, decodeFrame s.params.delims .req s.rxbuf = .ok r ∧ r.toInstr = i

/-- The wire bytes `w` at a field position carry the field value `v`: the byte itself, which is then no escape marker, or
the marker and the byte, whether or not it needs stuffing (R77, R85). -/
def Carries (v : Byte) (w : List Byte) : Prop :=
  (w = [v] ∧ v ≠ 0x10) ∨ w = [0x10, v]

/-- The host operation `i` asks a master in the state `s` for the transaction of `cmd` over `das..dae` (R140, R152 to
R154); `fields` are those of its request, stuffing aside (R71, R72, R87). -/
inductive Asks (s : State) : Instr → Cmd → Byte → Byte → List Byte → Prop where
  | execute (cmd : Cmd) (das dae h a : Byte) : Asks s (.execute cmd das dae h a) cmd das dae
      ([das, dae, controlWord cmd, s.devtype, s.srcaddr, tagOf cmd] ++ (if cmd = .set then [h, a] else []))
  | stop (das dae : Byte) : Asks s (.stop das dae) .stop das dae [das, dae, 0xC0, s.devtype, s.srcaddr, 0x84]
  | set (das dae : Byte) (h a : Option Byte) : Asks s (.set das dae h a) .set das dae
      [das, dae, 0xC0, s.devtype, s.srcaddr, 0x8F, h.getD 255, a.getD 255]
  | get (address : Byte) : Asks s (.get address) .get address address
      [address, address, 0x60, s.devtype, s.srcaddr, 0x55]

/-- What an accepted Execute leaves (R140 steps 1 to 3, R151 row 3): the operands latched, the request encoded, the
port opened if asked for, the baud rate read, the deadline set, and nothing else (bytes unread at the open stay, log
entry 24). -/
structure GateEntered (cmd : Cmd) (das dae : Byte) (frame : List Byte) (s t : State) : Prop where
  identity : SameIdentity s t
  slave : SameSlave s t
  cfg : t.cfg = s.cfg
  lrt : t.lrt = s.lrt
  mres : t.mres = s.mres
  mphase : t.mphase = .gate
  mcmd : t.mcmd.cmd = cmd ∧ t.mcmd.das = das ∧ t.mcmd.dae = dae
  txbuf : t.txbuf = frame
  gdl : t.gdl = match s.lrt with
    | none => s.env.now
    | some l => max s.env.now (l + 77 / (2 * (s.env.baud : Rat)))
  trace : t.env.trace =
    s.env.trace ++ (if s.cfg.closeAfterCall then [.opened] else []) ++ [.baud s.env.baud]
  inbound : t.env.inbound = s.env.inbound
  reports : t.env.reports = s.env.reports
  gateCall : t.env.gateCall = s.env.gateCall
  outside : SameOutside s t

/-- Steps taken from `g` with the master in `M_GATE` all the while. -/
inductive WaitsInGate : State → State → Prop where
  | here (g : State) : WaitsInGate g g
  | later {g u v : State} (h : WaitsInGate g u) (hs : step u = .next v) (hv : v.mphase = .gate) : WaitsInGate g v

end Sys2Proof.Machine
end

