-- ==== Sys2Proof/Certificates/Slice0/Obligations.lean ====
section
/-! DEFINITION. Sys2Proof/Certificates/Slice0/Obligations.lean: the statements about the block, from the numbered rules
of the spec. Each docstring names the rule; where a clause rests on a choice of the model it names the log entry. -/

open Sys2Proof Sys2Proof.Machine Sys2Proof.Config

/-! ### Codec -/

/-- 95_test_vectors.md sections 3.1 and 3.2, words written out byte by byte from R71 and R73: what each decodes to. -/
def Obligations.WrittenOutFramesDecode : Prop :=
  decodeInstr Delims.ascii .req [0x10, 0x02, 0x08, 0x01, 0x06, 0xC0, 0x20, 0x05, 0x84, 0x10, 0x03, 0x75] =
    .ok (.stopRequest 0x01 0x06 0xC0 0x20 0x05) ∧
  decodeInstr Delims.ascii .req [0x10, 0x02, 0x0A, 0x01, 0x06, 0xC0, 0x20, 0x05, 0x8F, 0x28, 0x4D, 0x10, 0x03, 0xF3] =
    .ok (.setRequest 0x01 0x06 0xC0 0x20 0x05 0x28 0x4D) ∧
  decodeInstr Delims.ascii .req [0x10, 0x02, 0x0A, 0x10, 0x10, 0x10, 0x10, 0x60, 0x20, 0x05, 0x55, 0x10, 0x03, 0xC9] =
    .ok (.getRequest 0x10 0x10 0x60 0x20 0x05) ∧
  decodeInstr Delims.ascii .rep [0x10, 0x02, 0x09, 0x05, 0x60, 0x30, 0x01, 0x55, 0x28, 0x4D, 0x10, 0x03, 0x84] =
    .ok (.getReply 0x05 0x60 0x30 0x01 0x28 0x4D)

/-- R108: the round trip of requests and of replies, and that the converse does not hold. -/
def Obligations.CodecRoundTrip : Prop :=
  (∀ (d : Delims) (c : Command) (das dae dt sa : Byte), das ≤ dae →
    ∃ f r, encodeRequest d c das dae dt sa = .ok f ∧ decodeFrame d .req f = .ok r ∧
      r.toInstr = requestInstr c das dae (controlWord c.cmd) dt sa ∧
      r.bc.toNat = f.length - 3 - (esc r.bc).length) ∧
  (∀ (d : Delims) (da t s h a : Byte), ∃ r, decodeFrame d .rep (encodeReply d da t s h a) = .ok r ∧
    r.toInstr = .getReply da 0x60 t s h a) ∧
  (∃ raw r, decodeFrame Delims.ascii .req raw = .ok r ∧
    ∀ (c : Command) (das dae dt sa : Byte), encodeRequest Delims.ascii c das dae dt sa ≠ .ok raw)

/-- Decode of encode, for every wire-frame row, every value of every field (any control word, any range) and any bytes
after the frame (R71, R73, R76 to R81, D9). -/
def Obligations.FrameInstructionsRoundTrip : Prop :=
  ∀ (d : Delims) (i : Instr) (dir : Dir) (f tail : List Byte),
    i.dir? = some dir → encode d i = some f → decodeInstr d dir (f ++ tail) = .ok i

/-- R76, R78, R79, R81: the frame of a field list. The payload is each field in order, doubled when it is 0x10; BC is
`len(payload) + 2`, wire bytes after stuffing, and is itself stuffed when it is 0x10; BC counts neither the header, nor
its own field, nor the FCC; the bytes from BC through FCC sum to 0 modulo 256; the FCC is one byte. -/
def Obligations.EncodedFrameShape : Prop :=
  ∀ (d : Delims) (i : Instr) (fields f : List Byte), i.fields? = some fields → encode d i = some f →
    ∃ (bc fcc : Byte) (bcField payload : List Byte),
      payload = fields.flatMap (fun v => if v = 0x10 then [0x10, 0x10] else [v]) ∧
      bc.toNat = payload.length + 2 ∧
      bcField = (if bc = 0x10 then [0x10, 0x10] else [bc]) ∧
      f = [0x10, d.stx] ++ bcField ++ payload ++ [0x10, d.etx] ++ [fcc] ∧
      f.length = 2 + bcField.length + bc.toNat + 1 ∧
      sumBytes (f.drop 2) % 256 = 0

/-- R82 and R83: the wire lengths of the frames the block encodes, and that BC itself is stuffed only for a SET whose
six free fields are all 0x10. -/
def Obligations.WireLengthRanges : Prop :=
  ∀ (d : Delims) (das dae dt sa h a : Byte) (f : List Byte),
    ((encodeRequest d .stop das dae dt sa = .ok f ∨ encodeRequest d .get das dae dt sa = .ok f) →
      12 ≤ f.length ∧ f.length ≤ 16) ∧
    (encodeRequest d (.set h a) das dae dt sa = .ok f →
      14 ≤ f.length ∧ f.length ≤ 21 ∧ f.length ≠ 20 ∧
      (f.length = 21 ↔ das = 0x10 ∧ dae = 0x10 ∧ dt = 0x10 ∧ sa = 0x10 ∧ h = 0x10 ∧ a = 0x10)) ∧
    (encodeReply d das dt sa h a = f → 13 ≤ f.length ∧ f.length ≤ 18)

/-- R103, R104, R77, R84, R85: what DECODE accepts, and with what record. Header at indices 0 and 1; BC of at least 6; the
fields of the record in layout order, the tag of its command in the CMD position, each carried by its byte or by an
escape marker and its byte; the terminator where the fields end, `BC - 2` bytes after the BC field; an FCC that makes
the sum 0; any bytes after it. Nothing else is accepted, so an input with any of the defects of R84 is rejected, a CMD
outside the tags of its direction included; and every such input is accepted, needless stuffing (R85) included. -/
def Obligations.DecodeAcceptsExactlyFrames : Prop :=
  ∀ (d : Delims) (dir : Dir) (raw : List Byte) (r : Record),
    decodeFrame d dir raw = .ok r ↔
      r.dir = dir ∧ 6 ≤ r.bc.toNat ∧
      ∃ (bcField tail : List Byte) (fieldBytes : List (List Byte)) (fcc : Byte),
        raw = [0x10, d.stx] ++ bcField ++ fieldBytes.flatten ++ [0x10, d.etx, fcc] ++ tail ∧
        Carries r.bc bcField ∧
        List.Forall₂ Carries
          (match r with
            | .stop _ das dae cw sax sa => [das, dae, cw, sax, sa, 0x84]
            | .set _ das dae cw sax sa height angle => [das, dae, cw, sax, sa, 0x8F, height, angle]
            | .get _ das dae cw sax sa => [das, dae, cw, sax, sa, 0x55]
            | .reply _ da cw sax sa height angle => [da, cw, sax, sa, 0x55, height, angle])
          fieldBytes ∧
        r.bc.toNat = fieldBytes.flatten.length + 2 ∧
        (sumBytes (bcField ++ fieldBytes.flatten ++ [0x10, d.etx]) + fcc.toNat) % 256 = 0

/-- R107: bytes after the FCC do not affect the result. -/
def Obligations.DecodeIgnoresBytesAfterFcc : Prop :=
  ∀ (d : Delims) (dir : Dir) (raw tail : List Byte) (r : Record),
    decodeFrame d dir raw = .ok r → decodeFrame d dir (raw ++ tail) = .ok r

/-- R110: a request never decodes as a reply nor a reply as a request, whatever follows; the sub-cause is COMMAND or
TERMINATOR. -/
def Obligations.CrossDirectionNeverDecodes : Prop :=
  ∀ (d : Delims) (i : Instr) (f tail : List Byte), d.wf → encode d i = some f →
    (i.dir? = some .req → decodeFrame d .rep (f ++ tail) = .error .command ∨
      decodeFrame d .rep (f ++ tail) = .error .terminator) ∧
    (i.dir? = some .rep → decodeFrame d .req (f ++ tail) = .error .command ∨
      decodeFrame d .req (f ++ tail) = .error .terminator)

/-- R244: no input with BC < 8 decodes under `REQ`, none with BC < 9 under `REP`. -/
def Obligations.ByteCountFloorIsNotTight : Prop :=
  ∀ (d : Delims) (raw : List Byte) (r : Record),
    (decodeFrame d .req raw = .ok r → 8 ≤ r.bc.toNat) ∧ (decodeFrame d .rep raw = .ok r → 9 ≤ r.bc.toNat)

/-- R100 as an operation: the frame of the pseudocode, or `InvalidAddressRange` before anything is built; no register
is written. -/
def Obligations.EncodeReturnsFrameOrRangeFailure : Prop :=
  ∀ (c : Command) (das dae dt sa : Byte) (s : State),
    (das ≤ dae →
      exec (.encode c das dae dt sa) s = .next { s with env := { s.env with
        reports := s.env.reports ++ [.frame (frameOf s.params.delims
          ([das, dae, controlWord c.cmd, dt, sa, tagOf c.cmd] ++ c.args))] } }) ∧
    (dae < das →
      exec (.encode c das dae dt sa) s = .next { s with env := { s.env with
        reports := s.env.reports ++ [.failed (.invalidAddressRange das dae)] } })

/-- R102 as an operation: it always returns the frame of the fields `da, 0x60, device type, source address, 0x55,
height, angle`; no register is written. -/
def Obligations.EncodeReplyReturnsFrame : Prop :=
  ∀ (da dt sa h a : Byte) (s : State),
    exec (.encodeReply da dt sa h a) s = .next { s with env := { s.env with
      reports := s.env.reports ++ [.frame (frameOf s.params.delims [da, 0x60, dt, sa, 0x55, h, a])] } }

/-- R103, R106, R85 and R107 as an operation: whatever input is accepted, canonical or not, its record goes to the caller;
every other outcome is `MalformedFrame` with its sub-cause; no register is written either way. On the frame of an
instruction, with any bytes after it, the record is that instruction's. -/
def Obligations.DecodeReturnsRecord : Prop :=
  ∀ (s : State),
    (∀ (raw : List Byte) (dir : Dir) (r : Record), decodeFrame s.params.delims dir raw = .ok r →
      exec (.decode raw dir) s = .next { s with env := { s.env with
        reports := s.env.reports ++ [.decoded r] } }) ∧
    (∀ (raw : List Byte) (dir : Dir) (c : SubCause), decodeFrame s.params.delims dir raw = .error c →
      exec (.decode raw dir) s = .next { s with env := { s.env with
        reports := s.env.reports ++ [.failed (.malformedFrame c)] } }) ∧
    (∀ (i : Instr) (dir : Dir) (f tail : List Byte), i.dir? = some dir → encode s.params.delims i = some f →
      ∃ r, r.toInstr = i ∧ exec (.decode (f ++ tail) dir) s = .next { s with env := { s.env with
        reports := s.env.reports ++ [.decoded r] } })

/-! ### Timing Gate -/

/-- R132, R131, R135: GATE at a positive baud rate sets `GDL` to `max(t0, t + 77/(2b))`, or to `t0` before any read, and
leaves `LRT` and every other register but the phase. That a call of GATE by itself waits in `M_GATE`, marked by
`gateCall`, is the model's choice (log entry 9). -/
def Obligations.GateSetsDeadline : Prop :=
  ∀ (s : State), s.params.role = .master → s.mphase = .idle → 0 < s.env.baud →
    exec .gate s = .next { s with
      mphase := .gate
      gdl := match s.lrt with
        | none => s.env.now
        | some l => max s.env.now (l + 77 / (2 * (s.env.baud : Rat)))
      env := { s.env with trace := s.env.trace ++ [.baud s.env.baud], gateCall := true } }

/-- R132: a caller of GATE stays blocked while `Now() < GDL`, and is returned ok at the first turn at or after it;
nothing is written. The representation of the blocked call is the model's (log entry 9). -/
def Obligations.GateBlocksThenReturns : Prop :=
  ∀ (k : Nat) (s : State), s.params.role = .master → s.mphase = .gate → s.env.gateCall = true →
    (s.env.now < s.gdl → turn k s = .next s) ∧
    (s.gdl ≤ s.env.now → turn k s = .next { s with
      mphase := .idle
      env := { s.env with gateCall := false, reports := s.env.reports ++ [.ok] } })

/-- R133: the baud test is made whether or not a read was recorded, before any wait; nothing is written to the line. -/
def Obligations.GateRejectsNonPositiveBaud : Prop :=
  ∀ (s : State), s.params.role = .master → s.mphase = .idle → s.env.baud ≤ 0 →
    ∃ t, exec .gate s = .next t ∧ t.mphase = .idle ∧ t.gdl = s.gdl ∧ t.lrt = s.lrt ∧ t.txbuf = s.txbuf ∧
      t.mres = { s.mres with code := .invalidBaudRate } ∧ outbound t = outbound s ∧
      t.env.inbound = s.env.inbound ∧ t.env.now = s.env.now ∧
      t.env.reports = s.env.reports ++ [.failed (.invalidBaudRate s.env.baud)] ∧
      SameIdentity s t ∧ SameSlave s t ∧ t.cfg = s.cfg ∧ t.mcmd = s.mcmd

/-- R134: `LRT <- some Now()`, whatever `LRT` was, and nothing else. That GATE_RECORD called by itself is taken in `M_IDLE`
is the model's choice (log entry 10). -/
def Obligations.GateRecordOverwritesLrt : Prop :=
  ∀ (s : State), s.params.role = .master → s.mphase = .idle → exec .gateRecord s = .next { s with lrt := some s.env.now }

/-- R136: a write that follows the acceptance of a transaction, by EXECUTE, STOP, SET or GET, through any number of steps
that leave the master waiting in `M_GATE`, happens no earlier than `t + 77/(2b)`, `t` the recorded read and `b` the baud
rate at acceptance, and is the request. The reason, step by step: while the master stays in `M_GATE`, `LRT`, `GDL`,
`TXBUF`, `MCMD` and `CFG` stay as they are; so `LRT` is still `some t` when the write is made (R64). -/
def Obligations.SilentPeriodHeldBeforeWrite : Prop :=
  (∀ (i : Instr) (cmd : Cmd) (das dae : Byte) (fields : List Byte) (s g u v : State) (l at_ : Time) (bs : List Byte)
      (new : List TEvent),
    Asks s i cmd das dae fields →
    s.params.role = .master → s.mphase = .idle → s.env.gateCall = false → s.lrt = some l → 0 < s.env.baud →
    exec i s = .next g → g.mphase = .gate → WaitsInGate g u → step u = .next v →
    v.env.trace = u.env.trace ++ new → TEvent.wrote at_ bs ∈ new →
    l + 77 / (2 * (s.env.baud : Rat)) ≤ at_ ∧ u.lrt = some l ∧ v.lrt = some l ∧ bs = frameOf s.params.delims fields) ∧
  (∀ u v : State, step u = .next v → u.mphase = .gate → v.mphase = .gate →
    v.lrt = u.lrt ∧ v.gdl = u.gdl ∧ v.txbuf = u.txbuf ∧ v.mcmd = u.mcmd ∧ v.cfg = u.cfg)

/-- R143, R144, R151: in the master role every write of any step is the whole of `TXBUF`, made in `M_GATE` by a
transaction, at a time not before `GDL`. -/
def Obligations.MasterWritesOnlyAtOpenGate : Prop :=
  ∀ (s t : State), s.params.role = .master → step s = .next t →
    ∃ new, t.env.trace = s.env.trace ++ new ∧
      ∀ at_ bs, TEvent.wrote at_ bs ∈ new →
        s.mphase = .gate ∧ s.env.gateCall = false ∧ at_ = s.env.now ∧ s.gdl ≤ at_ ∧ bs = s.txbuf

/-! ### Transaction Engine -/

/-- R140 to R143, R150, R151 row 3: an accepted Execute with a valid range and a positive baud rate. Bytes unread at
an open or close of the port stay unread by the model's choice (log entry 24). -/
def Obligations.ExecuteEntersGate : Prop :=
  ∀ (cmd : Cmd) (das dae h a : Byte) (s : State),
    s.params.role = .master → s.mphase = .idle → das ≤ dae → 0 < s.env.baud →
    ∃ t, exec (.execute cmd das dae h a) s = .next t ∧
      GateEntered cmd das dae (frameOf s.params.delims
        ([das, dae, controlWord cmd, s.devtype, s.srcaddr, tagOf cmd] ++ (if cmd = .set then [h, a] else []))) s t ∧
      t.mcmd = { cmd := cmd, das := das, dae := dae, height := h, angle := a }

/-- R152, R153, R154: STOP, SET and GET enter the gate with the frame of their row; an omitted argument of SET is 255
(R87); GET sends its address as DAS and DAE. Bytes unread at an open or close of the port stay unread by the model's
choice (log entry 24). -/
def Obligations.HostCommandsEnterGate : Prop :=
  ∀ (s : State), s.params.role = .master → s.mphase = .idle → 0 < s.env.baud →
    (∀ das dae : Byte, das ≤ dae → ∃ t, exec (.stop das dae) s = .next t ∧
      GateEntered .stop das dae (frameOf s.params.delims [das, dae, 0xC0, s.devtype, s.srcaddr, 0x84]) s t) ∧
    (∀ (das dae : Byte) (h a : Option Byte), das ≤ dae → ∃ t, exec (.set das dae h a) s = .next t ∧
      GateEntered .set das dae (frameOf s.params.delims
        [das, dae, 0xC0, s.devtype, s.srcaddr, 0x8F, h.getD 255, a.getD 255]) s t ∧
      t.mcmd.height = h.getD 255 ∧ t.mcmd.angle = a.getD 255) ∧
    (∀ addr : Byte, ∃ t, exec (.get addr) s = .next t ∧
      GateEntered .get addr addr (frameOf s.params.delims [addr, addr, 0x60, s.devtype, s.srcaddr, 0x55]) s t)

/-- R140: an Execute, in any of its four forms, that is not accepted is refused with `WrongRole` when `ROLE = SLAVE`,
else with `Busy`; it changes no state at all and reports the refusal. -/
def Obligations.ExecuteRefusedChangesNothing : Prop :=
  ∀ (i : Instr) (s : State),
    ((∃ cmd das dae h a, i = .execute cmd das dae h a) ∨ (∃ das dae, i = .stop das dae) ∨
      (∃ das dae h a, i = .set das dae h a) ∨ (∃ addr, i = .get addr)) →
    (s.params.role = .slave → exec i s = .next { s with env := { s.env with
      reports := s.env.reports ++ [.refused .wrongRole] } }) ∧
    (s.params.role = .master → s.mphase ≠ .idle → exec i s = .next { s with env := { s.env with
      reports := s.env.reports ++ [.refused .busy] } })

/-- R141: with `das > dae` the transaction fails with `InvalidAddressRange` before anything is encoded, opened, waited
for or written, for Execute, STOP and SET; `TXBUF` and `LRT` are unchanged. -/
def Obligations.InvertedRangeFailsBeforeTheLine : Prop :=
  ∀ (i : Instr) (das dae : Byte) (s : State),
    ((∃ cmd h a, i = .execute cmd das dae h a) ∨ i = .stop das dae ∨ (∃ h a, i = .set das dae h a)) →
    s.params.role = .master → s.mphase = .idle → dae < das →
    ∃ t, exec i s = .next t ∧ t.mphase = .idle ∧ t.mres = { s.mres with code := .invalidAddressRange } ∧
      t.txbuf = s.txbuf ∧ t.lrt = s.lrt ∧ t.gdl = s.gdl ∧ t.cfg = s.cfg ∧ SameLine s t ∧ SameOutside s t ∧
      SameIdentity s t ∧ SameSlave s t ∧
      t.env.reports = s.env.reports ++ [.failed (.invalidAddressRange das dae)]

/-- R151 row 2, R133, R150, R152 to R154: with a non-positive baud rate EXECUTE, STOP, SET and GET encode, open and
close the port if asked for, and fail; nothing is written to the line. Bytes unread at an open or close of the port
stay unread by the model's choice (log entry 24). -/
def Obligations.NonPositiveBaudFailsBeforeWriting : Prop :=
  ∀ (i : Instr) (cmd : Cmd) (das dae : Byte) (fields : List Byte) (s : State), Asks s i cmd das dae fields →
    s.params.role = .master → s.mphase = .idle → das ≤ dae → s.env.baud ≤ 0 →
    ∃ t, exec i s = .next t ∧ t.mphase = .idle ∧
      t.mres = { s.mres with code := .invalidBaudRate } ∧
      t.mcmd.cmd = cmd ∧ t.mcmd.das = das ∧ t.mcmd.dae = dae ∧
      t.txbuf = frameOf s.params.delims fields ∧
      t.env.trace = s.env.trace ++ (if s.cfg.closeAfterCall then [.opened] else []) ++ [.baud s.env.baud] ++
        (if s.cfg.closeAfterCall then [.closed] else []) ∧
      outbound t = outbound s ∧ t.env.inbound = s.env.inbound ∧ t.lrt = s.lrt ∧ t.cfg = s.cfg ∧ t.gdl = s.gdl ∧
      SameOutside s t ∧ SameIdentity s t ∧ SameSlave s t ∧
      t.env.reports = s.env.reports ++ [.failed (.invalidBaudRate s.env.baud)]

/-- R143, R144, R151 rows 4 to 6: a transaction in `M_GATE` waits while `Now() < GDL`; then it writes `TXBUF` in one
call and goes to `M_ECHO`, to `M_READ`, or is done. Bytes unread at an open or close of the port stay unread by the
model's choice (log entry 24). -/
def Obligations.OpenGateWritesRequest : Prop :=
  ∀ (k : Nat) (s : State), s.params.role = .master → s.mphase = .gate → s.env.gateCall = false →
    (s.env.now < s.gdl → turn k s = .next s) ∧
    (s.gdl ≤ s.env.now →
      (s.cfg.localEcho = true → turn k s = .next { s with
        mphase := .echo
        env := { s.env with trace := s.env.trace ++ [.wrote s.env.now s.txbuf] } }) ∧
      (s.cfg.localEcho = false → s.mcmd.cmd = .get → turn k s = .next { s with
        mphase := .read
        env := { s.env with trace := s.env.trace ++ [.wrote s.env.now s.txbuf] } }) ∧
      (s.cfg.localEcho = false → s.mcmd.cmd ≠ .get → turn k s = .next { s with
        mphase := .idle
        mres := { s.mres with code := .ok }
        env := { s.env with
          trace := s.env.trace ++ [.wrote s.env.now s.txbuf] ++ (if s.cfg.closeAfterCall then [.closed] else [])
          reports := s.env.reports ++ [.completed none] } }))

/-- R145, R151 rows 7 to 9: the echo read is one read of `len(TXBUF)` bytes; any difference, a short or empty read
included, is `LocalEchoMismatch`; `LRT` is not updated. Bytes unread at an open or close of the port stay unread by
the model's choice (log entry 24). -/
def Obligations.EchoReadComparesRequest : Prop :=
  ∀ (k : Nat) (s : State), s.params.role = .master → s.mphase = .echo →
    ∃ t, turn k s = .next t ∧ t.lrt = s.lrt ∧ t.txbuf = s.txbuf ∧ t.cfg = s.cfg ∧ t.mcmd = s.mcmd ∧ t.gdl = s.gdl ∧
      SameIdentity s t ∧ SameSlave s t ∧ SameOutside s t ∧ outbound t = outbound s ∧
      t.env.inbound = s.env.inbound.drop (min k s.txbuf.length) ∧
      t.mres.height = s.mres.height ∧ t.mres.angle = s.mres.angle ∧
      (s.env.inbound.take (min k s.txbuf.length) ≠ s.txbuf →
        t.mphase = .idle ∧ t.mres.code = .localEchoMismatch ∧
        t.env.reports = s.env.reports ++ [.failed .localEchoMismatch] ∧
        t.env.trace = s.env.trace ++ [.read s.txbuf.length (s.env.inbound.take (min k s.txbuf.length))] ++
          (if s.cfg.closeAfterCall then [.closed] else [])) ∧
      (s.env.inbound.take (min k s.txbuf.length) = s.txbuf → s.mcmd.cmd = .get →
        t.mphase = .read ∧ t.mres.code = s.mres.code ∧ t.env.reports = s.env.reports ∧
        t.env.trace = s.env.trace ++ [.read s.txbuf.length (s.env.inbound.take (min k s.txbuf.length))]) ∧
      (s.env.inbound.take (min k s.txbuf.length) = s.txbuf → s.mcmd.cmd ≠ .get →
        t.mphase = .idle ∧ t.mres.code = .ok ∧ t.env.reports = s.env.reports ++ [.completed none] ∧
        t.env.trace = s.env.trace ++ [.read s.txbuf.length (s.env.inbound.take (min k s.txbuf.length))] ++
          (if s.cfg.closeAfterCall then [.closed] else []))

/-- R146, R147, R148, R151 rows 10 to 12: one read of `RESP_WINDOW` bytes. Nothing: `NoResponse`, `LRT` as it was.
Some bytes: `LRT <- some Now()` before DECODE, then `MalformedFrame` with the old height and angle, or the reply's.
Bytes unread at an open or close of the port stay unread by the model's choice (log entry 24). -/
def Obligations.ResponseReadEndsGet : Prop :=
  ∀ (k : Nat) (s : State), s.params.role = .master → s.mphase = .read →
    ∃ t, turn k s = .next t ∧ t.mphase = .idle ∧ t.txbuf = s.txbuf ∧ t.cfg = s.cfg ∧ t.mcmd = s.mcmd ∧ t.gdl = s.gdl ∧
      SameIdentity s t ∧ SameSlave s t ∧ SameOutside s t ∧ outbound t = outbound s ∧
      t.env.inbound = s.env.inbound.drop (min k s.params.respWindow) ∧
      t.env.trace = s.env.trace ++ [.read s.params.respWindow (s.env.inbound.take (min k s.params.respWindow))] ++
        (if s.cfg.closeAfterCall then [.closed] else []) ∧
      (s.env.inbound.take (min k s.params.respWindow) = [] →
        t.lrt = s.lrt ∧ t.mres = { s.mres with code := .noResponse } ∧
        t.env.reports = s.env.reports ++ [.failed .noResponse]) ∧
      (s.env.inbound.take (min k s.params.respWindow) ≠ [] → t.lrt = some s.env.now ∧
        (∀ c, decodeFrame s.params.delims .rep (s.env.inbound.take (min k s.params.respWindow)) = .error c →
          t.mres = { s.mres with code := .malformedFrame } ∧
          t.env.reports = s.env.reports ++ [.failed (.malformedFrame c)]) ∧
        (∀ bc da cw sax sa h a,
          decodeFrame s.params.delims .rep (s.env.inbound.take (min k s.params.respWindow)) =
            .ok (.reply bc da cw sax sa h a) →
          t.mres = { code := .ok, height := h, angle := a } ∧
          t.env.reports = s.env.reports ++ [.completed (some (h, a))]))

/-- R148, R147, R151 row 12: a decoded reply in `M_READ` ends the GET with its height and angle and records the time;
nothing else in it is looked at (D36). Bytes unread at an open or close of the port stay unread by the model's choice
(log entry 24). -/
def Obligations.ReplyFrameCompletesGet : Prop :=
  ∀ (da cw sax sa h a : Byte) (s : State), s.params.role = .master → s.mphase = .read →
    exec (.getReply da cw sax sa h a) s = .next { s with
      lrt := some s.env.now
      mphase := .idle
      mres := { code := .ok, height := h, angle := a }
      env := { s.env with
        trace := s.env.trace ++ (if s.cfg.closeAfterCall then [.closed] else [])
        reports := s.env.reports ++ [.completed (some (h, a))] } }

/-- A frame at the station it is not meant for. A slave that has a reply in hand rejects it (R110, R212). A master
waiting for a response that has a request in hand fails its GET with COMMAND or TERMINATOR and records the time (R110,
R147, R148, R236). In any other phase a master that has a frame in hand does nothing with it; that is the model's
choice (log entry 11). Bytes unread at an open or close of the port stay unread by the model's choice (log entry 24). -/
def Obligations.FrameAtTheOtherStation : Prop :=
  (∀ (da cw sax sa h a : Byte) (s : State), s.params.role = .slave →
    exec (.getReply da cw sax sa h a) s = .next { s with rstat := { s.rstat with code := .malformedFrame } }) ∧
  (∀ (i : Instr) (s : State), i.dir? ≠ none → s.params.role = .master → s.mphase ≠ .read → exec i s = .next s) ∧
  (∀ (i : Instr) (s : State), i.dir? = some .req → s.params.role = .master → s.mphase = .read → s.params.delims.wf →
    ∃ t c, exec i s = .next t ∧ (c = .command ∨ c = .terminator) ∧ t.mphase = .idle ∧
      t.mres = { s.mres with code := .malformedFrame } ∧ t.env.reports = s.env.reports ++ [.failed (.malformedFrame c)] ∧
      t.env.inbound = s.env.inbound ∧ outbound t = outbound s ∧ t.lrt = some s.env.now ∧ t.cfg = s.cfg ∧
      t.mcmd = s.mcmd ∧ t.gdl = s.gdl ∧ t.txbuf = s.txbuf ∧ SameIdentity s t ∧ SameSlave s t ∧ SameOutside s t)

/-- R156, R208, R209: a step that reports a failure leaves `CFG`, the Device Identity, `MRES.height`, `MRES.angle` and
the Blind State, and moves `LRT` only for `MalformedFrame`; the sequencer is idle unless a codec operation, which
touches no register, raised it. -/
def Obligations.FailureKeepsResultsAndSettings : Prop :=
  ∀ (s t : State) (f : Failure), step s = .next t → t.env.reports = s.env.reports ++ [.failed f] →
    t.cfg = s.cfg ∧ SameIdentity s t ∧ t.mres.height = s.mres.height ∧ t.mres.angle = s.mres.angle ∧
    t.height = s.height ∧ t.angle = s.angle ∧
    (t.lrt ≠ s.lrt → ∃ c, f = .malformedFrame c) ∧
    (t.mphase = .idle ∧ t.mres.code = failureCode f ∨ SameMaster s t)

/-- R30, R151: a step moves `MPHASE` only forward in the order `M_IDLE`, `M_GATE`, `M_ECHO`, `M_READ`, or back to
`M_IDLE`. -/
def Obligations.PhaseMovesOnlyForward : Prop :=
  ∀ (s t : State), step s = .next t → t.mphase ≠ s.mphase →
    t.mphase = .idle ∨ (s.mphase = .idle ∧ t.mphase = .gate) ∨
    (s.mphase = .gate ∧ (t.mphase = .echo ∨ t.mphase = .read)) ∨ (s.mphase = .echo ∧ t.mphase = .read)

/-- R29, R147: `LRT` is written only by a call of GATE_RECORD in `M_IDLE` (log entry 10), by a response read that
returned a byte, or by reset. -/
def Obligations.LrtWrittenOnlyByRecordedReads : Prop :=
  ∀ (s t : State), step s = .next t → t.lrt ≠ s.lrt →
    resets s ∨ (t.lrt = some s.env.now ∧ s.params.role = .master ∧
      (presents s .gateRecord ∧ s.mphase = .idle ∨
        (s.mphase = .read ∧ ownTurn s ∧
          ∃ bs, bs ≠ [] ∧ TEvent.read s.params.respWindow bs ∈ t.env.trace.drop s.env.trace.length)))

/-- R60, R145, R146, R171: which reads the block makes: one byte at the slave, `len(TXBUF)` in `M_ECHO`, `RESP_WINDOW`
in `M_READ`; a STOP or SET without echo makes none. What is left unread is not said of a step in which a transport
call fails (U6). Bytes unread at an open or close of the port stay unread by the model's choice (log entry 24). -/
def Obligations.ReadsOnlyWhereTheRulesRead : Prop :=
  ∀ (s t : State), step s = .next t →
    ∃ new, t.env.trace = s.env.trace ++ new ∧
      ∀ n bs, TEvent.read n bs ∈ new → bs.length ≤ n ∧
        bs <+: s.env.inbound ∧
        (s.env.inbound = bs ++ t.env.inbound ∨ ∃ sent, TEvent.broken sent ∈ new) ∧
        ((s.params.role = .slave ∧ s.rphase ≠ .ready ∧ n = 1) ∨
          (s.params.role = .master ∧ s.mphase = .echo ∧ n = s.txbuf.length) ∨
          (s.params.role = .master ∧ s.mphase = .read ∧ n = s.params.respWindow))

/-- R28, R234: a write of `CFG` in `M_IDLE` sets both bits, else it is refused with `Busy`; so the bits are constant over
a transaction, but for a reset. -/
def Obligations.CfgConstantOverTransaction : Prop :=
  (∀ (v : BitVec 2) (s : State) (rest : List Input), s.env.inputs = .writeCfg v :: rest →
    (s.mphase = .idle → ∃ t, step s = .next t ∧
      t.cfg = { localEcho := v.getLsbD 0, closeAfterCall := v.getLsbD 1 } ∧ cfgBits t.cfg = v) ∧
    (s.mphase ≠ .idle → ∃ t, step s = .next t ∧ t.env.reports = s.env.reports ++ [.refused .busy] ∧
      SameMaster s t ∧ SameIdentity s t ∧ SameSlave s t)) ∧
  (∀ (s t : State), step s = .next t → s.mphase ≠ .idle → ¬ resets s → t.cfg = s.cfg)

/-- R154, R144, R146 to R148 together: a GET whose reply arrives whole ends, in five steps, with the reply's height and
angle in `MRES`, the request written once, and the time of the read in `LRT`. -/
def Obligations.GetTransactionReturnsReply : Prop :=
  ∀ (s : State) (addr da dt sa h a : Byte) (t1 : Time) (k n : Nat),
    s.params.role = .master → s.mphase = .idle → s.env.gateCall = false → s.cfg.localEcho = false →
    0 < s.env.baud → 18 ≤ s.params.respWindow → s.env.inbound = [] → s.env.now ≤ t1 →
    (∀ l, s.lrt = some l → l + 77 / (2 * (s.env.baud : Rat)) ≤ t1) →
    (encodeReply s.params.delims da dt sa h a).length ≤ n →
    s.env.inputs = [.op (.get addr), .clock t1, .turn k,
      .arrive (encodeReply s.params.delims da dt sa h a), .turn n] →
    ∃ t, Sys2Proof.core.run 5 s = .next t ∧ t.mphase = .idle ∧
      t.mres = { code := .ok, height := h, angle := a } ∧ t.lrt = some t1 ∧ t.env.inbound = [] ∧
      outbound t = outbound s ++ frameOf s.params.delims [addr, addr, 0x60, s.devtype, s.srcaddr, 0x55] ∧
      t.env.reports = s.env.reports ++ [.completed (some (h, a))]

/-! ### Responder -/

/-- R182: the rows of `RPHASE`, each one step, enabled only when `ROLE = SLAVE` (R171, R173). That a step which is not
enabled leaves the state as it is, is the model's choice (log entry 11), and so is a RECEIVE presented by itself, which
brings its own byte (log entry 23). -/
def Obligations.ReceiveAccumulatesToEtxPlusOne : Prop :=
  ∀ (b : Byte) (k : Nat) (s : State),
    (s.params.role = .master → exec (.receive b) s = .next s ∧ exec .respond s = .next s) ∧
    (s.params.role = .slave →
      (s.rphase = .accum → b = s.params.delims.etx →
        exec (.receive b) s = .next { s with rxbuf := s.rxbuf ++ [b], rphase := .fcc }) ∧
      (s.rphase = .accum → b ≠ s.params.delims.etx → s.rxbuf.length + 1 < s.params.rxMaxLen - 1 →
        exec (.receive b) s = .next { s with rxbuf := s.rxbuf ++ [b] }) ∧
      (s.rphase = .accum → b ≠ s.params.delims.etx → s.params.rxMaxLen - 1 ≤ s.rxbuf.length + 1 →
        exec (.receive b) s = .next { s with rxbuf := [], rstat := { s.rstat with code := .rxOverflow } }) ∧
      (s.rphase = .fcc → exec (.receive b) s = .next { s with rxbuf := s.rxbuf ++ [b], rphase := .ready }) ∧
      (s.rphase = .ready → turn k s = exec .respond s ∧ ∃ t, exec .respond s = .next t ∧ t.rphase = .accum))

/-- R172: a read that returns no byte changes nothing; a read that returns one is `RxByte` of it. -/
def Obligations.EmptyReadChangesNothing : Prop :=
  ∀ (k : Nat) (s : State), s.params.role = .slave → s.rphase ≠ .ready →
    (s.env.inbound = [] ∨ k = 0 → ∃ t, turn k s = .next t ∧ SameIdentity s t ∧ SameSlave s t ∧ SameMaster s t ∧
      t.env.inbound = s.env.inbound ∧ outbound t = outbound s) ∧
    (∀ b rest, s.env.inbound = b :: rest → k ≠ 0 →
      turn k s = exec (.receive b) { s with env := { s.env with
        inbound := rest, trace := s.env.trace ++ [.read 1 [b]] } })

/-- R175: what RESPOND does with the request it decodes: it empties `RXBUF`, goes back to `R_ACCUM`, records the command
and reads nothing from the line. -/
def Obligations.RespondRecordsDecodedRequest : Prop :=
  ∀ (s : State) (r : Record), s.params.role = .slave → s.rphase = .ready →
    decodeFrame s.params.delims .req s.rxbuf = .ok r →
    ∃ t c, exec .respond s = .next t ∧ r.tag = tagOf c ∧ t.rxbuf = [] ∧ t.rphase = .accum ∧
      t.rstat = { code := .ok, lastCmd := some c } ∧ SameIdentity s t ∧ SameMaster s t ∧
      t.env.inbound = s.env.inbound ∧ exec .respond s = exec r.toInstr { s with rxbuf := [], rphase := .accum }

/-- R176: a request that fails DECODE has no effect beyond `RSTAT.code <- MalformedFrame`; `RXBUF` is emptied and
reception resumes. -/
def Obligations.MalformedRequestHasNoEffect : Prop :=
  ∀ (s : State) (c : SubCause), s.params.role = .slave → s.rphase = .ready →
    decodeFrame s.params.delims .req s.rxbuf = .error c →
    exec .respond s = .next { s with
      rxbuf := [], rphase := .accum, rstat := { s.rstat with code := .malformedFrame } }

/-- Where an operation of one role is presented out of its role or phase (R137, R170, R171, R175, R210): RECEIVE and
RESPOND are not enabled, and nothing changes (log entry 11); GATE and GATE_RECORD are refused and change nothing (log
entries 9 and 10). -/
def Obligations.OperationOutOfItsRoleOrPhase : Prop :=
  (∀ (b : Byte) (s : State), s.params.role = .master ∨ s.rphase = .ready → exec (.receive b) s = .next s) ∧
  (∀ (s : State), s.params.role = .master ∨ s.rphase ≠ .ready → exec .respond s = .next s) ∧
  (∀ (i : Instr) (s : State), i = .gate ∨ i = .gateRecord → s.params.role = .slave →
    exec i s = .next { s with env := { s.env with reports := s.env.reports ++ [.refused .wrongRole] } }) ∧
  (∀ (i : Instr) (s : State), i = .gate ∨ i = .gateRecord → s.params.role = .master → s.mphase ≠ .idle →
    exec i s = .next { s with env := { s.env with reports := s.env.reports ++ [.refused .busy] } })

/-- R177: a SET whose range covers this slave stores each byte but the sentinel; any other SET stores nothing; it never
produces a reply. -/
def Obligations.SetRequestStoresWhenCovered : Prop :=
  ∀ (das dae cw sax sa h a : Byte) (s : State), s.params.role = .slave →
    (das ≤ s.slvaddr → s.slvaddr ≤ dae →
      exec (.setRequest das dae cw sax sa h a) s = .next { s with
        rstat := { code := .ok, lastCmd := some .set }
        height := if h = 0xFF then s.height else h
        angle := if a = 0xFF then s.angle else a }) ∧
    (s.slvaddr < das ∨ dae < s.slvaddr →
      exec (.setRequest das dae cw sax sa h a) s = .next { s with rstat := { code := .ok, lastCmd := some .set } })

/-- R178, R179, R181: a GET addressed exactly and only to this slave is answered in the same step, without the gate; any
other GET is met with silence. Blind State is unchanged. -/
def Obligations.GetRequestAnsweredOnExactMatch : Prop :=
  ∀ (das dae cw sax sa : Byte) (s : State), s.params.role = .slave →
    (das = s.slvaddr → dae = s.slvaddr →
      exec (.getRequest das dae cw sax sa) s = .next { s with
        rstat := { code := .ok, lastCmd := some .get }
        env := { s.env with trace := s.env.trace ++ [.wrote s.env.now
          (frameOf s.params.delims [sa, 0x60, s.devtype, s.srcaddr, 0x55, s.height, s.angle])] } }) ∧
    (das ≠ s.slvaddr ∨ dae ≠ s.slvaddr →
      exec (.getRequest das dae cw sax sa) s = .next { s with rstat := { code := .ok, lastCmd := some .get } })

/-- R180: a STOP request that decodes has no effect but on `RSTAT`; no reply is sent. -/
def Obligations.StopRequestOnlyRecorded : Prop :=
  ∀ (das dae cw sax sa : Byte) (s : State), s.params.role = .slave →
    exec (.stopRequest das dae cw sax sa) s = .next { s with rstat := { code := .ok, lastCmd := some .stop } }

/-- The steps of the model run the decoded instruction: a presented operation, the request RESPOND decodes from `RXBUF`,
and the reply the master decodes from its response read. A wire frame that is presented is not run but reaches the
block's inbound stream. How an operation or a frame reaches the block is the model's choice (log entries 4 and 11). -/
def Obligations.StepRunsDecodedInstruction : Prop :=
  (∀ (s : State) (i : Instr) (rest : List Input), s.env.inputs = .op i :: rest → i.dir? = none →
    step s = exec i { s with env := { s.env with inputs := rest } }) ∧
  (∀ (s : State) (i : Instr) (rest : List Input) (wire : List Byte), s.env.inputs = .op i :: rest →
    encode s.params.delims i = some wire →
    step s = .next { s with env := { s.env with inputs := rest, inbound := s.env.inbound ++ wire } }) ∧
  (∀ (s : State) (k : Nat) (rest : List Input) (r : Record), s.env.inputs = .turn k :: rest →
    s.params.role = .slave → s.rphase = .ready → decodeFrame s.params.delims .req s.rxbuf = .ok r →
    step s = exec r.toInstr { s with rxbuf := [], rphase := .accum, env := { s.env with inputs := rest } }) ∧
  (∀ (s : State) (r : Record), s.env.inputs = [] →
    s.params.role = .slave → s.rphase = .ready → decodeFrame s.params.delims .req s.rxbuf = .ok r →
    step s = exec r.toInstr { s with rxbuf := [], rphase := .accum, env := { s.env with draws := s.env.draws + 1 } }) ∧
  (∀ (s : State) (k : Nat) (rest : List Input) (r : Record), s.env.inputs = .turn k :: rest →
    s.params.role = .master → s.mphase = .read →
    decodeFrame s.params.delims .rep (s.env.inbound.take (min k s.params.respWindow)) = .ok r →
    step s = exec r.toInstr { s with
      env := { s.env with
        inputs := rest
        inbound := s.env.inbound.drop (min k s.params.respWindow)
        trace := s.env.trace ++
          [.read s.params.respWindow (s.env.inbound.take (min k s.params.respWindow))] } })

/-- R171, R175 over a whole frame: a request of which no field is ETX, received byte by byte by a Responder that holds
nothing, is acted on exactly as the instruction it encodes. That the bytes are given to RECEIVE one by one, and not
read from the line, is the model's choice (log entry 23). -/
def Obligations.DeliveredRequestIsActedOn : Prop :=
  ∀ (s : State) (i : Instr) (wire : List Byte),
    s.params.role = .slave → s.params.delims = Delims.ascii → 21 ≤ s.params.rxMaxLen →
    s.rphase = .accum → s.rxbuf = [] →
    i.dir? = some .req → i.wf → encode s.params.delims i = some wire → carriesEtx s.params.delims i = false →
    hearAll wire s = exec i s

/-- R233: a request with a field of value ETX, received byte by byte, has no effect on the slave but `RSTAT.code =
MalformedFrame`, and after its last byte the Responder holds nothing: it is back in step. That the bytes are given to
RECEIVE one by one, and not read from the line, is the model's choice (log entry 23). -/
def Obligations.EtxInRequestLosesIt : Prop :=
  ∀ (s : State) (i : Instr) (wire : List Byte),
    s.params.role = .slave → s.params.delims = Delims.ascii → 21 ≤ s.params.rxMaxLen →
    s.rphase = .accum → s.rxbuf = [] →
    i.dir? = some .req → i.wf → encode s.params.delims i = some wire → carriesEtx s.params.delims i = true →
    hearAll wire s = .next { s with rstat := { s.rstat with code := .malformedFrame } }

/-- R184: a SET that covers the slave, then a GET of its address, makes the slave write a reply with which a master
that waits for it, and reads it whole, ends its GET: the values set are in `MRES` and returned; with the sentinel in a
place the value stored before is. That the bytes are given to RECEIVE one by one, and not read from the line, is the
model's choice (log entry 23). -/
def Obligations.SetThenGetReturnsValues : Prop :=
  ∀ (s : State) (das dae dt sa h a : Byte) (wireSet wireGet : List Byte),
    s.params.role = .slave → s.params.delims = Delims.ascii → 21 ≤ s.params.rxMaxLen →
    s.rphase = .accum → s.rxbuf = [] → das ≤ s.slvaddr → s.slvaddr ≤ dae →
    encodeRequest s.params.delims (.set h a) das dae dt sa = .ok wireSet →
    encodeRequest s.params.delims .get s.slvaddr s.slvaddr dt sa = .ok wireGet →
    s.params.delims.etx ∉ [das, dae, dt, sa, h, a, s.slvaddr] →
    ∃ t reply bc, hearAll (wireSet ++ wireGet) s = .next t ∧ outbound t = outbound s ++ reply ∧
      decodeFrame s.params.delims .rep reply = .ok (.reply bc sa 0x60 s.devtype s.srcaddr
        (if h = 0xFF then s.height else h) (if a = 0xFF then s.angle else a)) ∧
      ∀ (m : State) (k : Nat), m.params.role = .master → m.mphase = .read → m.params.delims = s.params.delims →
        18 ≤ m.params.respWindow → m.env.inbound = reply → reply.length ≤ k →
        ∃ m', turn k m = .next m' ∧ m'.mphase = .idle ∧
          m'.mres = { code := .ok, height := if h = 0xFF then s.height else h
                      angle := if a = 0xFF then s.angle else a } ∧
          m'.env.reports = m.env.reports ++
            [.completed (some (if h = 0xFF then s.height else h, if a = 0xFF then s.angle else a))]

/-- R25: a step that changes the Blind State acts on a SET request whose range covers this slave, and stores what R177
says; else it is a reset. -/
def Obligations.BlindStateWrittenOnlyByCoveringSet : Prop :=
  ∀ (s t : State), step s = .next t → (t.height ≠ s.height ∨ t.angle ≠ s.angle) →
    resets s ∨ (s.params.role = .slave ∧ ∃ das dae cw sax sa h a,
      actsOn s (.setRequest das dae cw sax sa h a) ∧ das ≤ s.slvaddr ∧ s.slvaddr ≤ dae ∧
      t.height = (if h = 0xFF then s.height else h) ∧ t.angle = (if a = 0xFF then s.angle else a))

/-- R178, R180, R177: a slave writes only the reply to a GET addressed exactly and only to it, one whole frame in one
call. -/
def Obligations.SlaveWritesOnlyItsReply : Prop :=
  ∀ (s t : State), s.params.role = .slave → step s = .next t →
    ∃ new, t.env.trace = s.env.trace ++ new ∧
      ∀ at_ bs, TEvent.wrote at_ bs ∈ new → ∃ cw sax sa,
        actsOn s (.getRequest s.slvaddr s.slvaddr cw sax sa) ∧ at_ = s.env.now ∧
        bs = encodeReply s.params.delims sa s.devtype s.srcaddr s.height s.angle

/-- R240: once a component of the Blind State has left 0xFF it never returns to it, except by reset. -/
def Obligations.SentinelNeverStored : Prop :=
  ∀ (s t : State), step s = .next t → ¬ resets s →
    (s.height ≠ 0xFF → t.height ≠ 0xFF) ∧ (s.angle ≠ 0xFF → t.angle ≠ 0xFF)

/-- R183: SET_SLAVE_ADDRESS in either role and at any time: 1..255 is stored, anything else is refused with no state
changed. -/
def Obligations.SetSlaveAddressChecksRange : Prop :=
  ∀ (v : Int) (s : State),
    (1 ≤ v → v ≤ 255 → ∃ b : Byte, (b.toNat : Int) = v ∧
      exec (.setSlaveAddress v) s = .next { s with
        slvaddr := b, env := { s.env with reports := s.env.reports ++ [.ok] } }) ∧
    (v < 1 ∨ 255 < v →
      exec (.setSlaveAddress v) s = .next { s with env := { s.env with
        reports := s.env.reports ++ [.refused (.invalidSlaveAddress v)] } })

/-- R22, R21: a step changes `SLVADDR` only by SET_SLAVE_ADDRESS with an operand in 1..255, which is then its value, or
by reset; on a legal instance 0 is never held; a step changes `DEVTYPE` and `SRCADDR` only by reset, and never changes a
parameter. -/
def Obligations.IdentityWrittenOnlyByItsOperations : Prop :=
  ∀ (s t : State), step s = .next t →
    t.params = s.params ∧
    (t.slvaddr ≠ s.slvaddr → resets s ∨
      ∃ v, presents s (.setSlaveAddress v) ∧ 1 ≤ v ∧ v ≤ 255 ∧ (t.slvaddr.toNat : Int) = v) ∧
    (s.params.slaveAddressInit ≠ 0 → s.slvaddr ≠ 0 → t.slvaddr ≠ 0) ∧
    (t.devtype ≠ s.devtype ∨ t.srcaddr ≠ s.srcaddr → resets s)

/-! ### Reset and the whole machine -/

/-- R230, R38: the reset event at any time: the registers of R38's table (MCMD and GDL are left unspecified there and
nothing is said of them here), the transport and the streams as they are, no report. -/
def Obligations.ResetSetsRegistersNotTransport : Prop :=
  ∀ (s : State), ∃ t, exec .reset s = .next t ∧ t.params = s.params ∧
    t.devtype = s.params.deviceTypeInit ∧ t.srcaddr = s.params.sourceAddressInit ∧
    t.slvaddr = s.params.slaveAddressInit ∧ t.height = 0xFF ∧ t.angle = 0xFF ∧
    t.cfg = { localEcho := s.params.localEchoInit, closeAfterCall := s.params.closeAfterCallInit } ∧
    (s.params.wf → t.cfg = { localEcho := false, closeAfterCall := false }) ∧
    t.lrt = none ∧ t.mphase = .idle ∧ t.txbuf = [] ∧ t.mres = { code := .ok, height := 0xFF, angle := 0xFF } ∧
    t.rphase = .accum ∧ t.rxbuf = [] ∧ t.rstat = { code := .ok, lastCmd := none } ∧
    SameLine s t ∧ SameOutside s t ∧ t.env.reports = s.env.reports

/-- R231: nothing persists: two instances with the same parameters and surroundings are the same after reset, whatever
their registers held. For MCMD and GDL, which the spec leaves unspecified, that is the model's choice (log entry 5). -/
def Obligations.NothingPersistsOverReset : Prop :=
  ∀ (s u : State), s.params = u.params → s.env = u.env → exec .reset s = exec .reset u

/-- R201: the ten codes of the table, no two with one number, and the code of each failure and refusal. Nothing is said
of the outcome of a failed transport call, which is none of the ten (log entry 13). -/
def Obligations.CodesAreNumberedApart : Prop :=
  Code.ok.toNat = 0 ∧ Code.invalidAddressRange.toNat = 1 ∧ Code.invalidBaudRate.toNat = 2 ∧
  Code.malformedFrame.toNat = 3 ∧ Code.localEchoMismatch.toNat = 4 ∧ Code.noResponse.toNat = 5 ∧ Code.busy.toNat = 6 ∧
  Code.wrongRole.toNat = 7 ∧ Code.invalidSlaveAddress.toNat = 8 ∧ Code.rxOverflow.toNat = 9 ∧
  (∀ das dae, failureCode (.invalidAddressRange das dae) = .invalidAddressRange) ∧
  (∀ b, failureCode (.invalidBaudRate b) = .invalidBaudRate) ∧
  (∀ c, failureCode (.malformedFrame c) = .malformedFrame) ∧ failureCode .localEchoMismatch = .localEchoMismatch ∧
  failureCode .noResponse = .noResponse ∧ HostRefusal.busy.code = .busy ∧ HostRefusal.wrongRole.code = .wrongRole ∧
  (∀ v, (HostRefusal.invalidSlaveAddress v).code = .invalidSlaveAddress) ∧
  ∀ a b : Code, a ≠ .transportError → b ≠ .transportError → a.toNat = b.toNat → a = b

/-- The invariant of Sys2Proof/Safety.lean holds in the reset state of every legal instance, in any surroundings whose
time is not negative and that has no call of GATE blocked. The reset value of `GDL` is the model's (log entry 5). -/
def Obligations.InvariantHoldsAtReset : Prop :=
  State.reset.Inv ∧
  ∀ (p : Params) (e : Env), p.wf → 0 ≤ e.now → e.gateCall = false → (State.resetWith p e).Inv

/-- Every step keeps the invariant: the identity is the one of construction and `SLVADDR` is not 0 (R21, R22), time and
`LRT` are in order (R130), `TXBUF` is the encoding of `MCMD` while a transaction is in flight (R31, R142), the phases
agree with `CFG` and the command (R151), `RXBUF` keeps its capacity (R32, R173). -/
def Obligations.InvariantKeptByEveryStep : Prop :=
  ∀ (s t : State), s.Inv → step s = .next t → t.Inv

/-- R210: with `ROLE = SLAVE` no step but a reset changes a register of the master's sequencer; with `ROLE = MASTER` none
changes a register of the Responder or the Blind State. -/
def Obligations.RolesKeepApart : Prop :=
  ∀ (s t : State), step s = .next t → ¬ resets s →
    (s.params.role = .slave → t.lrt = s.lrt ∧ t.mphase = s.mphase ∧ t.mcmd = s.mcmd ∧ t.gdl = s.gdl ∧
      t.txbuf = s.txbuf ∧ t.mres = s.mres) ∧
    (s.params.role = .master → SameSlave s t)

/-- R206 to R208, U6: no operation stops the block, whatever the state; a step is refused only for a collision on the
line (U13; log entry 13). A transport call that fails does not stop it: of a step whose next call after the first `n`
fails, the master ends its transaction there, in `M_IDLE`, with an outcome that is none of R201's codes (its number, past
the ten of R201, is the model's choice, log entry 13), `LRT`,
`MRES.height` and `MRES.angle` unchanged. U6 says nothing of a slave, whose registers of the other role and Blind State
stay as they are by the model's choice (log entry 13). -/
def Obligations.BlockNeverStops : Prop :=
  (∀ (i : Instr) (s : State), ∃ t, exec i s = .next t) ∧
  (∀ (s : State), (∃ t, step s = .next t) ∨
    (∃ rest, s.env.inputs = .collision :: rest ∧ step s = .refused .lineCollision)) ∧
  9 < Code.transportError.toNat ∧
  (∀ (s t : State) (n : Nat) (rest : List Input) (new : List TEvent),
    ((∃ k, s.env.inputs = .turnFails n k :: rest ∧ turn k { s with env := { s.env with inputs := rest } } = .next t) ∨
      (∃ i, i.dir? = none ∧ s.env.inputs = .opFails n i :: rest ∧
        exec i { s with env := { s.env with inputs := rest } } = .next t)) →
    t.env.trace = s.env.trace ++ new →
    (new.length ≤ n → step s = .next t) ∧
    (n < new.length → ∃ v sent, step s = .next v ∧ SameIdentity s v ∧ v.env.now = s.env.now ∧
      v.env.trace = s.env.trace ++ new.take n ++ [.broken sent] ∧
      (s.params.role = .master → v.mphase = .idle ∧ v.mres = { s.mres with code := .transportError } ∧
        v.lrt = s.lrt ∧ v.gdl = s.gdl ∧ v.cfg = s.cfg ∧ v.mcmd = t.mcmd ∧ v.txbuf = t.txbuf ∧ SameSlave s v ∧
        v.env.reports = s.env.reports ++ [.transportFailed]) ∧
      (s.params.role = .slave → SameMaster s v ∧ v.height = s.height ∧ v.angle = s.angle ∧
        v.env.reports = s.env.reports)))

/-- What the block has told, written and been given only grows: a step adds to the transport trace and to the reports and
takes back nothing. That the model keeps these two lists, which stand for the order of R62, is its choice (log entry 20).
Time never runs backwards (R130), and that a clock input with a smaller value leaves it as it is, is the model's choice
(log entry 18). -/
def Obligations.TraceAndTimeOnlyGrow : Prop :=
  ∀ (s t : State), step s = .next t →
    s.env.trace <+: t.env.trace ∧ s.env.reports <+: t.env.reports ∧ s.env.now ≤ t.env.now

/-- On a line, what a station writes in a step reaches every other station behind what that one had not read yet (R53:
"the bytes are the other instance's outbound stream in order"): the master's request reaches every slave, a slave's reply
reaches the master and every other slave (R212), and nothing else of these stations changes; the master hears itself
exactly when its adapter echoes. A line of one master and slaves stays one. That the line delivers at once, whole and
uncorrupted, and echoes only at the master, is the model's choice (log entry 16); R51 leaves it to the transport. -/
def Obligations.LineCarriesWrites : Prop :=
  ∀ (l : Line) (t : State) (new : List TEvent),
    (step l.master = .next t → t.env.trace = l.master.env.trace ++ new →
      ∃ l', l.masterStep = .next l' ∧ l'.echo = l.echo ∧ l'.slaves.length = l.slaves.length ∧
        (∀ (n : Nat) (v : State), l.slaves[n]? = some v → ∃ v', l'.slaves[n]? = some v' ∧
          v'.env.inbound = v.env.inbound ++ new.flatMap TEvent.written ∧ SameSlave v v' ∧ SameIdentity v v') ∧
        l'.master.env.inbound = t.env.inbound ++ (if l.echo then new.flatMap TEvent.written else []) ∧
        SameMaster t l'.master ∧ SameIdentity t l'.master ∧ (l.wf → l'.wf)) ∧
    (∀ (n : Nat) (v : State), l.slaves[n]? = some v → step v = .next t → t.env.trace = v.env.trace ++ new →
      ∃ l', l.slaveStep n = .next l' ∧ l'.echo = l.echo ∧ l'.slaves.length = l.slaves.length ∧
        l'.slaves[n]? = some t ∧
        (∀ (m : Nat) (u : State), m ≠ n → l.slaves[m]? = some u → ∃ u', l'.slaves[m]? = some u' ∧
          u'.env.inbound = u.env.inbound ++ new.flatMap TEvent.written ∧ SameSlave u u' ∧ SameIdentity u u') ∧
        l'.master.env.inbound = l.master.env.inbound ++ new.flatMap TEvent.written ∧
        SameMaster l.master l'.master ∧ SameIdentity l.master l'.master ∧ (l.wf → l'.wf))
end

