-- ==== Sys2Proof/Laws/Codec.lean ====
section
/-! SUPPORT. Sys2Proof/Laws/Codec.lean: the small laws of the Frame Codec: taking a stuffed field gives it back, sums
and lengths of concatenations, and the shape of a frame. -/

namespace Sys2Proof

open Config (Delims)

/-! ### Sums and the FCC -/

@[simp] theorem sumBytes_nil : sumBytes [] = 0 := rfl

@[simp] theorem sumBytes_cons (b : Byte) (bs : List Byte) : sumBytes (b :: bs) = b.toNat + sumBytes bs := rfl

@[simp] theorem sumBytes_append (xs ys : List Byte) : sumBytes (xs ++ ys) = sumBytes xs + sumBytes ys := by
  induction xs with
  | nil => simp
  | cons x xs ih => simp [ih, Nat.add_assoc]

/-- The defining property of the FCC: "`(sum(body) + FCC) mod 256 = 0`" (R14). -/
theorem sumBytes_add_fcc (body : List Byte) : (sumBytes body + (fcc body).toNat) % 256 = 0 := by
  simp only [fcc, BitVec.toNat_ofNat]
  omega

/-! ### Stuffing (R76, R77) -/

theorem esc_dle : esc Config.dle = [Config.dle, Config.dle] := by simp [esc]

theorem esc_of_ne {v : Byte} (h : v ≠ Config.dle) : esc v = [v] := by simp [esc, h]

theorem esc_length (v : Byte) : (esc v).length = if v = Config.dle then 2 else 1 := by
  unfold esc; split <;> rfl

/-- Unstuffing undoes stuffing, whatever follows (R109). -/
@[simp] theorem takeField_esc_append (v : Byte) (rest : List Byte) :
    takeField (esc v ++ rest) = .ok (v, rest) := by
  unfold esc; split <;> simp_all [takeField]

/-- A field that needs no stuffing is its byte. -/
theorem takeField_cons_of_ne {b : Byte} (rest : List Byte) (h : b ≠ Config.dle) :
    takeField (b :: rest) = .ok (b, rest) := by
  simp [takeField, h]

@[simp] theorem takeField_dle_cons (v : Byte) (rest : List Byte) :
    takeField (Config.dle :: v :: rest) = .ok (v, rest) := by
  simp [takeField]

/-- What `take()` can do: one byte, or an escape marker and the byte after it. -/
theorem takeField_ok {p rest : List Byte} {v : Byte} (h : takeField p = .ok (v, rest)) :
    (v ≠ Config.dle ∧ p = v :: rest) ∨ p = Config.dle :: v :: rest := by
  unfold takeField at h
  split at h
  · cases h
  · split at h
    · split at h
      · cases h
      · simp_all
    · simp_all

/-- `take()` consumes one or two bytes. -/
theorem takeField_length {p rest : List Byte} {v : Byte} (h : takeField p = .ok (v, rest)) :
    p.length = rest.length + 1 ∨ p.length = rest.length + 2 := by
  obtain ⟨-, rfl⟩ | rfl := takeField_ok h <;> simp

/-- The only error of `take()` is TRUNCATED (R103). -/
theorem takeField_error {p : List Byte} {c : SubCause} (h : takeField p = .error c) : c = .truncated := by
  unfold takeField at h
  split at h
  · cases h; rfl
  · split at h
    · split at h <;> cases h
      rfl
    · cases h

/-! ### Payload and frame -/

@[simp] theorem payloadOf_nil : payloadOf [] = [] := rfl

@[simp] theorem payloadOf_cons (v : Byte) (vs : List Byte) : payloadOf (v :: vs) = esc v ++ payloadOf vs := rfl

/-- Each field is one or two bytes on the wire (R76). -/
theorem payloadOf_length_bounds (fields : List Byte) :
    fields.length ≤ (payloadOf fields).length ∧ (payloadOf fields).length ≤ 2 * fields.length := by
  induction fields with
  | nil => simp
  | cons v vs ih =>
    simp only [payloadOf_cons, List.length_append, List.length_cons, esc_length]
    split <;> omega

/-- The byte count never wraps for a field list of the block (R15). -/
theorem byteCount_toNat {fields : List Byte} (h : fields.length ≤ 8) :
    (byteCount fields).toNat = (payloadOf fields).length + 2 := by
  have := payloadOf_length_bounds fields
  simp only [byteCount, BitVec.toNat_ofNat]
  omega

/-- The walk of R103 over the fields of a request, then whatever follows. -/
theorem walkRequest_append (bc das dae cw sax sa : Byte) (rest : List Byte) :
    walkRequest bc (payloadOf [das, dae, cw, sax, sa, Config.tagStop] ++ rest) =
      .ok (.stop bc das dae cw sax sa, rest) ∧
    walkRequest bc (payloadOf [das, dae, cw, sax, sa, Config.tagGet] ++ rest) =
      .ok (.get bc das dae cw sax sa, rest) ∧
    ∀ h a : Byte, walkRequest bc (payloadOf [das, dae, cw, sax, sa, Config.tagSet, h, a] ++ rest) =
      .ok (.set bc das dae cw sax sa h a, rest) := by
  have h1 : Config.tagSet ≠ Config.tagStop := by decide
  have h2 : Config.tagGet ≠ Config.tagStop := by decide
  have h3 : Config.tagGet ≠ Config.tagSet := by decide
  refine ⟨?_, ?_, fun h a => ?_⟩ <;>
    simp [walkRequest, h1, h2, h3, Bind.bind, Except.bind, Pure.pure, Except.pure]

/-- The walk of R103 over the fields of a reply, then whatever follows. -/
theorem walkReply_append (bc da cw sax sa h a : Byte) (rest : List Byte) :
    walkReply bc (payloadOf [da, cw, sax, sa, Config.tagGet, h, a] ++ rest) =
      .ok (.reply bc da cw sax sa h a, rest) := by
  simp [walkReply, Bind.bind, Except.bind, Pure.pure, Except.pure]

/-- The end tests of R103 pass on a frame built by the encoder, whatever follows it. -/
theorem checkEnd_frame (d : Delims) (r : Record) (fields tail : List Byte) (hr : r.bc = byteCount fields)
    (hl : fields.length ≤ 8) :
    checkEnd d r (bodyOf d fields ++ fcc (bodyOf d fields) :: tail)
      (payloadOf fields ++ [Config.dle, d.etx] ++ fcc (bodyOf d fields) :: tail)
      (Config.dle :: d.etx :: fcc (bodyOf d fields) :: tail) = .ok r := by
  have hb := byteCount_toNat hl
  have hs := sumBytes_add_fcc (bodyOf d fields)
  simp only [checkEnd, ne_eq, not_true_eq_false, or_self, ↓reduceIte, hr, hb, List.length_append, List.length_cons, List.length_nil]
  rw [if_neg (by omega), List.take_left' (by omega), if_neg (by omega)]

/-- A frame decodes to the record its field walk gives, whatever follows it (R108, D9). -/
theorem decodeFrame_frameOf (d : Delims) (dir : Dir) (fields tail : List Byte) (r : Record)
    (hw : ∀ rest, walkFields dir (byteCount fields) (payloadOf fields ++ rest) = .ok (r, rest))
    (hr : r.bc = byteCount fields) (hl : fields.length ≤ 8) (h4 : 4 ≤ fields.length) :
    decodeFrame d dir (frameOf d fields ++ tail) = .ok r := by
  have hb := byteCount_toNat hl
  have hp := payloadOf_length_bounds fields
  have hc := checkEnd_frame d r fields tail hr hl
  have e : frameOf d fields ++ tail = Config.dle :: d.stx :: (bodyOf d fields ++ fcc (bodyOf d fields) :: tail) := by
    simp [frameOf]
  rw [e]
  simp only [decodeFrame, ne_eq, not_true_eq_false, or_self, ↓reduceIte]
  have e2 : bodyOf d fields ++ fcc (bodyOf d fields) :: tail =
     esc (byteCount fields) ++ (payloadOf fields ++ [Config.dle, d.etx] ++ fcc (bodyOf d fields) :: tail) := by
    simp [bodyOf]
  rw [show takeField (bodyOf d fields ++ fcc (bodyOf d fields) :: tail) = _ by rw [e2, takeField_esc_append]]
  have : ¬ (byteCount fields).toNat < Config.bcMin := by simp [hb, Config.bcMin]; omega
  simp only [Bind.bind, Except.bind, this, ↓reduceIte]
  have := hw ([Config.dle, d.etx] ++ fcc (bodyOf d fields) :: tail)
  rw [List.append_assoc, this]
  simpa using hc

/-- The instructions with an encoding are the wire frames (R88). -/
theorem encode_eq_none {d : Delims} {i : Instr} : encode d i = none ↔ i.dir? = none := by
  cases i <;> simp [encode, Instr.fields?, Instr.dir?]

/-- The length of a frame: header, byte count, payload, terminator, FCC (R81). -/
theorem frameOf_length (d : Delims) (fields : List Byte) :
    (frameOf d fields).length = (esc (byteCount fields)).length + (payloadOf fields).length + 5 := by
  simp only [frameOf, bodyOf, List.length_append, List.length_cons, List.length_nil]
  omega

/-- BC is itself the escape byte exactly when the payload has 14 bytes (R83). -/
theorem byteCount_eq_dle {fields : List Byte} (h : fields.length ≤ 8) :
    byteCount fields = Config.dle ↔ (payloadOf fields).length = 14 := by
  have hb := byteCount_toNat h
  constructor
  · intro e
    rw [e] at hb
    simp [Config.dle] at hb
    omega
  · intro e
    apply BitVec.eq_of_toNat_eq
    rw [hb, e]
    rfl

/-! ### What decoding can do -/

theorem except_bind_ok {α β ε : Type} {x : Except ε α} {f : α → Except ε β} {y : β} :
    (x >>= f) = .ok y ↔ ∃ a, x = .ok a ∧ f a = .ok y := by
  cases x <;> simp [Bind.bind, Except.bind]

/-- `take()` gives back the value that the bytes at a field position carry (R77, R85), whatever follows. -/
theorem takeField_of_carries {v : Byte} {w : List Byte} (h : Machine.Carries v w) (rest : List Byte) :
    takeField (w ++ rest) = .ok (v, rest) := by
  obtain ⟨rfl, hv⟩ | rfl := h
  · exact takeField_cons_of_ne rest hv
  · exact takeField_dle_cons v rest

/-- What `take()` consumes carries the value it gives (R77). -/
theorem carries_of_takeField {p rest : List Byte} {v : Byte} (h : takeField p = .ok (v, rest)) :
    ∃ w, p = w ++ rest ∧ Machine.Carries v w := by
  obtain ⟨hv, rfl⟩ | rfl := takeField_ok h
  · exact ⟨[v], rfl, .inl ⟨rfl, hv⟩⟩
  · exact ⟨[Config.dle, v], rfl, .inr rfl⟩

/-- `take()` depends on the one or two bytes it consumes and on nothing after them. -/
theorem takeField_split {p rest : List Byte} {v : Byte} (h : takeField p = .ok (v, rest)) :
    ∃ pre, p = pre ++ rest ∧ 1 ≤ pre.length ∧ ∀ rest', takeField (pre ++ rest') = .ok (v, rest') := by
  obtain ⟨hv, rfl⟩ | rfl := takeField_ok h
  · exact ⟨[v], rfl, by simp, fun r => by simp [takeField, hv]⟩
  · exact ⟨[Config.dle, v], rfl, by simp, fun r => by simp⟩

/-- What the request walk can do: it keeps BC, and it consumes a prefix of at least six bytes. -/
theorem walkRequest_ok {bc : Byte} {p rest : List Byte} {r : Record} (h : walkRequest bc p = .ok (r, rest)) :
    r.bc = bc ∧ r.dir = .req ∧ ∃ pay, p = pay ++ rest ∧ 6 ≤ pay.length ∧
      ∀ rest', walkRequest bc (pay ++ rest') = .ok (r, rest') := by
  unfold walkRequest at h
  simp only [except_bind_ok, Prod.exists] at h
  obtain ⟨das, p1, h1, dae, p2, h2, cw, p3, h3, sax, p4, h4, sa, p5, h5, cmd, p6, h6, h⟩ := h
  obtain ⟨q1, rfl, l1, e1⟩ := takeField_split h1
  obtain ⟨q2, rfl, l2, e2⟩ := takeField_split h2
  obtain ⟨q3, rfl, l3, e3⟩ := takeField_split h3
  obtain ⟨q4, rfl, l4, e4⟩ := takeField_split h4
  obtain ⟨q5, rfl, l5, e5⟩ := takeField_split h5
  obtain ⟨q6, rfl, l6, e6⟩ := takeField_split h6
  split at h
  · simp only [Pure.pure, Except.pure, Except.ok.injEq, Prod.mk.injEq] at h
    obtain ⟨rfl, rfl⟩ := h
    refine ⟨rfl, rfl, q1 ++ q2 ++ q3 ++ q4 ++ q5 ++ q6, by simp, by simp; omega, fun r => ?_⟩
    simp_all [walkRequest, Bind.bind, Except.bind, Pure.pure, Except.pure]
  · split at h
    · simp only [except_bind_ok, Prod.exists] at h
      obtain ⟨hh, p7, h7, a, p8, h8, h⟩ := h
      obtain ⟨q7, rfl, l7, e7⟩ := takeField_split h7
      obtain ⟨q8, rfl, l8, e8⟩ := takeField_split h8
      simp only [Pure.pure, Except.pure, Except.ok.injEq, Prod.mk.injEq] at h
      obtain ⟨rfl, rfl⟩ := h
      refine ⟨rfl, rfl, q1 ++ q2 ++ q3 ++ q4 ++ q5 ++ q6 ++ q7 ++ q8, by simp, by simp; omega, fun r => ?_⟩
      simp_all [walkRequest, Bind.bind, Except.bind, Pure.pure, Except.pure]
    · split at h
      · simp only [Pure.pure, Except.pure, Except.ok.injEq, Prod.mk.injEq] at h
        obtain ⟨rfl, rfl⟩ := h
        refine ⟨rfl, rfl, q1 ++ q2 ++ q3 ++ q4 ++ q5 ++ q6, by simp, by simp; omega, fun r => ?_⟩
        simp_all [walkRequest, Bind.bind, Except.bind, Pure.pure, Except.pure]
      · simp [throw, throwThe, MonadExceptOf.throw] at h

/-- What the reply walk can do: it keeps BC, and it consumes a prefix of at least seven bytes. -/
theorem walkReply_ok {bc : Byte} {p rest : List Byte} {r : Record} (h : walkReply bc p = .ok (r, rest)) :
    r.bc = bc ∧ r.dir = .rep ∧ ∃ pay, p = pay ++ rest ∧ 7 ≤ pay.length ∧
      ∀ rest', walkReply bc (pay ++ rest') = .ok (r, rest') := by
  unfold walkReply at h
  simp only [except_bind_ok, Prod.exists] at h
  obtain ⟨da, p1, h1, cw, p2, h2, sax, p3, h3, sa, p4, h4, cmd, p5, h5, h⟩ := h
  obtain ⟨q1, rfl, l1, e1⟩ := takeField_split h1
  obtain ⟨q2, rfl, l2, e2⟩ := takeField_split h2
  obtain ⟨q3, rfl, l3, e3⟩ := takeField_split h3
  obtain ⟨q4, rfl, l4, e4⟩ := takeField_split h4
  obtain ⟨q5, rfl, l5, e5⟩ := takeField_split h5
  split at h
  · simp only [except_bind_ok, Prod.exists] at h
    obtain ⟨hh, p6, h6, a, p7, h7, h⟩ := h
    obtain ⟨q6, rfl, l6, e6⟩ := takeField_split h6
    obtain ⟨q7, rfl, l7, e7⟩ := takeField_split h7
    simp only [Pure.pure, Except.pure, Except.ok.injEq, Prod.mk.injEq] at h
    obtain ⟨rfl, rfl⟩ := h
    refine ⟨rfl, rfl, q1 ++ q2 ++ q3 ++ q4 ++ q5 ++ q6 ++ q7, by simp, by simp; omega, fun r => ?_⟩
    simp_all [walkReply, Bind.bind, Except.bind, Pure.pure, Except.pure]
  · simp [throw, throwThe, MonadExceptOf.throw] at h

/-- What the walk in either layout can do. -/
theorem walkFields_ok {dir : Dir} {bc : Byte} {p rest : List Byte} {r : Record}
    (h : walkFields dir bc p = .ok (r, rest)) :
    r.bc = bc ∧ r.dir = dir ∧ ∃ pay, p = pay ++ rest ∧ 6 ≤ pay.length ∧ (dir = .rep → 7 ≤ pay.length) ∧
      ∀ rest', walkFields dir bc (pay ++ rest') = .ok (r, rest') := by
  cases dir
  · obtain ⟨h1, h2, pay, h3, h4, h5⟩ := walkRequest_ok h
    exact ⟨h1, h2, pay, h3, h4, by simp, h5⟩
  · obtain ⟨h1, h2, pay, h3, h4, h5⟩ := walkReply_ok h
    exact ⟨h1, h2, pay, h3, by omega, fun _ => h4, h5⟩

/-- What DECODE can do when it accepts: the input is header, byte count, payload, terminator, FCC and a tail it does
not look at; the walk consumed exactly the payload. -/
theorem decodeFrame_ok {d : Delims} {dir : Dir} {raw : List Byte} {r : Record} (h : decodeFrame d dir raw = .ok r) :
    ∃ bcf pay fc tail, raw = Config.dle :: d.stx :: (bcf ++ (pay ++ (Config.dle :: d.etx :: fc :: tail))) ∧
      r.dir = dir ∧ Config.bcMin ≤ r.bc.toNat ∧ (bcf = [r.bc] ∨ bcf = [Config.dle, r.bc]) ∧
      (∀ x, takeField (bcf ++ x) = .ok (r.bc, x)) ∧ r.bc.toNat = pay.length + 2 ∧ 6 ≤ pay.length ∧
      (dir = .rep → 7 ≤ pay.length) ∧ (∀ x, walkFields dir r.bc (pay ++ x) = .ok (r, x)) ∧
      (sumBytes (bcf ++ pay ++ [Config.dle, d.etx]) + fc.toNat) % 256 = 0 := by
  unfold decodeFrame at h
  split at h
  · split at h
    · cases h
    · rename_i h0 h1 body hh
      simp only [ne_eq, not_or, not_not] at hh
      obtain ⟨rfl, rfl⟩ := hh
      simp only [except_bind_ok, Prod.exists] at h
      obtain ⟨bc, pay0, ht, h⟩ := h
      have hbcf := takeField_ok ht
      obtain ⟨bcf, rfl, l1, e1⟩ := takeField_split ht
      split at h
      · simp [throw, throwThe, MonadExceptOf.throw, Bind.bind, Except.bind] at h
      · rename_i hmin
        simp only [except_bind_ok, Prod.exists] at h
        obtain ⟨r', p, hw, h⟩ := h
        obtain ⟨hbc, hdir, pay, rfl, l6, l7, ew⟩ := walkFields_ok hw
        unfold checkEnd at h
        split at h
        · split at h
          · cases h
          · rename_i hterm
            split at h
            · cases h
            · rename_i hlen
              split at h
              · cases h
              · split at h
                · cases h
                · rename_i fc tail hsum
                  simp only [ne_eq, not_or, not_not] at hterm
                  obtain ⟨rfl, rfl⟩ := hterm
                  injection h with h
                  subst h
                  simp only [List.length_append, List.length_cons, not_not, ne_eq] at hlen hsum
                  refine ⟨bcf, pay, fc, tail, rfl, hdir, by rw [hbc]; omega, ?_, by simpa [hbc] using e1, by omega,
                    l6, l7, by rw [hbc]; exact ew, ?_⟩
                  · obtain ⟨-, h⟩ | h := hbcf
                    · left; rw [hbc]; exact List.append_cancel_right (cs := [bc]) h
                    · right; rw [hbc]; exact List.append_cancel_right (cs := [Config.dle, bc]) h
                  · rw [show bcf ++ (pay ++ Config.dle :: d.etx :: fc :: tail) =
                        (bcf ++ pay ++ [Config.dle, d.etx]) ++ (fc :: tail) by simp,
                      List.take_left' (by simp; omega)] at hsum
                    exact hsum
        · cases h
  · cases h

end Sys2Proof
end

