-- ==== Sys2Proof/Laws/State.lean ====
section
/-! SUPPORT. Sys2Proof/Laws/State.lean: what each named update of the state leaves as it was and what it writes, one
lemma per update, each conjunct a simp rule of its own, so that no later proof unfolds an update. -/

namespace Sys2Proof.Machine

open Config (Params)

variable (s : State)

@[simp] theorem emit_fields (e : TEvent) :
    (emit e s).params = s.params ∧ (emit e s).devtype = s.devtype ∧ (emit e s).srcaddr = s.srcaddr ∧
    (emit e s).slvaddr = s.slvaddr ∧ (emit e s).height = s.height ∧ (emit e s).angle = s.angle ∧
    (emit e s).cfg = s.cfg ∧ (emit e s).lrt = s.lrt ∧ (emit e s).mphase = s.mphase ∧ (emit e s).mcmd = s.mcmd ∧
    (emit e s).gdl = s.gdl ∧ (emit e s).txbuf = s.txbuf ∧ (emit e s).mres = s.mres ∧
    (emit e s).rphase = s.rphase ∧ (emit e s).rxbuf = s.rxbuf ∧ (emit e s).rstat = s.rstat ∧
    (emit e s).env.now = s.env.now ∧ (emit e s).env.baud = s.env.baud ∧ (emit e s).env.inbound = s.env.inbound ∧
    (emit e s).env.trace = s.env.trace ++ [e] ∧ (emit e s).env.reports = s.env.reports ∧
    (emit e s).env.inputs = s.env.inputs ∧ (emit e s).env.draws = s.env.draws ∧
    (emit e s).env.gateCall = s.env.gateCall := by
  simp [emit]

@[simp] theorem report_fields (r : Report) :
    (report r s).params = s.params ∧ (report r s).devtype = s.devtype ∧ (report r s).srcaddr = s.srcaddr ∧
    (report r s).slvaddr = s.slvaddr ∧ (report r s).height = s.height ∧ (report r s).angle = s.angle ∧
    (report r s).cfg = s.cfg ∧ (report r s).lrt = s.lrt ∧ (report r s).mphase = s.mphase ∧
    (report r s).mcmd = s.mcmd ∧ (report r s).gdl = s.gdl ∧ (report r s).txbuf = s.txbuf ∧
    (report r s).mres = s.mres ∧ (report r s).rphase = s.rphase ∧ (report r s).rxbuf = s.rxbuf ∧
    (report r s).rstat = s.rstat ∧ (report r s).env.now = s.env.now ∧ (report r s).env.baud = s.env.baud ∧
    (report r s).env.inbound = s.env.inbound ∧ (report r s).env.trace = s.env.trace ∧
    (report r s).env.reports = s.env.reports ++ [r] ∧ (report r s).env.inputs = s.env.inputs ∧
    (report r s).env.draws = s.env.draws ∧ (report r s).env.gateCall = s.env.gateCall := by
  simp [report]

/-- The port policy touches the trace and nothing else. -/
@[simp] theorem openIfRequested_fields :
    (openIfRequested s).params = s.params ∧ (openIfRequested s).devtype = s.devtype ∧
    (openIfRequested s).srcaddr = s.srcaddr ∧ (openIfRequested s).slvaddr = s.slvaddr ∧
    (openIfRequested s).height = s.height ∧ (openIfRequested s).angle = s.angle ∧ (openIfRequested s).cfg = s.cfg ∧
    (openIfRequested s).lrt = s.lrt ∧ (openIfRequested s).mphase = s.mphase ∧ (openIfRequested s).mcmd = s.mcmd ∧
    (openIfRequested s).gdl = s.gdl ∧ (openIfRequested s).txbuf = s.txbuf ∧ (openIfRequested s).mres = s.mres ∧
    (openIfRequested s).rphase = s.rphase ∧ (openIfRequested s).rxbuf = s.rxbuf ∧
    (openIfRequested s).rstat = s.rstat ∧ (openIfRequested s).env.now = s.env.now ∧
    (openIfRequested s).env.baud = s.env.baud ∧ (openIfRequested s).env.inbound = s.env.inbound ∧
    (openIfRequested s).env.trace = s.env.trace ++ (if s.cfg.closeAfterCall then [.opened] else []) ∧
    (openIfRequested s).env.reports = s.env.reports ∧ (openIfRequested s).env.inputs = s.env.inputs ∧
    (openIfRequested s).env.draws = s.env.draws ∧ (openIfRequested s).env.gateCall = s.env.gateCall := by
  unfold openIfRequested tOpen; split <;> simp_all

@[simp] theorem closeIfRequested_fields :
    (closeIfRequested s).params = s.params ∧ (closeIfRequested s).devtype = s.devtype ∧
    (closeIfRequested s).srcaddr = s.srcaddr ∧ (closeIfRequested s).slvaddr = s.slvaddr ∧
    (closeIfRequested s).height = s.height ∧ (closeIfRequested s).angle = s.angle ∧
    (closeIfRequested s).cfg = s.cfg ∧ (closeIfRequested s).lrt = s.lrt ∧ (closeIfRequested s).mphase = s.mphase ∧
    (closeIfRequested s).mcmd = s.mcmd ∧ (closeIfRequested s).gdl = s.gdl ∧ (closeIfRequested s).txbuf = s.txbuf ∧
    (closeIfRequested s).mres = s.mres ∧ (closeIfRequested s).rphase = s.rphase ∧
    (closeIfRequested s).rxbuf = s.rxbuf ∧ (closeIfRequested s).rstat = s.rstat ∧
    (closeIfRequested s).env.now = s.env.now ∧ (closeIfRequested s).env.baud = s.env.baud ∧
    (closeIfRequested s).env.inbound = s.env.inbound ∧
    (closeIfRequested s).env.trace = s.env.trace ++ (if s.cfg.closeAfterCall then [.closed] else []) ∧
    (closeIfRequested s).env.reports = s.env.reports ∧ (closeIfRequested s).env.inputs = s.env.inputs ∧
    (closeIfRequested s).env.draws = s.env.draws ∧ (closeIfRequested s).env.gateCall = s.env.gateCall := by
  unfold closeIfRequested tClose; split <;> simp_all

/-- A failure writes `MRES.code` and `MPHASE` and is reported (R206). -/
@[simp] theorem raiseFailure_fields (f : Failure) :
    (raiseFailure f s).params = s.params ∧ (raiseFailure f s).devtype = s.devtype ∧
    (raiseFailure f s).srcaddr = s.srcaddr ∧ (raiseFailure f s).slvaddr = s.slvaddr ∧
    (raiseFailure f s).height = s.height ∧ (raiseFailure f s).angle = s.angle ∧ (raiseFailure f s).cfg = s.cfg ∧
    (raiseFailure f s).lrt = s.lrt ∧ (raiseFailure f s).mphase = .idle ∧ (raiseFailure f s).mcmd = s.mcmd ∧
    (raiseFailure f s).gdl = s.gdl ∧ (raiseFailure f s).txbuf = s.txbuf ∧
    (raiseFailure f s).mres = { s.mres with code := failureCode f } ∧ (raiseFailure f s).rphase = s.rphase ∧
    (raiseFailure f s).rxbuf = s.rxbuf ∧ (raiseFailure f s).rstat = s.rstat ∧
    (raiseFailure f s).env.now = s.env.now ∧ (raiseFailure f s).env.baud = s.env.baud ∧
    (raiseFailure f s).env.inbound = s.env.inbound ∧ (raiseFailure f s).env.trace = s.env.trace ∧
    (raiseFailure f s).env.reports = s.env.reports ++ [.failed f] ∧
    (raiseFailure f s).env.inputs = s.env.inputs ∧ (raiseFailure f s).env.draws = s.env.draws ∧
    (raiseFailure f s).env.gateCall = s.env.gateCall := by
  simp [raiseFailure]

/-- The end of a STOP or SET (R140 step 7, R206). -/
@[simp] theorem completeTransaction_fields :
    (completeTransaction s).params = s.params ∧ (completeTransaction s).devtype = s.devtype ∧
    (completeTransaction s).srcaddr = s.srcaddr ∧ (completeTransaction s).slvaddr = s.slvaddr ∧
    (completeTransaction s).height = s.height ∧ (completeTransaction s).angle = s.angle ∧
    (completeTransaction s).cfg = s.cfg ∧ (completeTransaction s).lrt = s.lrt ∧
    (completeTransaction s).mphase = .idle ∧ (completeTransaction s).mcmd = s.mcmd ∧
    (completeTransaction s).gdl = s.gdl ∧ (completeTransaction s).txbuf = s.txbuf ∧
    (completeTransaction s).mres = { s.mres with code := .ok } ∧ (completeTransaction s).rphase = s.rphase ∧
    (completeTransaction s).rxbuf = s.rxbuf ∧ (completeTransaction s).rstat = s.rstat ∧
    (completeTransaction s).env.now = s.env.now ∧ (completeTransaction s).env.baud = s.env.baud ∧
    (completeTransaction s).env.inbound = s.env.inbound ∧
    (completeTransaction s).env.trace = s.env.trace ++ (if s.cfg.closeAfterCall then [.closed] else []) ∧
    (completeTransaction s).env.reports = s.env.reports ++ [.completed none] ∧
    (completeTransaction s).env.inputs = s.env.inputs ∧ (completeTransaction s).env.draws = s.env.draws ∧
    (completeTransaction s).env.gateCall = s.env.gateCall := by
  simp [completeTransaction]

/-- The end of a GET (R148, R206). -/
@[simp] theorem completeGet_fields (h a : Byte) :
    (completeGet h a s).params = s.params ∧ (completeGet h a s).devtype = s.devtype ∧
    (completeGet h a s).srcaddr = s.srcaddr ∧ (completeGet h a s).slvaddr = s.slvaddr ∧
    (completeGet h a s).height = s.height ∧ (completeGet h a s).angle = s.angle ∧ (completeGet h a s).cfg = s.cfg ∧
    (completeGet h a s).lrt = s.lrt ∧ (completeGet h a s).mphase = .idle ∧ (completeGet h a s).mcmd = s.mcmd ∧
    (completeGet h a s).gdl = s.gdl ∧ (completeGet h a s).txbuf = s.txbuf ∧
    (completeGet h a s).mres = { code := .ok, height := h, angle := a } ∧ (completeGet h a s).rphase = s.rphase ∧
    (completeGet h a s).rxbuf = s.rxbuf ∧ (completeGet h a s).rstat = s.rstat ∧
    (completeGet h a s).env.now = s.env.now ∧ (completeGet h a s).env.baud = s.env.baud ∧
    (completeGet h a s).env.inbound = s.env.inbound ∧
    (completeGet h a s).env.trace = s.env.trace ++ (if s.cfg.closeAfterCall then [.closed] else []) ∧
    (completeGet h a s).env.reports = s.env.reports ++ [.completed (some (h, a))] ∧
    (completeGet h a s).env.inputs = s.env.inputs ∧ (completeGet h a s).env.draws = s.env.draws ∧
    (completeGet h a s).env.gateCall = s.env.gateCall := by
  simp [completeGet]

/-- A read consumes a prefix of the inbound stream and is traced (R53). -/
@[simp] theorem tRead_fields (n k : Nat) :
    (tRead n k s).params = s.params ∧ (tRead n k s).devtype = s.devtype ∧ (tRead n k s).srcaddr = s.srcaddr ∧
    (tRead n k s).slvaddr = s.slvaddr ∧ (tRead n k s).height = s.height ∧ (tRead n k s).angle = s.angle ∧
    (tRead n k s).cfg = s.cfg ∧ (tRead n k s).lrt = s.lrt ∧ (tRead n k s).mphase = s.mphase ∧
    (tRead n k s).mcmd = s.mcmd ∧ (tRead n k s).gdl = s.gdl ∧ (tRead n k s).txbuf = s.txbuf ∧
    (tRead n k s).mres = s.mres ∧ (tRead n k s).rphase = s.rphase ∧ (tRead n k s).rxbuf = s.rxbuf ∧
    (tRead n k s).rstat = s.rstat ∧ (tRead n k s).env.now = s.env.now ∧ (tRead n k s).env.baud = s.env.baud ∧
    (tRead n k s).env.inbound = s.env.inbound.drop (min k n) ∧
    (tRead n k s).env.trace = s.env.trace ++ [.read n (readBytes n k s)] ∧
    (tRead n k s).env.reports = s.env.reports ∧ (tRead n k s).env.inputs = s.env.inputs ∧
    (tRead n k s).env.draws = s.env.draws ∧ (tRead n k s).env.gateCall = s.env.gateCall := by
  simp [tRead]

/-- Entering the gate writes `MPHASE` and `GDL` (R132). -/
@[simp] theorem enterGate_fields :
    (enterGate s).params = s.params ∧ (enterGate s).devtype = s.devtype ∧ (enterGate s).srcaddr = s.srcaddr ∧
    (enterGate s).slvaddr = s.slvaddr ∧ (enterGate s).height = s.height ∧ (enterGate s).angle = s.angle ∧
    (enterGate s).cfg = s.cfg ∧ (enterGate s).lrt = s.lrt ∧ (enterGate s).mphase = .gate ∧
    (enterGate s).mcmd = s.mcmd ∧ (enterGate s).gdl = gateDeadline s.env.baud s.env.now s.lrt ∧
    (enterGate s).txbuf = s.txbuf ∧ (enterGate s).mres = s.mres ∧ (enterGate s).rphase = s.rphase ∧
    (enterGate s).rxbuf = s.rxbuf ∧ (enterGate s).rstat = s.rstat ∧ (enterGate s).env = s.env := by
  simp [enterGate]

/-- Recording a read writes `LRT` (R134). -/
@[simp] theorem recordRead_fields :
    (recordRead s).params = s.params ∧ (recordRead s).devtype = s.devtype ∧ (recordRead s).srcaddr = s.srcaddr ∧
    (recordRead s).slvaddr = s.slvaddr ∧ (recordRead s).height = s.height ∧ (recordRead s).angle = s.angle ∧
    (recordRead s).cfg = s.cfg ∧ (recordRead s).lrt = some s.env.now ∧ (recordRead s).mphase = s.mphase ∧
    (recordRead s).mcmd = s.mcmd ∧ (recordRead s).gdl = s.gdl ∧ (recordRead s).txbuf = s.txbuf ∧
    (recordRead s).mres = s.mres ∧ (recordRead s).rphase = s.rphase ∧ (recordRead s).rxbuf = s.rxbuf ∧
    (recordRead s).rstat = s.rstat ∧ (recordRead s).env = s.env := by
  simp [recordRead]

/-- Recording a decoded request writes `RSTAT` (R175). -/
@[simp] theorem recordRequest_fields (c : Cmd) :
    (recordRequest c s).params = s.params ∧ (recordRequest c s).devtype = s.devtype ∧
    (recordRequest c s).srcaddr = s.srcaddr ∧ (recordRequest c s).slvaddr = s.slvaddr ∧
    (recordRequest c s).height = s.height ∧ (recordRequest c s).angle = s.angle ∧
    (recordRequest c s).cfg = s.cfg ∧ (recordRequest c s).lrt = s.lrt ∧ (recordRequest c s).mphase = s.mphase ∧
    (recordRequest c s).mcmd = s.mcmd ∧ (recordRequest c s).gdl = s.gdl ∧ (recordRequest c s).txbuf = s.txbuf ∧
    (recordRequest c s).mres = s.mres ∧ (recordRequest c s).rphase = s.rphase ∧
    (recordRequest c s).rxbuf = s.rxbuf ∧ (recordRequest c s).rstat = { code := .ok, lastCmd := some c } ∧
    (recordRequest c s).env = s.env := by
  simp [recordRequest]

/-- RESPOND's first step empties `RXBUF` and returns to `R_ACCUM` (R175). -/
@[simp] theorem takeFrame_fields :
    (takeFrame s).params = s.params ∧ (takeFrame s).devtype = s.devtype ∧ (takeFrame s).srcaddr = s.srcaddr ∧
    (takeFrame s).slvaddr = s.slvaddr ∧ (takeFrame s).height = s.height ∧ (takeFrame s).angle = s.angle ∧
    (takeFrame s).cfg = s.cfg ∧ (takeFrame s).lrt = s.lrt ∧ (takeFrame s).mphase = s.mphase ∧
    (takeFrame s).mcmd = s.mcmd ∧ (takeFrame s).gdl = s.gdl ∧ (takeFrame s).txbuf = s.txbuf ∧
    (takeFrame s).mres = s.mres ∧ (takeFrame s).rphase = .accum ∧ (takeFrame s).rxbuf = [] ∧
    (takeFrame s).rstat = s.rstat ∧ (takeFrame s).env = s.env := by
  simp [takeFrame]

/-- Taking an input off touches the inputs and nothing else. -/
@[simp] theorem dropInput_fields (rest : List Input) :
    (dropInput rest s).params = s.params ∧ (dropInput rest s).devtype = s.devtype ∧
    (dropInput rest s).srcaddr = s.srcaddr ∧ (dropInput rest s).slvaddr = s.slvaddr ∧
    (dropInput rest s).height = s.height ∧ (dropInput rest s).angle = s.angle ∧ (dropInput rest s).cfg = s.cfg ∧
    (dropInput rest s).lrt = s.lrt ∧ (dropInput rest s).mphase = s.mphase ∧ (dropInput rest s).mcmd = s.mcmd ∧
    (dropInput rest s).gdl = s.gdl ∧ (dropInput rest s).txbuf = s.txbuf ∧ (dropInput rest s).mres = s.mres ∧
    (dropInput rest s).rphase = s.rphase ∧ (dropInput rest s).rxbuf = s.rxbuf ∧
    (dropInput rest s).rstat = s.rstat ∧ (dropInput rest s).env.now = s.env.now ∧
    (dropInput rest s).env.baud = s.env.baud ∧ (dropInput rest s).env.inbound = s.env.inbound ∧
    (dropInput rest s).env.trace = s.env.trace ∧ (dropInput rest s).env.reports = s.env.reports ∧
    (dropInput rest s).env.inputs = rest ∧ (dropInput rest s).env.draws = s.env.draws ∧
    (dropInput rest s).env.gateCall = s.env.gateCall := by
  simp [dropInput]

/-- Bytes from the line touch the inbound stream and nothing else (R51). -/
@[simp] theorem deliver_fields (bs : List Byte) :
    (deliver bs s).params = s.params ∧ (deliver bs s).devtype = s.devtype ∧ (deliver bs s).srcaddr = s.srcaddr ∧
    (deliver bs s).slvaddr = s.slvaddr ∧ (deliver bs s).height = s.height ∧ (deliver bs s).angle = s.angle ∧
    (deliver bs s).cfg = s.cfg ∧ (deliver bs s).lrt = s.lrt ∧ (deliver bs s).mphase = s.mphase ∧
    (deliver bs s).mcmd = s.mcmd ∧ (deliver bs s).gdl = s.gdl ∧ (deliver bs s).txbuf = s.txbuf ∧
    (deliver bs s).mres = s.mres ∧ (deliver bs s).rphase = s.rphase ∧ (deliver bs s).rxbuf = s.rxbuf ∧
    (deliver bs s).rstat = s.rstat ∧ (deliver bs s).env.now = s.env.now ∧ (deliver bs s).env.baud = s.env.baud ∧
    (deliver bs s).env.trace = s.env.trace ∧ (deliver bs s).env.reports = s.env.reports ∧
    (deliver bs s).env.inputs = s.env.inputs ∧ (deliver bs s).env.draws = s.env.draws ∧
    (deliver bs s).env.gateCall = s.env.gateCall ∧ (deliver bs s).env.inbound = s.env.inbound ++ bs := by
  simp [deliver]

/-- The surroundings after a failed transport call (U6). -/
@[simp] theorem envAfterError_fields (n : Nat) (t : State) :
    (envAfterError n s t).now = t.env.now ∧ (envAfterError n s t).baud = t.env.baud ∧
    (envAfterError n s t).inputs = t.env.inputs ∧ (envAfterError n s t).reports = s.env.reports ∧
    (envAfterError n s t).gateCall = false ∧ (envAfterError n s t).draws = t.env.draws + 1 ∧
    (envAfterError n s t).inbound = Config.unreadAfterError t.env.draws ∧
    (envAfterError n s t).trace =
      s.env.trace ++ (callsOf s t).take n ++ [.broken (Config.sentAfterError t.env.draws)] := by
  simp [envAfterError]

end Sys2Proof.Machine
end

