-- ==== Sys2Proof/Laws/Ops.lean ====
section
/-! SUPPORT. Sys2Proof/Laws/Ops.lean: what an operation and a step can do, said once: `exec_effect` names every way an
instruction can end, `turn_effect` every step the block takes by itself, and `step_cases` what a step is made of. A
proof about every step takes the cases of these and uses the field lemmas of Laws/State.lean. -/

namespace Sys2Proof.Machine

open Config (Params)

theorem next_inj {s t : State} (h : (Host.Outcome.next s : Host.Outcome State Fault Refusal) = .next t) : s = t := by
  injection h

/-! ### The shared operations by their parts -/

@[simp] theorem tWrite_eq (bs : List Byte) (s : State) : tWrite bs s = emit (.wrote s.env.now bs) s := rfl

@[simp] theorem sampleBaud_eq (s : State) : sampleBaud s = emit (.baud s.env.baud) s := rfl

@[simp] theorem failTransaction_eq (f : Failure) (s : State) :
    failTransaction f s = raiseFailure f (closeIfRequested s) := rfl

@[simp] theorem refuseHost_eq (r : HostRefusal) (s : State) : refuseHost r s = report (.refused r) s := rfl

/-- The outbound stream after a traced event. -/
theorem outbound_of_trace {s t : State} {new : List TEvent} (h : t.env.trace = s.env.trace ++ new) :
    outbound t = outbound s ++ new.flatMap TEvent.written := by
  simp [outbound, h]

/-- A read returns the oldest unread bytes and leaves the rest (R53). -/
theorem readBytes_append (n k : Nat) (s : State) :
    readBytes n k s ++ s.env.inbound.drop (min k n) = s.env.inbound := by
  simp [readBytes]

theorem readBytes_length_le (n k : Nat) (s : State) : (readBytes n k s).length ≤ n := by
  simp only [readBytes, List.length_take]; omega

/-- The encoding of a transaction exists exactly when the range is not inverted (R100, R141). -/
theorem encodeRequest_ok {d : Config.Delims} {c : Command} {das dae dt sa : Byte} (h : das ≤ dae) :
    encodeRequest d c das dae dt sa = .ok (frameOf d (requestFields c das dae dt sa)) := by
  unfold encodeRequest
  rw [if_neg (by bv_omega)]

theorem encodeRequest_error {d : Config.Delims} {c : Command} {das dae dt sa : Byte} (h : dae < das) :
    encodeRequest d c das dae dt sa = .error (.invalidAddressRange das dae) := by
  simp [encodeRequest, h]

/-- The deadline never lies before the time of entry (R132). -/
theorem gateWait_nonneg (b : Int) (t0 : Time) (l : Option Time) : 0 ≤ gateWait b t0 l := by
  unfold gateWait
  split
  · exact le_refl _
  · split
    · exact le_refl _
    · exact not_lt.1 ‹_›

/-- `GDL` in closed form (R131, R132, R135). -/
theorem gateDeadline_eq (b : Int) (t0 : Time) (l : Option Time) :
    gateDeadline b t0 l = match l with
      | none => t0
      | some t => max t0 (t + 77 / (2 * (b : Rat))) := by
  cases l with
  | none => simp [gateDeadline, gateWait]
  | some t =>
    have e : silentPeriod b = 77 / (2 * (b : Rat)) := by
      simp only [silentPeriod, Config.bitsPerChar, Config.silentChars]
      rw [show (11 : Rat) * (7 / 2) = 77 / 2 by norm_num, div_div]
    simp only [gateDeadline, gateWait, e]
    split
    · rw [max_eq_left] <;> linarith
    · rw [max_eq_right] <;> linarith

/-! ### What an accepted Execute can do -/

/-- The acceptance test of Execute (R140). -/
theorem acceptWhenIdle_cases (start : State → State) (s : State) :
    (s.params.role = .slave ∧ acceptWhenIdle start s = report (.refused .wrongRole) s) ∨
    (s.params.role = .master ∧ s.mphase ≠ .idle ∧ acceptWhenIdle start s = report (.refused .busy) s) ∨
    (s.params.role = .master ∧ s.mphase = .idle ∧ acceptWhenIdle start s = start s) := by
  unfold acceptWhenIdle
  cases h : s.params.role <;> simp
  by_cases h2 : s.mphase = .idle <;> simp [h2]

/-- The operands latched by an accepted Execute (R140). -/
abbrev latched (cmd : Cmd) (das dae h a : Byte) (s : State) : State :=
  { s with mcmd := { cmd := cmd, das := das, dae := dae, height := h, angle := a } }

/-- The request of the latched operands in `TXBUF` (R142). -/
abbrev encoded (cmd : Cmd) (das dae h a : Byte) (s : State) : State :=
  { latched cmd das dae h a s with
    txbuf := frameOf s.params.delims (requestFields (commandOf cmd h a) das dae s.devtype s.srcaddr) }

/-- `n` free values drawn. -/
abbrev drawn (n : Nat) (s : State) : State :=
  { s with env := { s.env with draws := s.env.draws + n } }

/-- An accepted Execute fails on the range, fails on the baud rate, or enters the gate (R141, R133, R143). -/
theorem beginTransaction_cases (cmd : Cmd) (das dae h a : Byte) (s : State) :
    (dae < das ∧ beginTransaction cmd das dae h a s =
      raiseFailure (.invalidAddressRange das dae) (latched cmd das dae h a s)) ∨
    (das ≤ dae ∧ s.env.baud ≤ 0 ∧ beginTransaction cmd das dae h a s =
      raiseFailure (.invalidBaudRate s.env.baud) (closeIfRequested (emit (.baud s.env.baud)
        (openIfRequested (encoded cmd das dae h a s))))) ∨
    (das ≤ dae ∧ 0 < s.env.baud ∧ beginTransaction cmd das dae h a s =
      enterGate (emit (.baud s.env.baud) (openIfRequested (encoded cmd das dae h a s)))) := by
  unfold beginTransaction
  by_cases hd : dae < das
  · left; simp [hd, encodeRequest]
  · right
    have hle : das ≤ dae := by bv_omega
    simp only [encodeRequest_ok hle]
    by_cases hb : s.env.baud ≤ 0
    · left; simp [hb, hle]
    · right
      have hb' : 0 < s.env.baud := by omega
      simp [hb, hb', hle]

/-! ### What an instruction can do -/

/-- RESPOND is at the request `r`, or the request `i` is presented by itself; `u` is the state it acts on (R175). -/
inductive Requested (i : Instr) (s : State) (q : Instr) : State → Prop where
  | presented : i = q → i.dir? ≠ none → Requested i s q s
  | responded (r : Record) : i = .respond → s.rphase = .ready → decodeFrame s.params.delims .req s.rxbuf = .ok r →
      r.toInstr = q → Requested i s q (takeFrame s)

/-- Every way an instruction can end. -/
inductive Effect : Instr → State → State → Prop where
  /-- It is not enabled in this role or phase, or there is nothing to do. -/
  | nothing (i s) : Effect i s s
  /-- A codec operation returns, or a host operation is refused. -/
  | told (i s r) : Effect i s (report r s)
  /-- An Execute is accepted, with `n` free values drawn first, and its range is inverted. -/
  | rangeFailed (i s cmd das dae h a n) : s.params.role = .master → s.mphase = .idle → dae < das →
      Effect i s (raiseFailure (.invalidAddressRange das dae) (latched cmd das dae h a (drawn n s)))
  | baudFailed (i s cmd das dae h a n) : s.params.role = .master → s.mphase = .idle → das ≤ dae → s.env.baud ≤ 0 →
      Effect i s (raiseFailure (.invalidBaudRate s.env.baud) (closeIfRequested (emit (.baud s.env.baud)
        (openIfRequested (encoded cmd das dae h a (drawn n s))))))
  | gateEntered (i s cmd das dae h a n) : s.params.role = .master → s.mphase = .idle → das ≤ dae → 0 < s.env.baud →
      Effect i s (enterGate (emit (.baud s.env.baud) (openIfRequested (encoded cmd das dae h a (drawn n s)))))
  | gateFailed (s) : s.params.role = .master → s.mphase = .idle → s.env.baud ≤ 0 →
      Effect .gate s (raiseFailure (.invalidBaudRate s.env.baud) (emit (.baud s.env.baud) s))
  | gateCalled (s) : s.params.role = .master → s.mphase = .idle → 0 < s.env.baud →
      Effect .gate s { enterGate (emit (.baud s.env.baud) s) with
        env := { (enterGate (emit (.baud s.env.baud) s)).env with gateCall := true } }
  | recorded (s) : s.params.role = .master → s.mphase = .idle → Effect .gateRecord s (recordRead s)
  /-- A frame ends the GET of the master that has it in hand. -/
  | replied (i s h a) : i.dir? ≠ none → s.params.role = .master → s.mphase = .read →
      Effect i s (completeGet h a (recordRead s))
  | responseFailed (i s c) : i.dir? ≠ none → s.params.role = .master → s.mphase = .read →
      Effect i s (raiseFailure (.malformedFrame c) (closeIfRequested (recordRead s)))
  | replyRejected (i s) : i.dir? ≠ none → s.params.role = .slave →
      Effect i s { s with rstat := { s.rstat with code := .malformedFrame } }
  | frameEnded (s b) : s.params.role = .slave → s.rphase = .fcc →
      Effect (.receive b) s { s with rxbuf := s.rxbuf ++ [b], rphase := .ready }
  | etxReceived (s) : s.params.role = .slave → s.rphase = .accum →
      Effect (.receive s.params.delims.etx) s { s with rxbuf := s.rxbuf ++ [s.params.delims.etx], rphase := .fcc }
  | overflowed (s b) : s.params.role = .slave → s.rphase = .accum → Effect (.receive b) s (rxOverflows s)
  | accumulated (s b) : s.params.role = .slave → s.rphase = .accum → b ≠ s.params.delims.etx →
      s.rxbuf.length + 1 < s.params.rxMaxLen - 1 → Effect (.receive b) s { s with rxbuf := s.rxbuf ++ [b] }
  | rejected (s) : s.params.role = .slave → s.rphase = .ready → Effect .respond s (rejectFrame (takeFrame s))
  | acted (i s q u c) : s.params.role = .slave → Requested i s q u → Effect i s (recordRequest c u)
  | stored (i s u) (das dae cw sax sa h a : Byte) : s.params.role = .slave →
      Requested i s (.setRequest das dae cw sax sa h a) u → covers das dae s.slvaddr = true →
      Effect i s { recordRequest .set u with height := updated s.height h, angle := updated s.angle a }
  | answered (i s u) (cw sax sa : Byte) : s.params.role = .slave →
      Requested i s (.getRequest s.slvaddr s.slvaddr cw sax sa) u →
      Effect i s (emit (.wrote s.env.now (encodeReply s.params.delims sa s.devtype s.srcaddr s.height s.angle))
        (recordRequest .get u))
  | addressSet (s v b) : slaveAddress? v = some b → Effect (.setSlaveAddress v) s (report .ok { s with slvaddr := b })
  | resetTo (s) : Effect .reset s (State.resetWith s.params { s.env with gateCall := false })

theorem effect_getReply {i : Instr} {da cw sax sa h a : Byte} {s t : State} (hi : i.dir? ≠ none)
    (hh : execGetReply da cw sax sa h a s = .next t) : Effect i s t := by
  unfold execGetReply at hh
  split at hh
  · split at hh <;> obtain rfl := next_inj hh
    · exact .replied _ _ _ _ hi ‹_› ‹_›
    · exact .nothing _ _
  · obtain rfl := next_inj hh; exact .replyRejected _ _ hi ‹_›

/-- The response of step 7 ends the GET one way or the other (R148). -/
theorem handleResponse_cases {raw : List Byte} {s t : State} (h : handleResponse raw s = .next t) :
    (∃ c, t = failTransaction (.malformedFrame c) (recordRead s)) ∨
    (∃ da cw sax sa hh a, execGetReply da cw sax sa hh a s = .next t) := by
  unfold handleResponse at h
  split at h
  · left; exact ⟨_, (next_inj h).symm⟩
  · right; exact ⟨_, _, _, _, _, _, h⟩
  · left; exact ⟨_, (next_inj h).symm⟩
  · left; exact ⟨_, (next_inj h).symm⟩
  · left; exact ⟨_, (next_inj h).symm⟩

theorem effect_requestAtMaster {i : Instr} {wire : List Byte} {s t : State} (hi : i.dir? ≠ none)
    (hr : s.params.role = .master) (h : requestAtMaster wire s = .next t) : Effect i s t := by
  unfold requestAtMaster at h
  split at h
  · obtain ⟨c, rfl⟩ | ⟨_, _, _, _, _, _, h⟩ := handleResponse_cases h
    · exact .responseFailed _ _ _ hi hr ‹_›
    · exact effect_getReply hi h
  · obtain rfl := next_inj h; exact .nothing _ _

section Requests

variable {i : Instr} {s u t : State}

/-- A request acted on, at a slave, from the state `u` that RESPOND left or that it was presented in. -/
theorem effect_stopRequest {das dae cw sax sa : Byte} (hr : s.params.role = .slave)
    (hq : Requested i s (.stopRequest das dae cw sax sa) u) (h : execStopRequest das dae cw sax sa u = .next t) :
    Effect i s t := by
  have hu : u.params.role = .slave := by cases hq <;> simpa using hr
  simp only [execStopRequest, hu] at h
  obtain rfl := next_inj h
  exact .acted _ _ _ _ _ hr hq

theorem effect_setRequest {das dae cw sax sa hh a : Byte} (hr : s.params.role = .slave)
    (hq : Requested i s (.setRequest das dae cw sax sa hh a) u)
    (h : execSetRequest das dae cw sax sa hh a u = .next t) : Effect i s t := by
  have hu : u.params.role = .slave ∧ u.slvaddr = s.slvaddr ∧ u.height = s.height ∧ u.angle = s.angle := by
    cases hq <;> simpa using hr
  obtain ⟨hu, h1, h2, h3⟩ := hu
  simp only [execSetRequest, hu] at h
  split at h <;> obtain rfl := next_inj h
  · rename_i hc
    rw [show (recordRequest .set u).slvaddr = s.slvaddr from h1] at hc
    rw [show (recordRequest .set u).height = s.height from h2, show (recordRequest .set u).angle = s.angle from h3]
    exact .stored _ _ _ _ _ _ _ _ _ _ hr hq hc
  · exact .acted _ _ _ _ _ hr hq

theorem effect_getRequest {das dae cw sax sa : Byte} (hr : s.params.role = .slave)
    (hq : Requested i s (.getRequest das dae cw sax sa) u) (h : execGetRequest das dae cw sax sa u = .next t) :
    Effect i s t := by
  have hu : u.params = s.params ∧ u.slvaddr = s.slvaddr ∧ u.height = s.height ∧ u.angle = s.angle ∧
      u.devtype = s.devtype ∧ u.srcaddr = s.srcaddr ∧ u.env = s.env := by
    cases hq <;> simp
  obtain ⟨h0, h1, h2, h3, h4, h5, h6⟩ := hu
  simp only [execGetRequest, h0, hr, recordRequest_fields, h1, h2, h3, h4, h5, h6, tWrite_eq] at h
  split at h <;> obtain rfl := next_inj h
  · rename_i hm
    simp only [addressesOnly, Bool.and_eq_true, beq_iff_eq] at hm
    obtain ⟨rfl, rfl⟩ := hm
    exact .answered _ _ _ _ _ _ hr hq
  · exact .acted _ _ _ _ _ hr hq

end Requests

theorem effect_respond {s t : State} (h : execRespond s = .next t) : Effect .respond s t := by
  unfold execRespond at h
  split at h
  · rename_i hr hp
    split at h
    · obtain rfl := next_inj h; exact .rejected _ hr hp
    · rename_i r hd
      unfold actOn at h
      split at h
      · exact effect_stopRequest hr (.responded _ rfl hp hd rfl) h
      · exact effect_setRequest hr (.responded _ rfl hp hd rfl) h
      · exact effect_getRequest hr (.responded _ rfl hp hd rfl) h
      · simp only [execGetReply, takeFrame_fields, hr] at h
        obtain rfl := next_inj h
        exact .rejected _ hr hp
  all_goals obtain rfl := next_inj h; exact .nothing _ _

/-- A transaction begins, with `n` free values drawn first. -/
theorem effect_begin {i : Instr} {s : State} (cmd : Cmd) (das dae h a : Byte) (n : Nat)
    (hr : s.params.role = .master) (hm : s.mphase = .idle) :
    Effect i s (beginTransaction cmd das dae h a (drawn n s)) := by
  obtain ⟨h1, e⟩ | ⟨h1, h2, e⟩ | ⟨h1, h2, e⟩ := beginTransaction_cases cmd das dae h a (drawn n s) <;> rw [e]
  · exact .rangeFailed _ _ _ _ _ _ _ _ hr hm h1
  · exact .baudFailed _ _ _ _ _ _ _ _ hr hm h1 h2
  · exact .gateEntered _ _ _ _ _ _ _ _ hr hm h1 h2

theorem effect_accept {i : Instr} {s t : State} {start : State → State}
    (hs : s.params.role = .master → s.mphase = .idle → Effect i s (start s))
    (h : Host.Outcome.next (acceptWhenIdle start s) = (.next t : Host.Outcome State Fault Refusal)) :
    Effect i s t := by
  obtain rfl := next_inj h
  obtain ⟨-, e⟩ | ⟨-, -, e⟩ | ⟨h1, h2, e⟩ := acceptWhenIdle_cases start s <;> rw [e]
  · exact .told _ _ _
  · exact .told _ _ _
  · exact hs h1 h2

/-- Every way an instruction can end. -/
theorem exec_effect {i : Instr} {s t : State} (h : exec i s = .next t) : Effect i s t := by
  cases i <;> simp only [exec] at h
  case stopRequest =>
    cases hr : s.params.role with
    | slave => exact effect_stopRequest hr (.presented rfl nofun) h
    | master => simp only [execStopRequest, hr] at h; exact effect_requestAtMaster nofun hr h
  case setRequest =>
    cases hr : s.params.role with
    | slave => exact effect_setRequest hr (.presented rfl nofun) h
    | master => simp only [execSetRequest, hr] at h; exact effect_requestAtMaster nofun hr h
  case getRequest =>
    cases hr : s.params.role with
    | slave => exact effect_getRequest hr (.presented rfl nofun) h
    | master => simp only [execGetRequest, hr] at h; exact effect_requestAtMaster nofun hr h
  case getReply => exact effect_getReply nofun h
  case encode => unfold execEncode at h; split at h <;> obtain rfl := next_inj h <;> exact .told _ _ _
  case encodeReply => obtain rfl := next_inj h; exact .told _ _ _
  case decode => unfold execDecode at h; split at h <;> obtain rfl := next_inj h <;> exact .told _ _ _
  case gate =>
    refine effect_accept (fun hr hm => ?_) h
    simp only [callGate, sampleBaud_eq, emit_fields]
    split
    · exact .gateFailed _ hr hm ‹_›
    · exact .gateCalled _ hr hm (by omega)
  case gateRecord => exact effect_accept (fun hr hm => .recorded _ hr hm) h
  case execute cmd das dae hh a => exact effect_accept (effect_begin cmd das dae hh a 0) h
  case stop das dae => exact effect_accept (effect_begin _ _ _ _ _ 2) h
  case set das dae hh a => exact effect_accept (effect_begin _ _ _ _ _ 0) h
  case get address => exact effect_accept (effect_begin _ _ _ _ _ 2) h
  case receive b =>
    unfold execReceive at h
    split at h
    · obtain rfl := next_inj h; exact .frameEnded _ _ ‹_› ‹_›
    · split at h
      · obtain rfl := next_inj h; subst b; exact .etxReceived _ ‹_› ‹_›
      · split at h <;> obtain rfl := next_inj h
        · exact .overflowed _ _ ‹_› ‹_›
        · exact .accumulated _ _ ‹_› ‹_› ‹_› (by omega)
    · obtain rfl := next_inj h; exact .nothing _ _
    · obtain rfl := next_inj h; exact .nothing _ _
  case respond => exact effect_respond h
  case setSlaveAddress v =>
    unfold execSetSlaveAddress at h
    split at h <;> obtain rfl := next_inj h
    · exact .addressSet _ _ _ ‹_›
    · exact .told _ _ _
  case reset => obtain rfl := next_inj h; exact .resetTo _

/-! ### What the block does by itself, and a step -/

/-- Every way a turn of the block can end (R151, R182). -/
inductive TurnEffect (k : Nat) : State → State → Prop where
  | waits (s) : TurnEffect k s s
  | responds (s t) : s.params.role = .slave → s.rphase = .ready → Effect .respond s t → TurnEffect k s t
  | readsNothing (s) : s.params.role = .slave → s.rphase ≠ .ready → TurnEffect k s (tRead 1 k s)
  | readsByte (s t b) : s.params.role = .slave → s.rphase ≠ .ready → Effect (.receive b) (tRead 1 k s) t →
      TurnEffect k s t
  | releases (s) : s.params.role = .master → s.mphase = .gate → s.gdl ≤ s.env.now → s.env.gateCall = true →
      TurnEffect k s (gateReleases s)
  | writesForEcho (s) : s.params.role = .master → s.mphase = .gate → s.gdl ≤ s.env.now → s.env.gateCall = false →
      s.cfg.localEcho = true → TurnEffect k s { emit (.wrote s.env.now s.txbuf) s with mphase := .echo }
  | writesForReply (s) : s.params.role = .master → s.mphase = .gate → s.gdl ≤ s.env.now → s.env.gateCall = false →
      s.mcmd.cmd = .get → TurnEffect k s { emit (.wrote s.env.now s.txbuf) s with mphase := .read }
  | writesLast (s) : s.params.role = .master → s.mphase = .gate → s.gdl ≤ s.env.now → s.env.gateCall = false →
      TurnEffect k s (completeTransaction (emit (.wrote s.env.now s.txbuf) s))
  | echoFails (s) : s.params.role = .master → s.mphase = .echo →
      TurnEffect k s (raiseFailure .localEchoMismatch (closeIfRequested (tRead s.txbuf.length k s)))
  | echoForReply (s) : s.params.role = .master → s.mphase = .echo → s.mcmd.cmd = .get →
      TurnEffect k s { tRead s.txbuf.length k s with mphase := .read }
  | echoLast (s) : s.params.role = .master → s.mphase = .echo →
      TurnEffect k s (completeTransaction (tRead s.txbuf.length k s))
  | noResponse (s) : s.params.role = .master → s.mphase = .read → readBytes s.params.respWindow k s = [] →
      TurnEffect k s (raiseFailure .noResponse (closeIfRequested (tRead s.params.respWindow k s)))
  | badResponse (s c) : s.params.role = .master → s.mphase = .read → readBytes s.params.respWindow k s ≠ [] →
      TurnEffect k s
        (raiseFailure (.malformedFrame c) (closeIfRequested (recordRead (tRead s.params.respWindow k s))))
  | replies (s h a) : s.params.role = .master → s.mphase = .read → readBytes s.params.respWindow k s ≠ [] →
      TurnEffect k s (completeGet h a (recordRead (tRead s.params.respWindow k s)))

theorem turn_effect {k : Nat} {s t : State} (hh : turn k s = .next t) : TurnEffect k s t := by
  unfold turn at hh
  split at hh
  · rename_i hr
    split at hh
    · exact .responds _ _ hr ‹_› (effect_respond hh)
    · split at hh
      · obtain rfl := next_inj hh; exact .readsNothing _ hr ‹_›
      · exact .readsByte _ _ _ hr ‹_› (exec_effect (i := .receive _) hh)
  · rename_i hr
    split at hh
    · obtain rfl := next_inj hh; exact .waits _
    · rename_i hm
      split at hh
      · obtain rfl := next_inj hh; exact .waits _
      · have hd := not_lt.1 ‹¬ s.env.now < s.gdl›
        split at hh
        · obtain rfl := next_inj hh; exact .releases _ hr hm hd ‹_›
        · have hg : s.env.gateCall = false := by simpa using ‹¬ s.env.gateCall = true›
          obtain rfl := next_inj hh
          simp only [gateOpens, tWrite_eq, emit_fields]
          split_ifs with h1 h2
          · exact .writesForEcho _ hr hm hd hg h1
          · exact .writesForReply _ hr hm hd hg h2
          · exact .writesLast _ hr hm hd hg
    · rename_i hm
      obtain rfl := next_inj hh
      simp only [echoReturns, tRead_fields, failTransaction_eq]
      split_ifs with h1 h2
      · exact .echoFails _ hr hm
      · exact .echoForReply _ hr hm h2
      · exact .echoLast _ hr hm
    · rename_i hm
      simp only [readReturns, failTransaction_eq] at hh
      split at hh
      · obtain rfl := next_inj hh; exact .noResponse _ hr hm ‹_›
      · obtain ⟨c, rfl⟩ | ⟨_, _, _, _, h, a, hh⟩ := handleResponse_cases hh
        · simp only [failTransaction_eq]
          exact .badResponse _ _ hr hm ‹_›
        · simp only [execGetReply, tRead_fields, hr, hm, if_true] at hh
          obtain rfl := next_inj hh
          exact .replies _ _ _ hr hm ‹_›

/-! ### A transport call that fails -/

theorem callsOf_of_trace {s t : State} {new : List TEvent} (h : t.env.trace = s.env.trace ++ new) :
    callsOf s t = new := by
  simp [callsOf, h]

/-- What a failing call makes of a step (U6). -/
theorem failAtCall_cases (n : Nat) (s t : State) :
    ((callsOf s t).length ≤ n ∧ failAtCall n s t = t) ∨
    (n < (callsOf s t).length ∧ s.params.role = .master ∧ failAtCall n s t = report .transportFailed
      { t with
        lrt := s.lrt, gdl := s.gdl, mphase := .idle, mres := { s.mres with code := .transportError }
        env := envAfterError n s t }) ∨
    (n < (callsOf s t).length ∧ s.params.role = .slave ∧ s.rphase = .ready ∧
      failAtCall n s t = { t with env := envAfterError n s t }) ∨
    (n < (callsOf s t).length ∧ s.params.role = .slave ∧ s.rphase ≠ .ready ∧
      failAtCall n s t = { s with env := envAfterError n s t }) := by
  unfold failAtCall
  split
  · exact .inl ⟨‹_›, rfl⟩
  · have h := not_le.1 ‹_›
    unfold endAtFailingCall
    cases hr : s.params.role
    · exact .inr (.inl ⟨h, rfl, rfl⟩)
    · by_cases hp : s.rphase = .ready
      · exact .inr (.inr (.inl ⟨h, rfl, hp, if_pos hp⟩))
      · exact .inr (.inr (.inr ⟨h, rfl, hp, if_neg hp⟩))

/-- A step that makes no transport call does not fail. -/
theorem failAtCall_of_no_call {n : Nat} {s t : State} (h : t.env.trace = s.env.trace) : failAtCall n s t = t := by
  have e : callsOf s t = [] := callsOf_of_trace (by simpa using h)
  exact if_pos (by simp [e])

theorem failing_next {n : Nat} {s v : State} {o : Host.Outcome State Fault Refusal} (h : failing n s o = .next v) :
    ∃ t, o = .next t ∧ v = failAtCall n s t := by
  cases o with
  | next t => exact ⟨t, rfl, (next_inj h).symm⟩
  | fault f => cases h
  | refused r => cases h

/-- An operation is run, and a wire frame goes to the inbound stream. -/
theorem present_cases {i : Instr} {s t : State} (h : present i s = .next t) :
    (∃ wire, encode s.params.delims i = some wire ∧ t = deliver wire s) ∨ (i.dir? = none ∧ exec i s = .next t) := by
  unfold present at h
  split at h
  · exact .inl ⟨_, ‹_›, (next_inj h).symm⟩
  · exact .inr ⟨encode_eq_none.1 ‹_›, h⟩

/-- What a step is made of. -/
inductive StepEffect : State → State → Prop where
  | own (s t k) : s.env.inputs = [] → TurnEffect k { s with env := { s.env with draws := s.env.draws + 1 } } t →
      StepEffect s t
  | turned (s t k rest) : s.env.inputs = .turn k :: rest → TurnEffect k (dropInput rest s) t → StepEffect s t
  | turnFailed (s t n k rest) : s.env.inputs = .turnFails n k :: rest → TurnEffect k (dropInput rest s) t →
      StepEffect s (failAtCall n (dropInput rest s) t)
  | ran (s t i rest) : s.env.inputs = .op i :: rest → i.dir? = none → Effect i (dropInput rest s) t → StepEffect s t
  | runFailed (s t n i rest) : s.env.inputs = .opFails n i :: rest → i.dir? = none → Effect i (dropInput rest s) t →
      StepEffect s (failAtCall n (dropInput rest s) t)
  | framed (s i wire rest) : (s.env.inputs = .op i :: rest ∨ ∃ n, s.env.inputs = .opFails n i :: rest) →
      encode s.params.delims i = some wire → StepEffect s (deliver wire (dropInput rest s))
  | cfgRefused (s v rest) : s.env.inputs = .writeCfg v :: rest → s.mphase ≠ .idle →
      StepEffect s (report (.refused .busy) (dropInput rest s))
  | cfgWritten (s v rest) : s.env.inputs = .writeCfg v :: rest → s.mphase = .idle →
      StepEffect s (report .ok { dropInput rest s with cfg := cfgOfBits v })
  | arrived (s bs rest) : s.env.inputs = .arrive bs :: rest → StepEffect s (deliver bs (dropInput rest s))
  | clocked (s c rest) : s.env.inputs = .clock c :: rest → StepEffect s (setClock c (dropInput rest s))
  | baudSet (s b rest) : s.env.inputs = .setBaud b :: rest →
      StepEffect s { dropInput rest s with env := { (dropInput rest s).env with baud := b } }

theorem step_effect {s t : State} (h : step s = .next t) : StepEffect s t := by
  unfold step at h
  split at h
  · exact .own _ _ _ ‹_› (turn_effect h)
  · rename_i e rest hi
    cases e <;> simp only [applyInput] at h
    case op i =>
      obtain ⟨wire, he, rfl⟩ | ⟨hd, h⟩ := present_cases h
      · exact .framed _ _ _ _ (.inl hi) he
      · exact .ran _ _ _ _ hi hd (exec_effect h)
    case opFails n i =>
      obtain ⟨u, hu, rfl⟩ := failing_next h
      obtain ⟨wire, he, rfl⟩ | ⟨hd, hu⟩ := present_cases hu
      · rw [failAtCall_of_no_call (by simp)]
        exact .framed _ _ _ _ (.inr ⟨n, hi⟩) he
      · exact .runFailed _ _ _ _ _ hi hd (exec_effect hu)
    case writeCfg v =>
      obtain rfl := next_inj h
      simp only [writeCfg, dropInput_fields, refuseHost_eq]
      split_ifs with hm
      · exact .cfgRefused _ _ _ hi hm
      · exact .cfgWritten _ _ _ hi (not_not.1 hm)
    case arrive => obtain rfl := next_inj h; exact .arrived _ _ _ hi
    case clock => obtain rfl := next_inj h; exact .clocked _ _ _ hi
    case setBaud => obtain rfl := next_inj h; exact .baudSet _ _ _ hi
    case turn => exact .turned _ _ _ _ hi (turn_effect h)
    case turnFails n k =>
      obtain ⟨u, hu, rfl⟩ := failing_next h
      exact .turnFailed _ _ _ _ _ hi (turn_effect hu)
    case collision => cases h

end Sys2Proof.Machine
end

