-- ==== Sys2Proof/Laws/PerInstr.lean ====
section
/-! SUPPORT. Sys2Proof/Laws/PerInstr.lean: one statement per constructor of `Instr`, over the instruction as syntax:
which instructions have a wire frame, and how long it is. -/

namespace Sys2Proof.Laws

open Config (Delims)

/-- "operations whose operands are values rather than bits" have no frame, and a wire-frame row has one of 12 to 21
bytes, whatever its fields hold (R82, R83, R88). -/
def WireFrame.Statement (i : Instr) : Prop :=
  ∀ d : Delims, match i.dir? with
    | none => encode d i = none
    | some _ => ∃ f, encode d i = some f ∧ 12 ≤ f.length ∧ f.length ≤ 21

/-- The bounds of a frame whose fields hold a byte that needs no stuffing. -/
theorem frame_bounds (d : Delims) (fields : List Byte) (h1 : 6 ≤ fields.length) (h2 : fields.length ≤ 8)
    (h3 : (payloadOf fields).length ≤ 15) : 12 ≤ (frameOf d fields).length ∧ (frameOf d fields).length ≤ 21 := by
  have hb := byteCount_eq_dle h2
  have hp := payloadOf_length_bounds fields
  rw [frameOf_length, esc_length]
  split
  · simp_all
  · omega

theorem WireFrame.stopRequest (das dae cw sax sa : Byte) : WireFrame.Statement (.stopRequest das dae cw sax sa) :=
  fun d => ⟨_, rfl, frame_bounds d _ (by simp) (by simp) (by
    have h := payloadOf_length_bounds [das, dae, cw, sax, sa, Config.tagStop]; simp at h ⊢; omega)⟩

theorem WireFrame.setRequest (das dae cw sax sa height angle : Byte) :
    WireFrame.Statement (.setRequest das dae cw sax sa height angle) :=
  fun d => ⟨_, rfl, frame_bounds d _ (by simp) (by simp) (by
    have h1 := payloadOf_length_bounds [das, dae, cw, sax, sa]
    have h2 := payloadOf_length_bounds [height, angle]
    have h3 : (esc Config.tagSet).length = 1 := by decide
    simp at h1 h2 ⊢; omega)⟩

theorem WireFrame.getRequest (das dae cw sax sa : Byte) : WireFrame.Statement (.getRequest das dae cw sax sa) :=
  fun d => ⟨_, rfl, frame_bounds d _ (by simp) (by simp) (by
    have h := payloadOf_length_bounds [das, dae, cw, sax, sa, Config.tagGet]; simp at h ⊢; omega)⟩

theorem WireFrame.getReply (da cw sax sa height angle : Byte) :
    WireFrame.Statement (.getReply da cw sax sa height angle) :=
  fun d => ⟨_, rfl, frame_bounds d _ (by simp) (by simp) (by
    have h := payloadOf_length_bounds [da, cw, sax, sa, Config.tagGet, height, angle]; simp at h ⊢; omega)⟩

theorem WireFrame.encode (cmd : Command) (das dae deviceType sourceAddress : Byte) :
    WireFrame.Statement (.encode cmd das dae deviceType sourceAddress) := fun _ => rfl

theorem WireFrame.encodeReply (da deviceType sourceAddress height angle : Byte) :
    WireFrame.Statement (.encodeReply da deviceType sourceAddress height angle) := fun _ => rfl

theorem WireFrame.decode (raw : List Byte) (dir : Dir) : WireFrame.Statement (.decode raw dir) := fun _ => rfl

theorem WireFrame.gate : WireFrame.Statement .gate := fun _ => rfl

theorem WireFrame.gateRecord : WireFrame.Statement .gateRecord := fun _ => rfl

theorem WireFrame.execute (cmd : Cmd) (das dae height angle : Byte) :
    WireFrame.Statement (.execute cmd das dae height angle) := fun _ => rfl

theorem WireFrame.stop (das dae : Byte) : WireFrame.Statement (.stop das dae) := fun _ => rfl

theorem WireFrame.set (das dae : Byte) (height angle : Option Byte) :
    WireFrame.Statement (.set das dae height angle) := fun _ => rfl

theorem WireFrame.get (address : Byte) : WireFrame.Statement (.get address) := fun _ => rfl

theorem WireFrame.receive (b : Byte) : WireFrame.Statement (.receive b) := fun _ => rfl

theorem WireFrame.respond : WireFrame.Statement .respond := fun _ => rfl

theorem WireFrame.setSlaveAddress (v : Int) : WireFrame.Statement (.setSlaveAddress v) := fun _ => rfl

theorem WireFrame.reset : WireFrame.Statement .reset := fun _ => rfl

end Sys2Proof.Laws
end

