-- ==== Sys2Proof/Tests/Slice0.lean ====
section
/-! SUPPORT. Sys2Proof/Tests/Slice0.lean: tests of one step each, and for every statement with hypotheses a witness that
meets them. Frames and results are those of 95_test_vectors.md, whose section each test names; a frame's bytes are
written out. -/

namespace Sys2Proof.Tests

open Sys2Proof.Machine Sys2Proof.Config

-- One theorem at a time: many kernel evaluations at once need a thread each.
set_option Elab.async false

abbrev Result := Host.Outcome State Fault Refusal

/-- The outcome is a next state that `p` holds of. -/
def ends (o : Result) (p : State → Bool) : Bool :=
  match o with
  | .next t => p t
  | .fault _ => false
  | .refused _ => false

theorem reaches {o : Result} (P : State → Prop) [DecidablePred P] (h : ends o (fun t => decide (P t)) = true) :
    ∃ t, o = .next t ∧ P t := by
  cases o with
  | next t => exact ⟨t, rfl, of_decide_eq_true h⟩
  | fault f => cases h
  | refused r => cases h

/-! ### Frames and states -/

def stopFrame : List Byte := [0x10, 0x02, 0x08, 0x01, 0x06, 0xC0, 0x20, 0x05, 0x84, 0x10, 0x03, 0x75]
def setFrame : List Byte := [0x10, 0x02, 0x0A, 0x01, 0x06, 0xC0, 0x20, 0x05, 0x8F, 0x28, 0x4D, 0x10, 0x03, 0xF3]
def getFrame : List Byte := [0x10, 0x02, 0x08, 0x01, 0x01, 0x60, 0x20, 0x05, 0x55, 0x10, 0x03, 0x09]
def replyFrame : List Byte := [0x10, 0x02, 0x09, 0x05, 0x60, 0x30, 0x01, 0x55, 0x28, 0x4D, 0x10, 0x03, 0x84]
def badFccFrame : List Byte := [0x10, 0x02, 0x08, 0x01, 0x06, 0xC0, 0x20, 0x05, 0x84, 0x10, 0x03, 0x76]

/-- The master of 95_test_vectors.md right after reset. -/
def master : State := State.reset

/-- Its slave right after reset. -/
def slave : State :=
  State.resetWith { Config.params with role := .slave, deviceTypeInit := 0x30, sourceAddressInit := 0x01 } Env.initial

def withInputs (is : List Input) (s : State) : State := { s with env := { s.env with inputs := is } }
def withInbound (bs : List Byte) (s : State) : State := { s with env := { s.env with inbound := bs } }
def withBaud (b : Int) (s : State) : State := { s with env := { s.env with baud := b } }
def atTime (t : Time) (s : State) : State := { s with env := { s.env with now := t } }

/-- A master in `M_GATE` with a GET of slave 1 to write. -/
def gated : State :=
  { master with mphase := .gate, txbuf := getFrame, mcmd := { cmd := .get, das := 1, dae := 1, height := 0, angle := 0 } }

/-- A master that waits for the reply `bs`. -/
def reading (bs : List Byte) : State := withInbound bs { gated with mphase := .read }

/-- A master that waits for the echo, with `bs` on the line. -/
def echoing (bs : List Byte) : State :=
  withInbound bs { gated with mphase := .echo, cfg := { localEcho := true, closeAfterCall := false } }

/-- A slave that holds the candidate frame `bs`. -/
def holding (bs : List Byte) : State := { slave with rphase := .ready, rxbuf := bs }

/-! ### Well-formedness: each check refuses a term that breaks it -/

theorem test_delims_stx_is_not_dle : ¬ Delims.wf { stx := 0x10, etx := 0x03 } := by decide
theorem test_delims_etx_is_not_dle : ¬ Delims.wf { stx := 0x02, etx := 0x10 } := by decide
theorem test_delims_differ : ¬ Delims.wf { stx := 0x02, etx := 0x02 } := by decide
theorem test_delims_ascii_wf : Delims.ascii.wf := by decide
theorem test_params_slave_address_not_zero : ¬ Params.wf { Config.params with slaveAddressInit := 0 } := by decide
theorem test_params_resp_window : ¬ Params.wf { Config.params with respWindow := 17 } := by decide
theorem test_params_rx_max_len : ¬ Params.wf { Config.params with rxMaxLen := 20 } := by decide
theorem test_params_local_echo : ¬ Params.wf { Config.params with localEchoInit := true } := by decide
theorem test_params_close_after_call : ¬ Params.wf { Config.params with closeAfterCallInit := true } := by decide
theorem test_params_delims : ¬ Params.wf { Config.params with delims := { stx := 0x10, etx := 0x03 } } := by decide
theorem test_params_wf : Config.params.wf := by decide
theorem test_stop_range_refused : ¬ (Instr.stopRequest 6 1 0xC0 0x20 5).wf := by decide
theorem test_stop_control_word_refused : ¬ (Instr.stopRequest 1 6 0x60 0x20 5).wf := by decide
theorem test_set_range_refused : ¬ (Instr.setRequest 2 1 0xC0 0x20 5 0 0).wf := by decide
theorem test_set_control_word_refused : ¬ (Instr.setRequest 1 2 0x60 0x20 5 0 0).wf := by decide
theorem test_get_range_refused : ¬ (Instr.getRequest 255 0 0x60 0x20 5).wf := by decide
theorem test_get_control_word_refused : ¬ (Instr.getRequest 1 1 0xC0 0x20 5).wf := by decide
theorem test_reply_control_word_refused : ¬ (Instr.getReply 5 0xC0 0x30 1 0 0).wf := by decide
theorem test_request_wf : (Instr.setRequest 1 6 0xC0 0x20 5 40 77).wf := by decide

/-! ### Decoding (sections 3.1 to 3.3) -/

theorem test_decode_stop : decodeInstr Delims.ascii .req stopFrame = .ok (.stopRequest 1 6 0xC0 0x20 5) := by
  decide +kernel
theorem test_decode_set : decodeInstr Delims.ascii .req setFrame = .ok (.setRequest 1 6 0xC0 0x20 5 40 77) := by
  decide +kernel
theorem test_decode_get : decodeInstr Delims.ascii .req getFrame = .ok (.getRequest 1 1 0x60 0x20 5) := by
  decide +kernel
theorem test_decode_reply : decodeInstr Delims.ascii .rep replyFrame = .ok (.getReply 5 0x60 0x30 1 40 77) := by
  decide +kernel

/-- The longest frame: BC = 16 is itself stuffed. -/
theorem test_decode_all_stuffed :
    decodeInstr Delims.ascii .req [0x10, 0x02, 0x10, 0x10, 0x10, 0x10, 0x10, 0x10, 0xC0, 0x10, 0x10, 0x10, 0x10, 0x8F,
      0x10, 0x10, 0x10, 0x10, 0x10, 0x03, 0xBE] = .ok (.setRequest 0x10 0x10 0xC0 0x10 0x10 0x10 0x10) := by
  decide +kernel

/-- A needlessly stuffed byte is accepted when BC counts it (D10). -/
theorem test_decode_non_canonical :
    decodeInstr Delims.ascii .req [0x10, 0x02, 0x09, 0x10, 0x01, 0x06, 0xC0, 0x20, 0x05, 0x84, 0x10, 0x03, 0x64] =
      .ok (.stopRequest 1 6 0xC0 0x20 5) := by
  decide +kernel

theorem test_decode_rejects :
    decodeInstr Delims.ascii .req [] = .error .header ∧
    decodeInstr Delims.ascii .req [0x10, 0x02, 0x08, 0x01, 0x06, 0xC0] = .error .truncated ∧
    decodeInstr Delims.ascii .req [0x10, 0x02, 0x05, 0x01, 0x06, 0xC0, 0x20, 0x05, 0x84, 0x10, 0x03, 0x78] =
      .error .bytecount ∧
    decodeInstr Delims.ascii .req [0x10, 0x02, 0x08, 0x01, 0x06, 0xC0, 0x20, 0x05, 0x85, 0x10, 0x03, 0x74] =
      .error .command ∧
    decodeInstr Delims.ascii .req [0x10, 0x02, 0x09, 0x01, 0x06, 0xC0, 0x20, 0x05, 0x84, 0x10, 0x03, 0x74] =
      .error .terminator ∧
    decodeInstr Delims.ascii .req badFccFrame = .error .checksum ∧
    decodeInstr Delims.ascii .req replyFrame = .error .command := by
  decide +kernel

/-- The logical frame of the `SET.request` row, bit 0 the least significant bit of its first byte (R88). -/
theorem test_table_word_set :
    decodeTableWord 112 0xF303104D288F0520C006010A0210 = some (.setRequest 1 6 0xC0 0x20 5 40 77) := by
  decide +kernel

/-- A word of no row is refused. -/
theorem test_table_word_refused : decodeTableWord 96 0x750310850520C00601080210 = none := by decide +kernel

/-- Table words placed at the fetch run as the first instruction: the reply of section 3.2 ends a GET with its height and
angle and records the time, and the SET request of section 3.1 is stored by a slave at address 1. -/
theorem test_table_word_runs :
    ends (step (State.withFetchWord master 104 0x8403104D285501306005090210)) (fun t =>
      t.mres == { code := .ok, height := 0x28, angle := 0x4D } && t.mphase == .idle && t.lrt == some 0 &&
      t.env.reports == [.completed (some (0x28, 0x4D))]) = true ∧
    ends (step (State.withFetchWord master 112 0xF303104D288F0520C006010A0210)) (fun t =>
      t.height == 0x28 && t.angle == 0x4D && t.rstat == { code := .ok, lastCmd := some .set }) = true := by
  decide +kernel

/-! ### Codec operations (sections 3.1 to 3.3) -/

theorem test_encode_set :
    ends (exec (.encode (.set 0x10 0x4D) 1 6 0x20 5) master) (fun t => t.env.reports ==
      [.frame [0x10, 0x02, 0x0B, 0x01, 0x06, 0xC0, 0x20, 0x05, 0x8F, 0x10, 0x10, 0x4D, 0x10, 0x03, 0xFA]]) = true := by
  decide +kernel

theorem test_encode_inverted_range :
    ends (exec (.encode .get 255 0 0x20 5) master) (fun t => t.env.reports == [.failed (.invalidAddressRange 255 0)] &&
      t.mres == master.mres) = true := by
  decide +kernel

theorem test_encode_reply :
    ends (exec (.encodeReply 5 0x30 0x10 0x10 0x10) slave) (fun t => t.env.reports ==
      [.frame [0x10, 0x02, 0x0C, 0x05, 0x60, 0x30, 0x10, 0x10, 0x55, 0x10, 0x10, 0x10, 0x10, 0x10, 0x03, 0x97]]) =
      true := by
  decide +kernel

theorem test_decode_operation :
    ends (exec (.decode (stopFrame ++ [0xAA, 0xBB]) .req) master) (fun t =>
      t.env.reports == [.decoded (.stop 8 1 6 0xC0 0x20 5)]) = true := by
  decide +kernel

theorem test_decode_operation_rejects :
    ends (exec (.decode getFrame .rep) master) (fun t =>
      t.env.reports == [.failed (.malformedFrame .command)] && t.mphase == .idle) = true := by
  decide +kernel

/-! ### Timing Gate (section 3.4) -/

theorem test_gate_deadline :
    ends (exec .gate (atTime (10001 / 1000) { master with lrt := some 10 })) (fun t =>
      t.gdl == 10 + 77 / 19200 && t.mphase == .gate && t.lrt == some 10) = true := by
  decide +kernel

theorem test_gate_zero_baud :
    ends (exec .gate (withBaud 0 master)) (fun t => t.mres.code == .invalidBaudRate && t.gdl == master.gdl &&
      outbound t == []) = true := by
  decide +kernel

theorem test_gate_record :
    ends (exec .gateRecord (atTime (2030 / 1000) { master with lrt := some (1030 / 1000) })) (fun t =>
      t.lrt == some (2030 / 1000)) = true := by
  decide +kernel

/-- A call of GATE_RECORD does not move `LRT` behind the deadline of a write that waits (R64, R143). -/
theorem test_gate_record_busy_in_gate :
    ends (exec .gateRecord { gated with lrt := some 0, gdl := 1 }) (fun t =>
      t.lrt == some 0 && t.gdl == 1 && t.mphase == .gate && t.env.reports == [.refused .busy]) = true := by
  decide +kernel

/-! ### Transactions (section 3.5) -/

theorem test_execute_ranged_get :
    ends (exec (.execute .get 1 2 0 0) master) (fun t => t.txbuf ==
      [0x10, 0x02, 0x08, 0x01, 0x02, 0x60, 0x20, 0x05, 0x55, 0x10, 0x03, 0x08] && t.mphase == .gate) = true := by
  decide +kernel

theorem test_execute_wrong_role :
    ends (exec (.execute .get 1 1 0 0) slave) (fun t => t.env.reports == [.refused .wrongRole] && t.txbuf == []) =
      true := by
  decide +kernel

theorem test_stop_enters_gate :
    ends (exec (.stop 1 6) master) (fun t => t.txbuf == stopFrame && t.mphase == .gate && t.mcmd.cmd == .stop) =
      true := by
  decide +kernel

theorem test_stop_inverted_range :
    ends (exec (.stop 6 1) { master with cfg := { localEcho := false, closeAfterCall := true } }) (fun t =>
      t.mres.code == .invalidAddressRange && t.txbuf == [] && t.env.trace == [] && t.mphase == .idle) = true := by
  decide +kernel

theorem test_set_defaults :
    ends (exec (.set 1 6 none none) master) (fun t => t.txbuf ==
      [0x10, 0x02, 0x0A, 0x01, 0x06, 0xC0, 0x20, 0x05, 0x8F, 0xFF, 0xFF, 0x10, 0x03, 0x6A]) = true := by
  decide +kernel

theorem test_set_height_only :
    ends (exec (.set 1 6 (some 40) none) master) (fun t => t.txbuf ==
      [0x10, 0x02, 0x0A, 0x01, 0x06, 0xC0, 0x20, 0x05, 0x8F, 0x28, 0xFF, 0x10, 0x03, 0x41]) = true := by
  decide +kernel

theorem test_get_enters_gate :
    ends (exec (.get 1) master) (fun t => t.txbuf == getFrame && t.mcmd.das == 1 && t.mcmd.dae == 1) = true := by
  decide +kernel

theorem test_get_busy :
    ends (exec (.get 1) gated) (fun t => t.env.reports == [.refused .busy] && t.mphase == .gate) = true := by
  decide +kernel

theorem test_reply_ends_get :
    ends (exec (.getReply 5 0x60 0x30 1 40 77) (reading [])) (fun t =>
      t.mres == { code := .ok, height := 0x28, angle := 0x4D } && t.mphase == .idle && t.lrt == some 0) = true := by
  decide +kernel

/-- A reply that is presented goes to the inbound stream: only the response read ends a GET (R151, R155). -/
theorem test_presented_reply_arrives :
    ends (step (withInputs [.op (.getReply 5 0x60 0x30 1 40 77)] (reading []))) (fun t =>
      t.env.inbound == replyFrame && t.mphase == .read && t.lrt == none && t.env.reports == []) = true := by
  decide +kernel

/-- U6: the response read fails: idle, `LRT`, `MRES.height` and `MRES.angle` as they were, a code outside R201. -/
theorem test_failed_read_ends_get :
    ends (step (withInputs [.turnFails 0 13] (reading replyFrame))) (fun t =>
      t.mphase == .idle && t.lrt == none && t.mres == { code := .transportError, height := 0xFF, angle := 0xFF } &&
      t.env.reports == [.transportFailed]) = true := by
  decide +kernel

/-- U6: the port opens and `Baud()` fails: the request is encoded, `GDL` is not written, nothing is in flight. -/
theorem test_failed_baud_ends_execute :
    ends (step (withInputs [.opFails 1 (.stop 1 6)]
      { master with gdl := 7, cfg := { localEcho := false, closeAfterCall := true } })) (fun t =>
      t.mphase == .idle && t.txbuf == stopFrame && t.gdl == 7 && t.mres.code == .transportError &&
      t.env.trace.take 1 == [.opened] && t.env.trace.length == 2) = true := by
  decide +kernel

/-- A transport that would fail at its fourth call does not touch a step that makes fewer. -/
theorem test_no_call_no_failure :
    ends (step (withInputs [.turnFails 1 13] (reading replyFrame))) (fun t =>
      t.mres == { code := .ok, height := 0x28, angle := 0x4D }) = true := by
  decide +kernel

/-- Seven bytes of a reply: `MalformedFrame(TRUNCATED)`, and `LRT` is recorded before DECODE. -/
theorem test_truncated_response :
    ends (turn 32 (atTime (1030 / 1000) (reading (replyFrame.take 7)))) (fun t =>
      t.env.reports == [.failed (.malformedFrame .truncated)] && t.lrt == some (1030 / 1000) &&
      t.mres == { code := .malformedFrame, height := 0xFF, angle := 0xFF }) = true := by
  decide +kernel

theorem test_no_response :
    ends (turn 32 (reading [])) (fun t => t.mres == { code := .noResponse, height := 0xFF, angle := 0xFF } &&
      t.lrt == none) = true := by
  decide +kernel

/-! ### Responder (sections 3.6 and 3.7) -/

theorem test_set_request_stores :
    ends (exec (.setRequest 1 6 0xC0 0x20 5 40 77) slave) (fun t => t.height == 0x28 && t.angle == 0x4D &&
      t.rstat == { code := .ok, lastCmd := some .set } && t.env.trace == []) = true := by
  decide +kernel

theorem test_set_request_inverted_range :
    ends (exec (.setRequest 6 1 0xC0 0x20 5 40 77) slave) (fun t => t.height == 0xFF && t.angle == 0xFF) = true := by
  decide +kernel

theorem test_get_request_answered :
    ends (exec (.getRequest 1 1 0x60 0x20 5) { slave with height := 40, angle := 77 }) (fun t =>
      outbound t == replyFrame) = true := by
  decide +kernel

theorem test_get_request_ranged_is_silent :
    ends (exec (.getRequest 1 2 0x60 0x20 5) slave) (fun t => t.env.trace == [] &&
      t.rstat == { code := .ok, lastCmd := some .get }) = true := by
  decide +kernel

theorem test_stop_request :
    ends (exec (.stopRequest 0 255 0xC0 0x20 5) slave) (fun t => t.height == 0xFF && t.env.trace == [] &&
      t.rstat == { code := .ok, lastCmd := some .stop }) = true := by
  decide +kernel

/-- 31 bytes that are not ETX, `RX_MAX_LEN` 32: overflow at the 31st. -/
theorem test_receive_overflows :
    ends (exec (.receive 0) { slave with rxbuf := List.replicate 30 0 }) (fun t => t.rxbuf == [] &&
      t.rstat.code == .rxOverflow && t.rphase == .accum) = true := by
  decide +kernel

/-- The 31st byte is ETX: no overflow. -/
theorem test_receive_etx_at_the_limit :
    ends (exec (.receive 3) { slave with rxbuf := List.replicate 30 0 }) (fun t => t.rxbuf.length == 31 &&
      t.rphase == .fcc) = true := by
  decide +kernel

theorem test_respond_answers :
    ends (exec .respond (holding getFrame)) (fun t => outbound t ==
      [0x10, 0x02, 0x09, 0x05, 0x60, 0x30, 0x01, 0x55, 0xFF, 0xFF, 0x10, 0x03, 0xFB] && t.rxbuf == [] &&
      t.rphase == .accum) = true := by
  decide +kernel

theorem test_respond_rejects :
    ends (exec .respond { holding badFccFrame with rstat := { code := .ok, lastCmd := some .set } }) (fun t =>
      t.rstat == { code := .malformedFrame, lastCmd := some .set } && t.env.trace == [] && t.height == 0xFF) = true := by
  decide +kernel

theorem test_set_slave_address :
    ends (exec (.setSlaveAddress 255) slave) (fun t => t.slvaddr == 255 && t.height == slave.height) = true := by
  decide +kernel

theorem test_set_slave_address_refused :
    ends (exec (.setSlaveAddress 256) slave) (fun t => t.slvaddr == 1 &&
      t.env.reports == [.refused (.invalidSlaveAddress 256)]) = true := by
  decide +kernel

/-- Reset abandons a transaction and leaves the line (R230). -/
theorem test_reset :
    ends (exec .reset { reading replyFrame with lrt := some 0, height := 1 }) (fun t => t.mphase == .idle &&
      t.lrt == none && t.txbuf == [] && t.height == 0xFF && t.env.inbound == replyFrame && t.env.reports == []) =
      true := by
  decide +kernel

/-! ### Witnesses: a state and operands that meet the hypotheses of each statement -/

theorem not_resets_of_turn {k : Nat} {rest : List Input} {s : State} (h : s.env.inputs = .turn k :: rest) :
    ¬ resets s := by
  rintro ⟨_, h' | ⟨_, h'⟩⟩ <;> simp [h] at h'

theorem witness_CodecRoundTrip : (0x10 : Byte) ≤ 0x10 := by decide

theorem witness_FrameInstructionsRoundTrip :
    (Instr.stopRequest 1 6 0xC0 0x20 5).dir? = some .req ∧
    encode Delims.ascii (.stopRequest 1 6 0xC0 0x20 5) = some stopFrame := by decide +kernel

theorem witness_EncodedFrameShape :
    (Instr.getReply 5 0x60 0x30 1 40 77).fields? = some [5, 0x60, 0x30, 1, 0x55, 40, 77] ∧
    encode Delims.ascii (.getReply 5 0x60 0x30 1 40 77) = some replyFrame := by
  decide +kernel

/-- The shortest and the longest frame of each kind meet the bounds. -/
theorem witness_WireLengthRanges :
    (encodeRequest Delims.ascii .stop 1 6 0x20 5).map List.length = .ok 12 ∧
    (encodeRequest Delims.ascii .get 0x10 0x10 0x10 0x10).map List.length = .ok 16 ∧
    (encodeRequest Delims.ascii (.set 40 77) 1 6 0x20 5).map List.length = .ok 14 ∧
    (encodeRequest Delims.ascii (.set 0x10 0x10) 0x10 0x10 0x10 0x10).map List.length = .ok 21 ∧
    (encodeReply Delims.ascii 5 0x30 1 40 77).length = 13 ∧
    (encodeReply Delims.ascii 0x10 0x10 0x10 0x10 0x10).length = 18 := by decide +kernel

/-- Both sides, on the frame with a needlessly stuffed DAS. -/
theorem witness_DecodeAcceptsExactlyFrames :
    decodeFrame Delims.ascii .req [0x10, 0x02, 0x09, 0x10, 0x01, 0x06, 0xC0, 0x20, 0x05, 0x84, 0x10, 0x03, 0x64] =
      .ok (.stop 9 1 6 0xC0 0x20 5) ∧
    Carries 9 [9] ∧ List.Forall₂ Carries [1, 6, 0xC0, 0x20, 5, 0x84] [[0x10, 1], [6], [0xC0], [0x20], [5], [0x84]] ∧
    (9 : Byte).toNat = [[(0x10 : Byte), 1], [6], [0xC0], [0x20], [5], [0x84]].flatten.length + 2 ∧
    (sumBytes ([9] ++ [[0x10, 1], [6], [0xC0], [0x20], [5], [0x84]].flatten ++ [0x10, 0x03]) + 0x64) % 256 = 0 := by
  refine ⟨by decide +kernel, .inl (by decide), ?_, by decide, by decide⟩
  exact .cons (.inr rfl) (.cons (.inl (by decide)) (.cons (.inl (by decide)) (.cons (.inl (by decide))
    (.cons (.inl (by decide)) (.cons (.inl (by decide)) .nil)))))

theorem witness_DecodeIgnoresBytesAfterFcc :
    decodeFrame Delims.ascii .rep replyFrame = .ok (.reply 9 5 0x60 0x30 1 40 77) := by decide +kernel

theorem witness_CrossDirectionNeverDecodes :
    Delims.ascii.wf ∧ encode Delims.ascii (.getRequest 1 1 0x60 0x20 5) = some getFrame ∧
    (Instr.getRequest 1 1 0x60 0x20 5).dir? = some .req ∧
    encode Delims.ascii (.getReply 5 0x60 0x30 1 40 77) = some replyFrame ∧
    (Instr.getReply 5 0x60 0x30 1 40 77).dir? = some .rep := by decide +kernel

/-- The two least byte counts occur. -/
theorem witness_ByteCountFloorIsNotTight :
    decodeFrame Delims.ascii .req stopFrame = .ok (.stop 8 1 6 0xC0 0x20 5) ∧
    decodeFrame Delims.ascii .rep replyFrame = .ok (.reply 9 5 0x60 0x30 1 40 77) := by decide +kernel

theorem witness_EncodeReturnsFrameOrRangeFailure : (5 : Byte) ≤ 5 ∧ (5 : Byte) < 6 := by decide

theorem witness_DecodeReturnsRecord :
    (Instr.stopRequest 1 6 0xC0 0x20 5).dir? = some .req ∧
    encode master.params.delims (.stopRequest 1 6 0xC0 0x20 5) = some stopFrame ∧
    decodeFrame master.params.delims .req
      [0x10, 0x02, 0x09, 0x10, 0x01, 0x06, 0xC0, 0x20, 0x05, 0x84, 0x10, 0x03, 0x64] = .ok (.stop 9 1 6 0xC0 0x20 5) ∧
    decodeFrame master.params.delims .req badFccFrame = .error .checksum := by decide +kernel

theorem witness_GateSetsDeadline : master.params.role = .master ∧ master.mphase = .idle ∧ 0 < master.env.baud := by
  decide

/-- Before the deadline and at it. -/
theorem witness_GateBlocksThenReturns :
    ∃ s u : State, (s.params.role = .master ∧ s.mphase = .gate ∧ s.env.gateCall = true ∧ s.env.now < s.gdl) ∧
      (u.params.role = .master ∧ u.mphase = .gate ∧ u.env.gateCall = true ∧ u.gdl ≤ u.env.now) :=
  ⟨{ gated with gdl := 1, env := { gated.env with gateCall := true } },
    { gated with env := { gated.env with gateCall := true } }, by decide +kernel⟩

theorem witness_GateRejectsNonPositiveBaud :
    (withBaud 0 master).params.role = .master ∧ (withBaud 0 master).mphase = .idle ∧
    (withBaud 0 master).env.baud ≤ 0 := by decide

theorem witness_GateRecordOverwritesLrt : master.params.role = .master ∧ master.mphase = .idle := by decide

/-- Each of the four operations asks for its transaction. -/
theorem witness_Asks :
    Asks master (.execute .set 1 6 40 77) .set 1 6 [1, 6, 0xC0, 0x20, 5, 0x8F, 40, 77] ∧
    Asks master (.execute .get 1 6 40 77) .get 1 6 [1, 6, 0x60, 0x20, 5, 0x55] ∧
    Asks master (.stop 1 6) .stop 1 6 [1, 6, 0xC0, 0x20, 5, 0x84] ∧
    Asks master (.set 1 6 none (some 77)) .set 1 6 [1, 6, 0xC0, 0x20, 5, 0x8F, 0xFF, 77] ∧
    Asks master (.get 1) .get 1 1 [1, 1, 0x60, 0x20, 5, 0x55] :=
  ⟨.execute _ _ _ _ _, .execute _ _ _ _ _, .stop _ _, .set _ _ _ _, .get _⟩

/-- A GATE entered 1 ms after the read, left at its deadline, and the write of the next step; on the way there a step
that stays in `M_GATE`. -/
theorem witness_SilentPeriodHeldBeforeWrite :
    ∃ (s g u v : State) (new : List TEvent) (at_ : Time) (bs fields : List Byte),
      Asks s (.execute .set 1 6 40 77) .set 1 6 fields ∧
      s.params.role = .master ∧ s.mphase = .idle ∧ s.env.gateCall = false ∧ s.lrt = some 10 ∧ 0 < s.env.baud ∧
      exec (.execute .set 1 6 40 77) s = .next g ∧ g.mphase = .gate ∧ WaitsInGate g u ∧ step u = .next v ∧
      v.env.trace = u.env.trace ++ new ∧ TEvent.wrote at_ bs ∈ new ∧ step g = .next u ∧ u.mphase = .gate := by
  let s := withInputs [.clock 11, .turn 0] (atTime (10001 / 1000) { master with lrt := some 10 })
  obtain ⟨g, hg, h1⟩ := reaches (o := exec (.execute .set 1 6 40 77) s)
    (fun g => g.mphase = .gate ∧ ends (step g) (fun u => decide (u.mphase = .gate ∧ u.env.trace = g.env.trace ∧
      ends (step u) (fun v => decide (v.env.trace = u.env.trace ++ [.wrote 11 setFrame])))) = true) (by decide +kernel)
  obtain ⟨u, hu, h2, h3, h4⟩ := reaches _ h1.2
  obtain ⟨v, hv, h5⟩ := reaches _ h4
  exact ⟨s, g, u, v, _, 11, setFrame, _, .execute _ _ _ _ _, by decide, by decide, by decide, by decide +kernel, by decide, hg, h1.1,
    .later (.here g) hu h2, hv, h5, by simp, hu, h2⟩

theorem witness_MasterWritesOnlyAtOpenGate :
    (withInputs [.turn 0] gated).params.role = .master ∧
    ∃ t, step (withInputs [.turn 0] gated) = .next t ∧ t.env.trace = [.wrote 0 getFrame] :=
  ⟨by decide, reaches _ (by decide +kernel)⟩

theorem witness_ExecuteEntersGate :
    master.params.role = .master ∧ master.mphase = .idle ∧ (1 : Byte) ≤ 1 ∧ 0 < master.env.baud := by decide

theorem witness_HostCommandsEnterGate :
    master.params.role = .master ∧ master.mphase = .idle ∧ 0 < master.env.baud ∧ (0 : Byte) ≤ 255 := by decide

/-- Refused in the slave role, and refused while a transaction is in flight. -/
theorem witness_ExecuteRefusedChangesNothing :
    (∃ addr, Instr.get 1 = .get addr) ∧ slave.params.role = .slave ∧ gated.params.role = .master ∧
    gated.mphase ≠ .idle := ⟨⟨1, rfl⟩, by decide⟩

theorem witness_InvertedRangeFailsBeforeTheLine :
    Instr.stop 6 5 = .stop 6 5 ∧ master.params.role = .master ∧ master.mphase = .idle ∧ (5 : Byte) < 6 := by decide

theorem witness_NonPositiveBaudFailsBeforeWriting :
    Asks (withBaud 0 master) (.set 1 6 none none) .set 1 6 [1, 6, 0xC0, 0x20, 5, 0x8F, 0xFF, 0xFF] ∧
    (withBaud 0 master).params.role = .master ∧ (withBaud 0 master).mphase = .idle ∧ (1 : Byte) ≤ 6 ∧
    (withBaud 0 master).env.baud ≤ 0 := ⟨.set _ _ _ _, by decide⟩

/-- Each clause: before the deadline; at it with an echo to come, with a reply to come, with nothing to come. -/
theorem witness_OpenGateWritesRequest :
    (gated.params.role = .master ∧ gated.mphase = .gate ∧ gated.env.gateCall = false) ∧
    ({ gated with gdl := 1 }.env.now < ({ gated with gdl := 1 } : State).gdl) ∧ gated.gdl ≤ gated.env.now ∧
    ({ gated with cfg := { localEcho := true, closeAfterCall := false } } : State).cfg.localEcho = true ∧
    (gated.cfg.localEcho = false ∧ gated.mcmd.cmd = .get) ∧
    ({ gated with mcmd := { gated.mcmd with cmd := .stop } } : State).mcmd.cmd ≠ .get := by decide +kernel

/-- An echo one byte short, the whole echo of a GET, and the whole echo of another command. -/
theorem witness_EchoReadComparesRequest :
    (echoing getFrame).params.role = .master ∧ (echoing getFrame).mphase = .echo ∧
    (echoing getFrame).env.inbound.take (min 11 (echoing getFrame).txbuf.length) ≠ (echoing getFrame).txbuf ∧
    (echoing getFrame).env.inbound.take (min 12 (echoing getFrame).txbuf.length) = (echoing getFrame).txbuf ∧
    (echoing getFrame).mcmd.cmd = .get ∧
    ({ echoing getFrame with mcmd := { gated.mcmd with cmd := .stop } } : State).mcmd.cmd ≠ .get := by decide +kernel

/-- No byte, bytes that are no reply, and a reply. -/
theorem witness_ResponseReadEndsGet :
    (reading []).params.role = .master ∧ (reading []).mphase = .read ∧
    (reading []).env.inbound.take (min 32 (reading []).params.respWindow) = [] ∧
    decodeFrame Delims.ascii .rep ((reading replyFrame).env.inbound.take (min 1 (reading []).params.respWindow)) =
      .error .header ∧
    decodeFrame Delims.ascii .rep ((reading replyFrame).env.inbound.take (min 13 (reading []).params.respWindow)) =
      .ok (.reply 9 5 0x60 0x30 1 40 77) := by decide +kernel

theorem witness_ReplyFrameCompletesGet : (reading []).params.role = .master ∧ (reading []).mphase = .read := by decide

/-- Each clause: a slave, a master in another phase, a master that waits for a response. -/
theorem witness_FrameAtTheOtherStation :
    slave.params.role = .slave ∧ (Instr.getRequest 1 1 0x60 0x20 5).dir? ≠ none ∧ gated.params.role = .master ∧
    gated.mphase ≠ .read ∧ (Instr.getRequest 1 1 0x60 0x20 5).dir? = some .req ∧
    (reading []).params.role = .master ∧ (reading []).mphase = .read ∧ (reading []).params.delims.wf := by decide

/-- A failure that moves `LRT`. -/
theorem witness_FailureKeepsResultsAndSettings :
    ∃ t, step (withInputs [.turn 1] (reading replyFrame)) = .next t ∧
      t.env.reports = (withInputs [.turn 1] (reading replyFrame)).env.reports ++ [.failed (.malformedFrame .header)] ∧
      t.lrt ≠ (reading replyFrame).lrt :=
  reaches _ (by decide +kernel)

theorem witness_PhaseMovesOnlyForward :
    ∃ t, step (withInputs [.turn 0] gated) = .next t ∧ t.mphase ≠ (withInputs [.turn 0] gated).mphase :=
  reaches _ (by decide +kernel)

theorem witness_LrtWrittenOnlyByRecordedReads :
    ∃ t, step (withInputs [.turn 13] (reading replyFrame)) = .next t ∧
      t.lrt ≠ (withInputs [.turn 13] (reading replyFrame)).lrt :=
  reaches _ (by decide +kernel)

theorem witness_ReadsOnlyWhereTheRulesRead :
    ∃ t, step (withInputs [.turn 12] (echoing getFrame)) = .next t ∧ t.env.trace = [.read 12 getFrame] :=
  reaches _ (by decide +kernel)

/-- A write of `CFG` accepted and refused, and a step of a transaction that is no reset. -/
theorem witness_CfgConstantOverTransaction :
    (withInputs [.writeCfg 3] master).env.inputs = .writeCfg 3 :: [] ∧ master.mphase = .idle ∧ gated.mphase ≠ .idle ∧
    ¬ resets (withInputs [.turn 0] gated) ∧ ∃ t, step (withInputs [.turn 0] gated) = .next t ∧ t.mphase = .read :=
  ⟨by decide, by decide, by decide, not_resets_of_turn rfl, reaches _ (by decide +kernel)⟩

/-- The GET of section 3.5 with the read recorded one silent period before the write. -/
theorem witness_GetTransactionReturnsReply :
    let s := withInputs [.op (.get 1), .clock (10 + 77 / 19200), .turn 0,
      .arrive (encodeReply master.params.delims 5 0x30 1 40 77), .turn 13] (atTime 10 { master with lrt := some 10 })
    s.params.role = .master ∧ s.mphase = .idle ∧ s.env.gateCall = false ∧ s.cfg.localEcho = false ∧ 0 < s.env.baud ∧
    18 ≤ s.params.respWindow ∧ s.env.inbound = [] ∧ s.env.now ≤ 10 + 77 / 19200 ∧
    (∀ l, s.lrt = some l → l + 77 / (2 * (s.env.baud : Rat)) ≤ 10 + 77 / 19200) ∧
    (encodeReply s.params.delims 5 0x30 1 40 77).length ≤ 13 ∧
    s.env.inputs = [.op (.get 1), .clock (10 + 77 / 19200), .turn 0,
      .arrive (encodeReply s.params.delims 5 0x30 1 40 77), .turn 13] := by
  refine ⟨by decide, by decide, by decide, by decide, by decide, by decide, by decide, by decide +kernel, ?_,
    by decide +kernel, rfl⟩
  rintro l ⟨⟩
  decide +kernel

/-- Each row, at its boundary. -/
theorem witness_ReceiveAccumulatesToEtxPlusOne :
    master.params.role = .master ∧ (holding []).rphase = .ready ∧ slave.params.role = .slave ∧ ({ slave with rphase := .fcc } : State).rphase = .fcc ∧ slave.rphase = .accum ∧
    (3 : Byte) = slave.params.delims.etx ∧ (0 : Byte) ≠ slave.params.delims.etx ∧
    (List.replicate 29 (0 : Byte)).length + 1 < slave.params.rxMaxLen - 1 ∧
    slave.params.rxMaxLen - 1 ≤ (List.replicate 30 (0 : Byte)).length + 1 := by decide

theorem witness_EmptyReadChangesNothing :
    slave.params.role = .slave ∧ slave.rphase ≠ .ready ∧ slave.env.inbound = [] ∧
    (withInbound [7] slave).env.inbound = 7 :: [] ∧ 1 ≠ 0 := by decide

theorem witness_RespondRecordsDecodedRequest :
    (holding setFrame).params.role = .slave ∧ (holding setFrame).rphase = .ready ∧
    decodeFrame (holding setFrame).params.delims .req (holding setFrame).rxbuf =
      .ok (.set 10 1 6 0xC0 0x20 5 40 77) := by decide +kernel

theorem witness_MalformedRequestHasNoEffect :
    (holding badFccFrame).params.role = .slave ∧ (holding badFccFrame).rphase = .ready ∧
    decodeFrame (holding badFccFrame).params.delims .req (holding badFccFrame).rxbuf = .error .checksum := by
  decide +kernel

/-- Each clause, in the wrong role and in the wrong phase. -/
theorem witness_OperationOutOfItsRoleOrPhase :
    master.params.role = .master ∧ (holding []).rphase = .ready ∧ slave.rphase ≠ .ready ∧
    slave.params.role = .slave ∧ gated.params.role = .master ∧ gated.mphase ≠ .idle := by decide

/-- The slave's address at either end of the range, and next to either end. -/
theorem witness_SetRequestStoresWhenCovered :
    slave.params.role = .slave ∧ (1 : Byte) ≤ slave.slvaddr ∧ slave.slvaddr ≤ (1 : Byte) ∧
    slave.slvaddr < (2 : Byte) ∧ (0 : Byte) < slave.slvaddr := by decide

theorem witness_GetRequestAnsweredOnExactMatch :
    slave.params.role = .slave ∧ (1 : Byte) = slave.slvaddr ∧ (2 : Byte) ≠ slave.slvaddr := by decide

theorem witness_StopRequestOnlyRecorded : slave.params.role = .slave := by decide

/-- A presented operation, a presented frame, a request in `RXBUF` with an input and with none, and a reply on the line. -/
theorem witness_StepRunsDecodedInstruction :
    (withInputs [.op .gate] master).env.inputs = .op .gate :: [] ∧ Instr.gate.dir? = none ∧
    encode master.params.delims (.getRequest 1 1 0x60 0x20 5) = some getFrame ∧
    (withInputs [.turn 0] (holding getFrame)).env.inputs = .turn 0 :: [] ∧ (holding getFrame).env.inputs = [] ∧
    (holding getFrame).params.role = .slave ∧ (holding getFrame).rphase = .ready ∧
    decodeFrame (holding getFrame).params.delims .req (holding getFrame).rxbuf = .ok (.get 8 1 1 0x60 0x20 5) ∧
    (reading replyFrame).params.role = .master ∧ (reading replyFrame).mphase = .read ∧
    decodeFrame (reading replyFrame).params.delims .rep
      ((reading replyFrame).env.inbound.take (min 13 (reading replyFrame).params.respWindow)) =
        .ok (.reply 9 5 0x60 0x30 1 40 77) := by decide +kernel

theorem witness_DeliveredRequestIsActedOn :
    slave.params.role = .slave ∧ slave.params.delims = Delims.ascii ∧ 21 ≤ slave.params.rxMaxLen ∧
    slave.rphase = .accum ∧ slave.rxbuf = [] ∧ (Instr.setRequest 1 6 0xC0 0x20 5 40 77).dir? = some .req ∧
    (Instr.setRequest 1 6 0xC0 0x20 5 40 77).wf ∧
    encode slave.params.delims (.setRequest 1 6 0xC0 0x20 5 40 77) = some setFrame ∧
    carriesEtx slave.params.delims (.setRequest 1 6 0xC0 0x20 5 40 77) = false := by decide +kernel

/-- Section 3.6: the GET of address 3. -/
theorem witness_EtxInRequestLosesIt :
    slave.params.role = .slave ∧ slave.params.delims = Delims.ascii ∧ 21 ≤ slave.params.rxMaxLen ∧
    slave.rphase = .accum ∧ slave.rxbuf = [] ∧ (Instr.getRequest 3 3 0x60 0x20 5).dir? = some .req ∧
    (Instr.getRequest 3 3 0x60 0x20 5).wf ∧
    encode slave.params.delims (.getRequest 3 3 0x60 0x20 5) =
      some [0x10, 0x02, 0x08, 0x03, 0x03, 0x60, 0x20, 0x05, 0x55, 0x10, 0x03, 0x05] ∧
    carriesEtx slave.params.delims (.getRequest 3 3 0x60 0x20 5) = true := by decide +kernel

theorem witness_SetThenGetReturnsValues :
    slave.params.role = .slave ∧ slave.params.delims = Delims.ascii ∧ 21 ≤ slave.params.rxMaxLen ∧
    slave.rphase = .accum ∧ slave.rxbuf = [] ∧ (1 : Byte) ≤ slave.slvaddr ∧ slave.slvaddr ≤ 6 ∧
    encodeRequest slave.params.delims (.set 40 77) 1 6 0x20 5 = .ok setFrame ∧
    encodeRequest slave.params.delims .get slave.slvaddr slave.slvaddr 0x20 5 = .ok getFrame ∧
    slave.params.delims.etx ∉ [1, 6, 0x20, 5, 40, 77, slave.slvaddr] ∧
    (reading replyFrame).params.role = .master ∧ (reading replyFrame).mphase = .read ∧
    (reading replyFrame).params.delims = slave.params.delims ∧ 18 ≤ (reading replyFrame).params.respWindow ∧
    (reading replyFrame).env.inbound = replyFrame ∧ replyFrame.length ≤ 13 := by decide +kernel

theorem witness_BlindStateWrittenOnlyByCoveringSet :
    ∃ t, step (withInputs [.turn 0] (holding setFrame)) = .next t ∧
      (t.height ≠ (withInputs [.turn 0] (holding setFrame)).height ∨
        t.angle ≠ (withInputs [.turn 0] (holding setFrame)).angle) :=
  reaches _ (by decide +kernel)

theorem witness_SlaveWritesOnlyItsReply :
    (withInputs [.turn 0] (holding getFrame)).params.role = .slave ∧
    ∃ t, step (withInputs [.turn 0] (holding getFrame)) = .next t ∧ outbound t ≠ [] :=
  ⟨by decide, reaches _ (by decide +kernel)⟩

theorem witness_SentinelNeverStored :
    let s := withInputs [.turn 0] { holding [0x10, 0x02, 0x0A, 0x01, 0x06, 0xC0, 0x20, 0x05, 0x8F, 0xFF, 0xFF, 0x10, 0x03,
      0x6A] with height := 40, angle := 77 }
    ¬ resets s ∧ s.height ≠ 0xFF ∧ s.angle ≠ 0xFF ∧ ∃ t, step s = .next t ∧ t.rstat.lastCmd = some .set :=
  ⟨not_resets_of_turn rfl, by decide, by decide, reaches _ (by decide +kernel)⟩

/-- Both ends of the range, and both neighbours. -/
theorem witness_SetSlaveAddressChecksRange :
    ((1 : Int) ≤ 1 ∧ (1 : Int) ≤ 255) ∧ ((1 : Int) ≤ 255 ∧ (255 : Int) ≤ 255) ∧ (0 : Int) < 1 ∧ (255 : Int) < 256 := by
  decide

theorem witness_IdentityWrittenOnlyByItsOperations :
    ∃ t, step (withInputs [.op (.setSlaveAddress 2)] slave) = .next t ∧
      t.slvaddr ≠ (withInputs [.op (.setSlaveAddress 2)] slave).slvaddr :=
  reaches _ (by decide +kernel)

theorem witness_NothingPersistsOverReset :
    slave.params = (holding setFrame).params ∧ slave.env = (holding setFrame).env ∧ slave ≠ holding setFrame := by
  decide +kernel

theorem witness_CodesAreNumberedApart :
    Code.rxOverflow ≠ .transportError ∧ Code.ok ≠ .transportError := by decide

theorem witness_ResetSetsRegistersNotTransport : master.params.wf ∧ slave.params.wf := by decide

theorem witness_InvariantHoldsAtReset :
    Config.params.wf ∧ 0 ≤ Env.initial.now ∧ Env.initial.gateCall = false := by decide +kernel

/-- The invariant holds in the middle of a transaction. -/
theorem witness_InvariantKeptByEveryStep :
    (withInputs [.turn 0] gated).Inv ∧ ∃ t, step (withInputs [.turn 0] gated) = .next t ∧ t.mphase = .read := by
  refine ⟨⟨by decide, ?_, ?_, ?_⟩, reaches _ (by decide +kernel)⟩
  · exact ⟨by decide +kernel, by decide +kernel, trivial⟩
  · exact ⟨by decide, by decide, fun _ => by decide +kernel, by decide, by decide, by decide, .inl (by decide)⟩
  · exact ⟨by decide, ⟨by decide, by decide⟩, by decide⟩

/-- A step in either role that is no reset. -/
theorem witness_RolesKeepApart :
    ¬ resets (withInputs [.turn 0] (holding setFrame)) ∧ ¬ resets (withInputs [.turn 0] gated) ∧
    (holding setFrame).params.role = .slave ∧ gated.params.role = .master ∧
    (∃ t, step (withInputs [.turn 0] (holding setFrame)) = .next t ∧ t.height = 0x28) ∧
    ∃ t, step (withInputs [.turn 0] gated) = .next t ∧ t.mphase = .read :=
  ⟨not_resets_of_turn rfl, not_resets_of_turn rfl, by decide, by decide, reaches _ (by decide +kernel),
    reaches _ (by decide +kernel)⟩

/-- A response read, an Execute and a slave's read, each of which makes one transport call: with `n = 0` it fails, with
`n = 1` it does not. -/
theorem witness_BlockNeverStops :
    (∃ t, turn 13 (reading replyFrame) = .next t ∧
      t.env.trace = (reading replyFrame).env.trace ++ [.read 32 replyFrame]) ∧
    (∃ t, exec (.get 1) master = .next t ∧ t.env.trace = master.env.trace ++ [.baud 9600]) ∧
    (∃ t, turn 1 (withInbound [7] slave) = .next t ∧ t.env.trace = slave.env.trace ++ [.read 1 [7]]) ∧
    (Instr.get 1).dir? = none ∧
    [TEvent.baud 9600].length ≤ 1 ∧ 0 < [TEvent.baud 9600].length :=
  ⟨reaches _ (by decide +kernel), reaches _ (by decide +kernel), reaches _ (by decide +kernel), by decide⟩

theorem witness_TraceAndTimeOnlyGrow :
    ∃ t, step (withInputs [.turn 13] (reading replyFrame)) = .next t ∧ t.env.trace ≠ [] ∧ t.env.reports ≠ [] :=
  reaches _ (by decide +kernel)

/-- A line with an echoing adapter and two slaves, on which the master writes, and the first slave replies. -/
theorem witness_LineCarriesWrites :
    let l : Line := { master := withInputs [.turn 0] gated, slaves := [withInputs [.turn 0]
      { holding getFrame with height := 40, angle := 77 }, { slave with slvaddr := 2 }], echo := true }
    l.wf ∧ l.slaves[0]? = some (withInputs [.turn 0] { holding getFrame with height := 40, angle := 77 }) ∧
    l.slaves[1]? = some { slave with slvaddr := 2 } ∧
    (∃ m, step l.master = .next m ∧ m.env.trace = l.master.env.trace ++ [.wrote 0 getFrame]) ∧
    ∃ v, step (withInputs [.turn 0] { holding getFrame with height := 40, angle := 77 }) = .next v ∧
      v.env.trace = (withInputs [.turn 0] (holding getFrame)).env.trace ++ [.wrote 0 replyFrame] :=
  ⟨by decide, rfl, rfl, reaches _ (by decide +kernel), reaches _ (by decide +kernel)⟩

end Sys2Proof.Tests
end

/-! Parameters and Device Identity over a step (R8, R21, R22): every step keeps them but SET_SLAVE_ADDRESS and reset. -/

namespace Sys2Proof.Machine

/-! ### States with the same identity -/

theorem SameIdentity.refl (s : State) : SameIdentity s s := ⟨rfl, rfl, rfl, rfl⟩

theorem SameIdentity.trans {s t u : State} (h : SameIdentity s t) (h' : SameIdentity t u) : SameIdentity s u :=
  ⟨h'.params.trans h.params, h'.devtype.trans h.devtype, h'.srcaddr.trans h.srcaddr, h'.slvaddr.trans h.slvaddr⟩

theorem sameIdentity_dropInput (rest : List Input) (s : State) : SameIdentity s (dropInput rest s) := by
  constructor <;> simp

/-- RESPOND takes the frame before it acts on the request, and that keeps the identity (R175). -/
theorem Requested.sameIdentity {i q : Instr} {s u : State} (h : Requested i s q u) : SameIdentity s u := by
  cases h with
  | presented => exact .refl s
  | responded => constructor <;> simp

/-- A failing call ends a step with the identity that it would have had, or with the one before it (U6). -/
theorem failAtCall_sameIdentity (n : Nat) (s t : State) :
    SameIdentity t (failAtCall n s t) ∨ SameIdentity s (failAtCall n s t) := by
  obtain ⟨-, e⟩ | ⟨-, -, e⟩ | ⟨-, -, -, e⟩ | ⟨-, -, -, e⟩ := failAtCall_cases n s t <;> rw [e]
  · exact .inl (.refl t)
  · exact .inl (by constructor <;> simp)
  · exact .inl (by constructor <;> rfl)
  · exact .inr (by constructor <;> rfl)

/-- R183: an accepted operand lies in 1..255, and the address is its value. -/
theorem slaveAddress?_eq_some {v : Int} {b : Byte} (h : slaveAddress? v = some b) :
    1 ≤ v ∧ v ≤ 255 ∧ (b.toNat : Int) = v := by
  unfold slaveAddress? at h
  split at h
  · obtain rfl := Option.some.inj h
    refine ⟨by omega, by omega, ?_⟩
    rw [BitVec.toNat_ofInt]
    omega
  · cases h

/-! ### What becomes of the identity -/

/-- What can become of the parameters and of Device Identity where the operations `asked` are presented: they are kept,
SET_SLAVE_ADDRESS writes `SLVADDR` (R183), or reset writes the values of construction (R230). -/
inductive IdentityEffect (asked : Instr → Prop) (s t : State) : Prop where
  | kept : SameIdentity s t → IdentityEffect asked s t
  | addressSet (v : Int) (b : Byte) : asked (.setSlaveAddress v) → slaveAddress? v = some b →
      SameIdentity { s with slvaddr := b } t → IdentityEffect asked s t
  | reset : asked .reset → SameIdentity (State.resetWith s.params s.env) t → IdentityEffect asked s t

section Transport

variable {asked asked' : Instr → Prop} {s s' t u : State}

theorem IdentityEffect.trans (h : IdentityEffect asked s t) (htu : SameIdentity t u) : IdentityEffect asked s u := by
  cases h with
  | kept h => exact .kept (h.trans htu)
  | addressSet v b ha hv h => exact .addressSet v b ha hv (h.trans htu)
  | reset ha h => exact .reset ha (h.trans htu)

/-- The effect seen from an earlier state with the same identity, where the same operations are asked for. -/
theorem IdentityEffect.after (hs : SameIdentity s s') (hasked : ∀ i, asked i → asked' i)
    (h : IdentityEffect asked s' t) : IdentityEffect asked' s t := by
  cases h with
  | kept h => exact .kept (hs.trans h)
  | addressSet v b ha hv h =>
    have hb : SameIdentity { s with slvaddr := b } { s' with slvaddr := b } :=
      ⟨hs.params, hs.devtype, hs.srcaddr, rfl⟩
    exact .addressSet v b (hasked _ ha) hv (hb.trans h)
  | reset ha h =>
    have hp : SameIdentity (State.resetWith s.params s.env) (State.resetWith s'.params s'.env) := by
      constructor <;> simp [State.resetWith, hs.params]
    exact .reset (hasked _ ha) (hp.trans h)

theorem IdentityEffect.failAtCall (n : Nat) (h : IdentityEffect asked s t) :
    IdentityEffect asked s (failAtCall n s t) := by
  obtain ht | hs := failAtCall_sameIdentity n s t
  · exact h.trans ht
  · exact .kept hs

end Transport

/-- An instruction keeps the identity, or is SET_SLAVE_ADDRESS or reset and writes it. -/
theorem Effect.identity {i : Instr} {s t : State} (h : Effect i s t) : IdentityEffect (· = i) s t := by
  cases h with
  | addressSet _ v b hv => exact .addressSet v b rfl hv (by constructor <;> simp)
  | resetTo => exact .reset rfl (by constructor <;> rfl)
  | acted _ _ _ _ _ _ hq => exact .kept (hq.sameIdentity.trans (by constructor <;> simp))
  | stored _ _ _ _ _ _ _ _ _ _ _ hq => exact .kept (hq.sameIdentity.trans (by constructor <;> simp))
  | answered _ _ _ _ _ _ _ hq => exact .kept (hq.sameIdentity.trans (by constructor <;> simp))
  | overflowed => exact .kept (by constructor <;> simp [rxOverflows])
  | rejected => exact .kept (by constructor <;> simp [rejectFrame])
  | _ => exact .kept (by constructor <;> simp)

/-- An instruction other than SET_SLAVE_ADDRESS and reset keeps the identity. -/
theorem Effect.sameIdentity {i : Instr} {s t : State} (h : Effect i s t) (hset : ∀ v, i ≠ .setSlaveAddress v)
    (hreset : i ≠ .reset) : SameIdentity s t := by
  cases h.identity with
  | kept h => exact h
  | addressSet v _ hi => exact absurd hi.symm (hset v)
  | reset hi => exact absurd hi.symm hreset

/-- What the block does by itself keeps the identity. -/
theorem TurnEffect.sameIdentity {k : Nat} {s t : State} (h : TurnEffect k s t) : SameIdentity s t := by
  cases h with
  | responds _ _ _ h => exact h.sameIdentity nofun nofun
  | readsByte _ b _ _ h => exact .trans (by constructor <;> simp) (h.sameIdentity nofun nofun)
  | releases => constructor <;> simp [gateReleases]
  | _ => constructor <;> simp

/-- A step keeps the identity, or SET_SLAVE_ADDRESS or reset is presented in it and writes it. -/
theorem StepEffect.identity {s t : State} (h : StepEffect s t) : IdentityEffect (presents s) s t := by
  cases h with
  | own _ k _ h => exact .kept (.trans (by constructor <;> rfl) h.sameIdentity)
  | turned _ k rest _ h => exact .kept ((sameIdentity_dropInput rest s).trans h.sameIdentity)
  | turnFailed t n k rest _ h =>
    exact ((IdentityEffect.kept h.sameIdentity).failAtCall n).after (sameIdentity_dropInput rest s) fun _ hp => hp
  | ran _ i rest hi _ h =>
    have hp : ∀ j, j = i → presents s j := by rintro _ rfl; exact ⟨rest, .inl hi⟩
    exact h.identity.after (sameIdentity_dropInput rest s) hp
  | runFailed t n i rest hi _ h =>
    have hp : ∀ j, j = i → presents s j := by rintro _ rfl; exact ⟨rest, .inr ⟨n, hi⟩⟩
    exact (h.identity.failAtCall n).after (sameIdentity_dropInput rest s) hp
  | clocked => exact .kept (by constructor <;> simp [setClock])
  | _ => exact .kept (by constructor <;> simp)

/-! ### The statement -/

/-- Settles O51: the three ways a step can treat the identity; a reset writes the value of construction, which the third
clause takes as not 0, and an accepted operand is at least 1. -/
theorem identityWrittenOnlyByItsOperations : Obligations.IdentityWrittenOnlyByItsOperations := by
  intro s t h
  cases (step_effect h).identity with
  | kept h =>
    exact ⟨h.params, fun hne => absurd h.slvaddr hne, fun _ h0 => h.slvaddr ▸ h0,
      fun hne => absurd hne (by simp [h.devtype, h.srcaddr])⟩
  | addressSet v b hp hv h =>
    obtain ⟨hlow, hhigh, hval⟩ := slaveAddress?_eq_some hv
    have hb : t.slvaddr = b := h.slvaddr
    refine ⟨h.params, fun _ => .inr ⟨v, hp, hlow, hhigh, hb ▸ hval⟩, fun _ _ h0 => ?_,
      fun hne => absurd hne (by simp [h.devtype, h.srcaddr])⟩
    have hzero : b.toNat = 0 := by rw [← hb, h0]; rfl
    omega
  | reset hr h => exact ⟨h.params, fun _ => .inl hr, fun hinit _ => h.slvaddr ▸ hinit, fun _ => hr⟩

end Sys2Proof.Machine

/-! The frame of a field list (R76, R78, R79, R81): stuffing written out, the byte count, the sum. -/

namespace Sys2Proof

open Config (Delims)

/-! ### The fields of an instruction -/

/-- A wire-frame row has at most the eight logical fields of SET (R71, R73). -/
theorem fields?_length_le {i : Instr} {fields : List Byte} (h : i.fields? = some fields) : fields.length ≤ 8 := by
  cases i <;> cases h <;> simp

/-- The encoding of an instruction is the frame of its fields (R81). -/
theorem encode_of_fields? {i : Instr} {fields : List Byte} (d : Delims) (h : i.fields? = some fields) :
    encode d i = some (frameOf d fields) := by
  simp [encode, h]

/-! ### Stuffing and the sum -/

/-- Stuffing doubles the escape byte and keeps any other (R76). -/
theorem esc_eq_ite (v : Byte) : esc v = if v = 0x10 then [0x10, 0x10] else [v] := by
  split
  case isTrue h =>
    subst h
    exact esc_dle
  case isFalse h => exact esc_of_ne h

/-- Each field stands in the payload in order, doubled when it is the escape byte (R76). -/
theorem payloadOf_eq_flatMap (fields : List Byte) :
    payloadOf fields = fields.flatMap (fun v => if v = 0x10 then [0x10, 0x10] else [v]) :=
  congrArg fields.flatMap (funext esc_eq_ite)

/-- After the header of a frame stand the body and its FCC (R81). -/
theorem frameOf_drop_header (d : Delims) (fields : List Byte) :
    (frameOf d fields).drop 2 = bodyOf d fields ++ [fcc (bodyOf d fields)] := rfl

/-- "`(sum(body) + FCC) mod 256 = 0`" over the bytes of a frame from BC through FCC (R14, R79). -/
theorem sumBytes_frameOf_drop_header (d : Delims) (fields : List Byte) :
    sumBytes ((frameOf d fields).drop 2) % 256 = 0 := by
  simpa [frameOf_drop_header] using sumBytes_add_fcc (bodyOf d fields)

/-! ### The statement -/

/-- Settles O4: the encoder builds the frame of the instruction's fields, and these are few enough that the byte count
is exact, so it can stand for the payload and the terminator in the length of the frame. -/
theorem encodedFrameShape : Obligations.EncodedFrameShape := by
  intro d i fields f hfields hencode
  obtain rfl : frameOf d fields = f := Option.some.inj ((encode_of_fields? d hfields).symm.trans hencode)
  have hbc := byteCount_toNat (fields?_length_le hfields)
  refine ⟨byteCount fields, fcc (bodyOf d fields), esc (byteCount fields), payloadOf fields,
    payloadOf_eq_flatMap fields, hbc, esc_eq_ite _, ?shape, ?length, sumBytes_frameOf_drop_header d fields⟩
  case shape => simp [frameOf, bodyOf, Config.dle]
  case length =>
    rw [frameOf_length, hbc]
    omega

end Sys2Proof

/-! The Frame Codec's operations ENCODE and ENCODE_REPLY (R100, R102): each changes nothing but the caller's report. -/

namespace Sys2Proof.Machine

/-! ### What the two operations report -/

/-- R100 with a range that is not inverted. -/
theorem exec_encode_of_le {das dae : Byte} (h : das ≤ dae) (c : Command) (dt sa : Byte) (s : State) :
    exec (.encode c das dae dt sa) s =
      .next (report (.frame (frameOf s.params.delims (requestFields c das dae dt sa))) s) := by
  change execEncode c das dae dt sa s = _
  simp only [execEncode, encodeRequest_ok h]

/-- R100 with an inverted range: "no frame is returned". -/
theorem exec_encode_of_lt {das dae : Byte} (h : dae < das) (c : Command) (dt sa : Byte) (s : State) :
    exec (.encode c das dae dt sa) s = .next (report (.failed (.invalidAddressRange das dae)) s) := by
  change execEncode c das dae dt sa s = _
  simp only [execEncode, encodeRequest_error h]

/-- R102: there is one case, "because there is no range". -/
theorem exec_encodeReply (da dt sa h a : Byte) (s : State) :
    exec (.encodeReply da dt sa h a) s = .next (report (.frame (encodeReply s.params.delims da dt sa h a)) s) := rfl

/-! ### The statements -/

/-- Settles O10: the order of the two addresses decides between the frame and the failure, and a report writes no
register. -/
theorem encodeReturnsFrameOrRangeFailure : Obligations.EncodeReturnsFrameOrRangeFailure := by
  intro c das dae dt sa s
  constructor
  · intro hle
    exact exec_encode_of_le hle c dt sa s
  · intro hlt
    exact exec_encode_of_lt hlt c dt sa s

/-- Settles O11: the reported frame is ENCODE_REPLY's, whose control word and tag are those of GET (R72). -/
theorem encodeReplyReturnsFrame : Obligations.EncodeReplyReturnsFrame := by
  intro da dt sa h a s
  exact exec_encodeReply da dt sa h a s

end Sys2Proof.Machine

/-! A transaction that waits in `M_GATE` (R132, R136, R143): how it came there, what a step can make of it, and the
silent period before its write. -/

namespace Sys2Proof.Machine

/-! ### States with the same master registers -/

theorem SameMaster.refl (s : State) : SameMaster s s := ⟨rfl, rfl, rfl, rfl, rfl, rfl, rfl⟩

theorem SameMaster.trans {s t u : State} (h : SameMaster s t) (h' : SameMaster t u) : SameMaster s u :=
  ⟨h'.cfg.trans h.cfg, h'.lrt.trans h.lrt, h'.mphase.trans h.mphase, h'.mcmd.trans h.mcmd, h'.gdl.trans h.gdl,
    h'.txbuf.trans h.txbuf, h'.mres.trans h.mres⟩

/-! ### How a transaction comes to wait -/

theorem acceptWhenIdle_of_idle {s : State} (start : State → State) (hr : s.params.role = .master)
    (hm : s.mphase = .idle) : acceptWhenIdle start s = start s := by
  simp [acceptWhenIdle, hr, hm]

/-- Each of the four operations begins its transaction at an idle master, after drawing the operands it does not have
(R140, R152 to R154), and its request has the fields of its row. -/
theorem Asks.begins {s : State} {i : Instr} {cmd : Cmd} {das dae : Byte} {fields : List Byte}
    (hasks : Asks s i cmd das dae fields) (hr : s.params.role = .master) (hm : s.mphase = .idle) :
    ∃ h a n, exec i s = .next (beginTransaction cmd das dae h a (drawn n s)) ∧
      requestFields (commandOf cmd h a) das dae s.devtype s.srcaddr = fields := by
  have hexec (start : State → State) : (.next (acceptWhenIdle start s) : Host.Outcome State Fault Refusal) =
      .next (start s) := congrArg _ (acceptWhenIdle_of_idle start hr hm)
  cases hasks with
  | execute cmd das dae h a => exact ⟨h, a, 0, hexec _, by cases cmd <;> rfl⟩
  | stop das dae => exact ⟨_, _, 2, hexec _, rfl⟩
  | set das dae h a => exact ⟨orDefault h, orDefault a, 0, hexec _, rfl⟩
  | get address => exact ⟨_, _, 2, hexec _, rfl⟩

/-- With a valid range and a positive baud rate, `beginTransaction_cases` ends in the entry of the gate (R142, R143). -/
theorem gateEntered_enterGate (cmd : Cmd) (das dae h a : Byte) (n : Nat) (s : State) :
    GateEntered cmd das dae (frameOf s.params.delims
        (requestFields (commandOf cmd h a) das dae s.devtype s.srcaddr)) s
      (enterGate (emit (.baud s.env.baud) (openIfRequested (encoded cmd das dae h a (drawn n s))))) where
  identity := by constructor <;> simp
  slave := by constructor <;> simp
  cfg := by simp
  lrt := by simp
  mres := by simp
  mphase := by simp
  mcmd := by simp
  txbuf := by simp
  gdl := by
    -- By cases of `LRT`: the deadline is a match in both statements, and each reduces at a constructor.
    cases hl : s.lrt with
    | none => simp only [enterGate_fields, emit_fields, openIfRequested_fields, gateDeadline_eq, hl]
    | some l => simp only [enterGate_fields, emit_fields, openIfRequested_fields, gateDeadline_eq, hl]
  trace := by simp
  inbound := by simp
  reports := by simp
  gateCall := by simp
  outside := by constructor <;> simp

/-- An operation that leaves an idle master in `M_GATE` has entered the gate with its own request: the two failures of
Execute leave it in `M_IDLE`. -/
theorem Asks.gateEntered {s g : State} {i : Instr} {cmd : Cmd} {das dae : Byte} {fields : List Byte}
    (hasks : Asks s i cmd das dae fields) (hr : s.params.role = .master) (hm : s.mphase = .idle)
    (hexec : exec i s = .next g) (hg : g.mphase = .gate) :
    GateEntered cmd das dae (frameOf s.params.delims fields) s g := by
  obtain ⟨h, a, n, hbegin, rfl⟩ := hasks.begins hr hm
  obtain rfl := next_inj (hbegin.symm.trans hexec)
  obtain ⟨-, e⟩ | ⟨-, -, e⟩ | ⟨-, -, e⟩ := beginTransaction_cases cmd das dae h a (drawn n s)
  · simp [e] at hg
  · simp [e] at hg
  · rw [e]
    exact gateEntered_enterGate cmd das dae h a n s

/-! ### What a step can make of a state in `M_GATE` -/

/-- The parameters and the master's registers are kept, and in the master role no transport call is made. -/
structure MasterKept (s t : State) : Prop where
  params : t.params = s.params
  registers : SameMaster s t
  trace : s.params.role = .master → t.env.trace = s.env.trace

/-- From `s`, in `M_GATE`, to `t`: the master's registers are kept if the phase is, and what a master writes is `TXBUF`
at the deadline or later, with `LRT` kept (R64, R143, R144). -/
structure GateStep (s t : State) : Prop where
  params : t.params = s.params
  stays : t.mphase = .gate → SameMaster s t
  writes : s.params.role = .master → ∃ new, t.env.trace = s.env.trace ++ new ∧
    ∀ at_ bs, TEvent.wrote at_ bs ∈ new → s.gdl ≤ at_ ∧ bs = s.txbuf ∧ t.lrt = s.lrt

section GateSteps

variable {s t u : State}

theorem MasterKept.gateStep (h : MasterKept s t) : GateStep s t where
  params := h.params
  stays _ := h.registers
  writes hr := ⟨[], by simpa using h.trace hr, nofun⟩

/-- A step is taken behind a change that the master does not see: an input taken off, a byte read by a slave. -/
theorem MasterKept.trans_gateStep (h : MasterKept s t) (h' : GateStep t u) : GateStep s u where
  params := h'.params.trans h.params
  stays hu := h.registers.trans (h'.stays hu)
  writes hr := by
    obtain ⟨new, htrace, hnew⟩ := h'.writes (by rw [h.params, hr])
    rw [h.trace hr] at htrace
    rw [h.registers.gdl, h.registers.txbuf, h.registers.lrt] at hnew
    exact ⟨new, htrace, hnew⟩

/-- The gate opens: `TXBUF` is written at or after the deadline, `rest` are the transport calls after it. -/
theorem GateStep.of_write (hparams : t.params = s.params) (hlrt : t.lrt = s.lrt) (hphase : t.mphase ≠ .gate)
    (hopen : s.gdl ≤ s.env.now) (rest : List TEvent) (hrest : ∀ at_ bs, TEvent.wrote at_ bs ∉ rest)
    (htrace : t.env.trace = s.env.trace ++ .wrote s.env.now s.txbuf :: rest) : GateStep s t where
  params := hparams
  stays ht := absurd ht hphase
  writes _ := by
    refine ⟨_, htrace, fun at_ bs hmem => ?_⟩
    obtain heq | hmem := List.mem_cons.1 hmem
    · cases heq
      exact ⟨hopen, rfl, hlrt⟩
    · exact absurd hmem (hrest at_ bs)

/-- A failing call of a master ends its wait and leaves no more writes than the whole step makes (U6). -/
theorem GateStep.failAtCall (n : Nat) (h : GateStep s t) : GateStep s (failAtCall n s t) := by
  obtain ⟨-, e⟩ | ⟨-, -, e⟩ | ⟨-, hr, -, e⟩ | ⟨-, hr, -, e⟩ := failAtCall_cases n s t <;> rw [e]
  · exact h
  · refine ⟨by simpa using h.params, by simp, fun hr => ?_⟩
    obtain ⟨new, htrace, hnew⟩ := h.writes hr
    refine ⟨new.take n ++ [.broken (Config.sentAfterError t.env.draws)], by simp [callsOf_of_trace htrace],
      fun at_ bs hmem => ?_⟩
    have hmem : TEvent.wrote at_ bs ∈ new := List.mem_of_mem_take (by simpa using hmem)
    obtain ⟨hgdl, hbs, -⟩ := hnew at_ bs hmem
    exact ⟨hgdl, hbs, by simp⟩
  · refine ⟨h.params, fun ht => ?_, fun hm => by simp [hr] at hm⟩
    obtain ⟨hcfg, hlrt, hmphase, hmcmd, hgdl, htxbuf, hmres⟩ := h.stays ht
    exact ⟨hcfg, hlrt, hmphase, hmcmd, hgdl, htxbuf, hmres⟩
  · exact ⟨rfl, fun _ => ⟨rfl, rfl, rfl, rfl, rfl, rfl, rfl⟩, fun hm => by simp [hr] at hm⟩

end GateSteps

theorem masterKept_dropInput (rest : List Input) (s : State) : MasterKept s (dropInput rest s) :=
  ⟨by simp, by constructor <;> simp, by simp⟩

theorem masterKept_drawn (n : Nat) (s : State) : MasterKept s (drawn n s) :=
  ⟨rfl, by constructor <;> rfl, fun _ => rfl⟩

/-- RESPOND takes the frame before it acts on the request, and that touches nothing of the master (R175, R210). -/
theorem Requested.masterKept {i q : Instr} {s u : State} (h : Requested i s q u) : MasterKept s u := by
  cases h with
  | presented => exact ⟨rfl, .refl s, fun _ => rfl⟩
  | responded => exact ⟨by simp, by constructor <;> simp, by simp⟩

/-- An operation presented in `M_GATE` is refused or touches no register of the master, but for reset, which leaves
`M_GATE`; none makes a master write (R140, R143, R210). -/
theorem Effect.gateStep {i : Instr} {s t : State} (h : Effect i s t) (hd : i.dir? = none) (hm : s.mphase = .gate) :
    GateStep s t := by
  have hidle : s.mphase ≠ .idle := by simp [hm]
  cases h with
  | rangeFailed _ _ _ _ _ _ _ _ _ hi | baudFailed _ _ _ _ _ _ _ _ _ hi | gateEntered _ _ _ _ _ _ _ _ _ hi
  | gateFailed _ _ hi | gateCalled _ _ hi | recorded _ _ hi => exact absurd hi hidle
  | replied _ _ _ _ hwire | responseFailed _ _ _ hwire | replyRejected _ _ hwire => exact absurd hd hwire
  | nothing => exact MasterKept.gateStep ⟨rfl, .refl s, fun _ => rfl⟩
  | told | addressSet => exact MasterKept.gateStep ⟨by simp, by constructor <;> simp, by simp⟩
  | frameEnded | etxReceived | overflowed | accumulated | rejected =>
    exact MasterKept.gateStep ⟨rfl, by constructor <;> rfl, fun _ => rfl⟩
  | acted _ _ _ u _ hr hq | stored _ _ u _ _ _ _ _ _ _ hr hq | answered _ _ u _ _ _ hr hq =>
    exact MasterKept.gateStep ⟨by simpa using hq.masterKept.params,
      hq.masterKept.registers.trans (by constructor <;> simp), fun hm => by simp [hr] at hm⟩
  | resetTo => exact ⟨rfl, nofun, fun _ => ⟨[], by simp [State.resetWith], nofun⟩⟩

/-- What the block does by itself in `M_GATE`: it waits, a call of GATE returns, or `TXBUF` is written (R132, R144). -/
theorem TurnEffect.gateStep {k : Nat} {s t : State} (h : TurnEffect k s t) (hm : s.mphase = .gate) : GateStep s t := by
  cases h with
  | waits => exact MasterKept.gateStep ⟨rfl, .refl s, fun _ => rfl⟩
  | responds _ _ _ h => exact h.gateStep rfl hm
  | readsNothing hr =>
    exact MasterKept.gateStep ⟨by simp, by constructor <;> simp, fun hm => by simp [hr] at hm⟩
  | readsByte _ _ hr _ h =>
    have hread : MasterKept s (tRead 1 k s) := ⟨by simp, by constructor <;> simp, fun hm => by simp [hr] at hm⟩
    exact hread.trans_gateStep (h.gateStep rfl (by simpa using hm))
  | releases => exact ⟨rfl, nofun, fun _ => ⟨[], by simp [gateReleases], nofun⟩⟩
  | writesForEcho _ _ hopen => exact .of_write (by simp) (by simp) nofun hopen [] nofun (by simp)
  | writesForReply _ _ hopen => exact .of_write (by simp) (by simp) nofun hopen [] nofun (by simp)
  | writesLast _ _ hopen =>
    refine .of_write (by simp) (by simp) (by simp) hopen (if s.cfg.closeAfterCall then [.closed] else [])
      (fun _ _ => ?_) (by simp)
    split <;> simp
  | echoFails _ hp | echoForReply _ hp | echoLast _ hp | noResponse _ hp | badResponse _ _ hp | replies _ _ _ hp =>
    simp [hm] at hp

/-- Every step from `M_GATE`. -/
theorem StepEffect.gateStep {s t : State} (h : StepEffect s t) (hm : s.mphase = .gate) : GateStep s t := by
  have hgate (rest : List Input) : (dropInput rest s).mphase = .gate := by simpa using hm
  have hdrop (rest : List Input) : MasterKept s (dropInput rest s) := masterKept_dropInput rest s
  cases h with
  | own _ k _ h => exact (masterKept_drawn 1 s).trans_gateStep (h.gateStep hm)
  | turned _ k rest _ h => exact (hdrop rest).trans_gateStep (h.gateStep (hgate rest))
  | turnFailed _ n k rest _ h => exact (hdrop rest).trans_gateStep ((h.gateStep (hgate rest)).failAtCall n)
  | ran _ i rest _ hd h => exact (hdrop rest).trans_gateStep (h.gateStep hd (hgate rest))
  | runFailed _ n i rest _ hd h => exact (hdrop rest).trans_gateStep ((h.gateStep hd (hgate rest)).failAtCall n)
  | cfgWritten _ _ _ hidle => simp [hm] at hidle
  | clocked => exact MasterKept.gateStep ⟨rfl, by constructor <;> rfl, fun _ => rfl⟩
  | _ => exact MasterKept.gateStep ⟨by simp, by constructor <;> simp, by simp⟩

/-! ### The wait as a whole -/

/-- Over a whole wait in `M_GATE` the parameters and the master's registers are those it began with. -/
theorem WaitsInGate.kept {g u : State} (h : WaitsInGate g u) (hg : g.mphase = .gate) :
    u.params = g.params ∧ SameMaster g u := by
  induction h with
  | here => exact ⟨rfl, .refl g⟩
  | later _ hs hv ih =>
    obtain ⟨hparams, hregs⟩ := ih
    have hstep := (step_effect hs).gateStep (hregs.mphase.trans hg)
    exact ⟨hstep.params.trans hparams, hregs.trans (hstep.stays hv)⟩

/-- Settles O17: the operation enters the gate with its request and the deadline of R132, the wait keeps both, and a
step from `M_GATE` writes nothing but `TXBUF`, no earlier than the deadline. -/
theorem silentPeriodHeldBeforeWrite : Obligations.SilentPeriodHeldBeforeWrite := by
  constructor
  · intro i cmd das dae fields s g u v l at_ bs new hasks hr hm _ hl _ hexec hg hwait hstep htrace hmem
    have hentered := hasks.gateEntered hr hm hexec hg
    obtain ⟨hparams, hregs⟩ := hwait.kept hg
    have hrole : u.params.role = .master := by rw [hparams, hentered.identity.params, hr]
    obtain ⟨new', htrace', hnew⟩ := ((step_effect hstep).gateStep (hregs.mphase.trans hg)).writes hrole
    obtain rfl : new = new' := List.append_cancel_left (htrace.symm.trans htrace')
    obtain ⟨hopen, hbs, hv⟩ := hnew at_ bs hmem
    have hlrt : u.lrt = some l := by rw [hregs.lrt, hentered.lrt, hl]
    have hgdl : u.gdl = max s.env.now (l + 77 / (2 * (s.env.baud : Rat))) := by
      rw [hregs.gdl, hentered.gdl, hl]
    refine ⟨?silent, hlrt, hv.trans hlrt, ?request⟩
    case silent =>
      calc l + 77 / (2 * (s.env.baud : Rat))
        _ ≤ max s.env.now (l + 77 / (2 * (s.env.baud : Rat))) := le_max_right _ _
        _ = u.gdl := hgdl.symm
        _ ≤ at_ := hopen
    case request => rw [hbs, hregs.txbuf, hentered.txbuf]
  · intro u v hstep hu hv
    have hregs := ((step_effect hstep).gateStep hu).stays hv
    exact ⟨hregs.lrt, hregs.gdl, hregs.txbuf, hregs.mcmd, hregs.cfg⟩

end Sys2Proof.Machine

/-! The Responder (R172, R175 to R181): a read that brings nothing or one byte, RESPOND on a frame that fails DECODE,
and each request frame at a slave. -/

namespace Sys2Proof.Machine

/-! ### The read of the Responder -/

/-- Nothing comes of a read of one byte exactly when nothing is unread or the transport answers with nothing (R53). -/
theorem readBytes_one_eq_nil (k : Nat) (s : State) : readBytes 1 k s = [] ↔ s.env.inbound = [] ∨ k = 0 := by
  have hmin : min k 1 = 0 ↔ k = 0 := by omega
  rw [readBytes, List.take_eq_nil_iff, hmin, or_comm]

/-- A transport that answers brings the oldest unread byte to a read of one byte (R53). -/
theorem readBytes_one_of_cons {b : Byte} {rest : List Byte} {k : Nat} {s : State} (hin : s.env.inbound = b :: rest)
    (hk : k ≠ 0) : readBytes 1 k s = [b] := by
  have hmin : min k 1 = 1 := by omega
  simp [readBytes, hin, hmin]

/-- The read that brings the oldest unread byte consumes it and is traced (R53). -/
theorem tRead_one_of_cons {b : Byte} {rest : List Byte} {k : Nat} {s : State} (hin : s.env.inbound = b :: rest)
    (hk : k ≠ 0) : tRead 1 k s =
      { s with env := { s.env with inbound := rest, trace := s.env.trace ++ [.read 1 [b]] } } := by
  have hmin : min k 1 = 1 := by omega
  simp [tRead, emit, readBytes_one_of_cons hin hk, hin, hmin]

/-- No byte, no RECEIVE: the turn is the read alone (R172). -/
theorem turn_of_readBytes_eq_nil {k : Nat} {s : State} (hr : s.params.role = .slave) (hp : s.rphase ≠ .ready)
    (hread : readBytes 1 k s = []) : turn k s = .next (tRead 1 k s) := by
  simp [turn, hr, hp, hread]

/-- The byte that a turn reads is given to RECEIVE (R171). -/
theorem turn_of_readBytes_eq_cons {b : Byte} {bs : List Byte} {k : Nat} {s : State} (hr : s.params.role = .slave)
    (hp : s.rphase ≠ .ready) (hread : readBytes 1 k s = b :: bs) :
    turn k s = exec (.receive b) (tRead 1 k s) := by
  simp [turn, hr, hp, hread, exec]

/-- An empty read leaves the inbound stream as it is: what it returned and what it left make up the stream. -/
theorem tRead_inbound_of_readBytes_eq_nil {n k : Nat} {s : State} (hread : readBytes n k s = []) :
    (tRead n k s).env.inbound = s.env.inbound := by
  simpa [hread] using readBytes_append n k s

/-- A read writes nothing to the line (R53). -/
theorem outbound_tRead (n k : Nat) (s : State) : outbound (tRead n k s) = outbound s := by
  have htrace : (tRead n k s).env.trace = s.env.trace ++ [.read n (readBytes n k s)] := by simp
  simpa [TEvent.written] using outbound_of_trace htrace

/-- Settles O36: the turn of a Responder that is not in `R_READY` is a read of one byte, alone or followed by RECEIVE of
that byte. -/
theorem emptyReadChangesNothing : Obligations.EmptyReadChangesNothing := by
  intro k s hr hp
  constructor
  · intro hempty
    have hread := (readBytes_one_eq_nil k s).2 hempty
    exact ⟨tRead 1 k s, turn_of_readBytes_eq_nil hr hp hread, by constructor <;> simp, by constructor <;> simp,
      by constructor <;> simp, tRead_inbound_of_readBytes_eq_nil hread, outbound_tRead 1 k s⟩
  · intro b rest hin hk
    rw [turn_of_readBytes_eq_cons hr hp (readBytes_one_of_cons hin hk), tRead_one_of_cons hin hk]

/-! ### RESPOND on a frame that fails DECODE -/

/-- RESPOND takes the frame and rejects it, whatever the sub-cause (R175, R176). -/
theorem exec_respond_of_error {s : State} {c : SubCause} (hr : s.params.role = .slave) (hp : s.rphase = .ready)
    (hd : decodeFrame s.params.delims .req s.rxbuf = .error c) :
    exec .respond s = .next (rejectFrame (takeFrame s)) := by
  change execRespond s = _
  simp only [execRespond, hr, hp, hd]

/-- Settles O38: the frame is taken, then rejected. -/
theorem malformedRequestHasNoEffect : Obligations.MalformedRequestHasNoEffect := by
  intro s c hr hp hd
  exact exec_respond_of_error hr hp hd

/-! ### The request frames at a slave -/

/-- The range of a command covers an address that lies in it, bounds included (R13, R177). -/
theorem covers_iff {das dae addr : Byte} : covers das dae addr = true ↔ das ≤ addr ∧ addr ≤ dae := by
  simp [covers]

/-- R178: "The test is `das = SLVADDR and dae = SLVADDR`". -/
theorem addressesOnly_iff {das dae addr : Byte} : addressesOnly das dae addr = true ↔ das = addr ∧ dae = addr := by
  simp [addressesOnly]

section Requests

variable {s : State} {das dae : Byte}

/-- R177 with a range that covers the slave. -/
theorem exec_setRequest_of_covers (hr : s.params.role = .slave) (hc : covers das dae s.slvaddr = true)
    (cw sax sa h a : Byte) : exec (.setRequest das dae cw sax sa h a) s =
      .next { recordRequest .set s with height := updated s.height h, angle := updated s.angle a } := by
  change execSetRequest das dae cw sax sa h a s = _
  simp [execSetRequest, hr, hc]

/-- R177 with a range that does not cover the slave: the request is only recorded. -/
theorem exec_setRequest_of_not_covers (hr : s.params.role = .slave) (hc : ¬ covers das dae s.slvaddr = true)
    (cw sax sa h a : Byte) : exec (.setRequest das dae cw sax sa h a) s = .next (recordRequest .set s) := by
  change execSetRequest das dae cw sax sa h a s = _
  simp [execSetRequest, hr, hc]

/-- R178, R179: a GET addressed exactly and only to this slave is answered at once. -/
theorem exec_getRequest_of_addressesOnly (hr : s.params.role = .slave)
    (hc : addressesOnly das dae s.slvaddr = true) (cw sax sa : Byte) : exec (.getRequest das dae cw sax sa) s =
      .next (emit (.wrote s.env.now (encodeReply s.params.delims sa s.devtype s.srcaddr s.height s.angle))
        (recordRequest .get s)) := by
  change execGetRequest das dae cw sax sa s = _
  simp [execGetRequest, hr, hc]

/-- R178: any other GET is only recorded. -/
theorem exec_getRequest_of_not_addressesOnly (hr : s.params.role = .slave)
    (hc : ¬ addressesOnly das dae s.slvaddr = true) (cw sax sa : Byte) :
    exec (.getRequest das dae cw sax sa) s = .next (recordRequest .get s) := by
  change execGetRequest das dae cw sax sa s = _
  simp [execGetRequest, hr, hc]

/-- R180, for any range. -/
theorem exec_stopRequest_of_slave (hr : s.params.role = .slave) (das dae cw sax sa : Byte) :
    exec (.stopRequest das dae cw sax sa) s = .next (recordRequest .stop s) := by
  change execStopRequest das dae cw sax sa s = _
  simp only [execStopRequest, hr]

end Requests

/-- Settles O40: the range covers the slave or it does not, and a stored argument is the received byte unless that is
the sentinel. -/
theorem setRequestStoresWhenCovered : Obligations.SetRequestStoresWhenCovered := by
  intro das dae cw sax sa h a s hr
  constructor
  · intro hlow hhigh
    exact exec_setRequest_of_covers hr (covers_iff.2 ⟨hlow, hhigh⟩) cw sax sa h a
  · intro hout
    have hc : ¬ covers das dae s.slvaddr = true := by
      rw [covers_iff]
      bv_omega
    exact exec_setRequest_of_not_covers hr hc cw sax sa h a

/-- Settles O41: the GET is addressed to this slave alone or it is not; the reply is ENCODE_REPLY's, whose control word
and tag are those of GET (R72). -/
theorem getRequestAnsweredOnExactMatch : Obligations.GetRequestAnsweredOnExactMatch := by
  intro das dae cw sax sa s hr
  constructor
  · intro hdas hdae
    exact exec_getRequest_of_addressesOnly hr (addressesOnly_iff.2 ⟨hdas, hdae⟩) cw sax sa
  · intro hother
    have hc : ¬ addressesOnly das dae s.slvaddr = true := by
      rw [addressesOnly_iff]
      exact not_and_or.2 hother
    exact exec_getRequest_of_not_addressesOnly hr hc cw sax sa

/-- Settles O42: the request is recorded. -/
theorem stopRequestOnlyRecorded : Obligations.StopRequestOnlyRecorded := by
  intro das dae cw sax sa s hr
  exact exec_stopRequest_of_slave hr das dae cw sax sa

end Sys2Proof.Machine

/-! SET_SLAVE_ADDRESS (R183): the operand that is an address is stored, any other refused. -/

namespace Sys2Proof.Machine

theorem slaveAddress?_of_bounds {v : Int} (hlow : 1 ≤ v) (hhigh : v ≤ 255) :
    slaveAddress? v = some (BitVec.ofInt 8 v) :=
  if_pos ⟨hlow, hhigh⟩

theorem slaveAddress?_of_outside {v : Int} (hout : v < 1 ∨ 255 < v) : slaveAddress? v = none :=
  if_neg (by omega)

/-- R183 with an operand that is an address. -/
theorem exec_setSlaveAddress_of_some {v : Int} {b : Byte} (h : slaveAddress? v = some b) (s : State) :
    exec (.setSlaveAddress v) s = .next (report .ok { s with slvaddr := b }) := by
  change execSetSlaveAddress v s = _
  simp only [execSetSlaveAddress, h]

/-- R183 with any other operand. -/
theorem exec_setSlaveAddress_of_none {v : Int} (h : slaveAddress? v = none) (s : State) :
    exec (.setSlaveAddress v) s = .next (report (.refused (.invalidSlaveAddress v)) s) := by
  change execSetSlaveAddress v s = _
  simp only [execSetSlaveAddress, h, refuseHost_eq]

/-- Settles O50: the bounds decide whether the operand is an address, and the address stored is its value. -/
theorem setSlaveAddressChecksRange : Obligations.SetSlaveAddressChecksRange := by
  intro v s
  constructor
  · intro hlow hhigh
    have hv := slaveAddress?_of_bounds hlow hhigh
    obtain ⟨-, -, hval⟩ := slaveAddress?_eq_some hv
    exact ⟨BitVec.ofInt 8 v, hval, exec_setSlaveAddress_of_some hv s⟩
  · intro hout
    exact exec_setSlaveAddress_of_none (slaveAddress?_of_outside hout) s

end Sys2Proof.Machine

/-! The numbers of the outcome codes (R201): each code of the table stands in the row of its number, so the number tells
which code it is. -/

namespace Sys2Proof.Machine

/-- The name column of R201's table, from row 0 on. -/
def numberedCodes : List Code :=
  [.ok, .invalidAddressRange, .invalidBaudRate, .malformedFrame, .localEchoMismatch, .noResponse, .busy, .wrongRole,
    .invalidSlaveAddress, .rxOverflow]

theorem numberedCodes_getElem?_toNat {c : Code} (hc : c ≠ .transportError) :
    numberedCodes[c.toNat]? = some c := by
  cases c with
  | transportError => exact absurd rfl hc
  | _ => rfl

/-- No two codes of the table have one number. -/
theorem Code.toNat_inj_of_numbered {a b : Code} (ha : a ≠ .transportError) (hb : b ≠ .transportError)
    (h : a.toNat = b.toNat) : a = b := by
  apply Option.some.inj
  calc some a = numberedCodes[a.toNat]? := (numberedCodes_getElem?_toNat ha).symm
    _ = numberedCodes[b.toNat]? := by rw [h]
    _ = some b := numberedCodes_getElem?_toNat hb

/-- Settles O54: the numbers and the codes of failures and refusals are those the model's tables give, and the row of
its number determines a code. -/
theorem codesAreNumberedApart : Obligations.CodesAreNumberedApart := by
  refine ⟨rfl, rfl, rfl, rfl, rfl, rfl, rfl, rfl, rfl, rfl, ?failures⟩
  refine ⟨fun _ _ => rfl, fun _ => rfl, fun _ => rfl, rfl, rfl, ?refusals⟩
  refine ⟨rfl, rfl, fun _ => rfl, ?apart⟩
  exact fun _ _ => Code.toNat_inj_of_numbered

end Sys2Proof.Machine

/-! The reset event (R230, R231): the values the registers come back with, and what reset leaves as it is. -/

namespace Sys2Proof.Machine

/-- R230: reset ends in the state of construction, in the surroundings it found, with no call of GATE blocked. -/
theorem exec_reset (s : State) :
    exec .reset s = .next (State.resetWith s.params { s.env with gateCall := false }) :=
  rfl

/-- R28, R8: a legal instance has both bits of `CFG` 0 after reset. -/
theorem resetWith_cfg_of_wf {p : Config.Params} (h : p.wf) (e : Env) :
    (State.resetWith p e).cfg = { localEcho := false, closeAfterCall := false } := by
  obtain ⟨-, -, -, hecho, hclose, -⟩ := h
  simp only [State.resetWith, hecho, hclose]

/-- Reset does not touch the transport (R230). -/
theorem resetWith_sameLine (s : State) :
    SameLine s (State.resetWith s.params { s.env with gateCall := false }) := by
  constructor <;> rfl

/-- Time, the baud rate and the inputs are no registers, and reset keeps them (R230). -/
theorem resetWith_sameOutside (s : State) :
    SameOutside s (State.resetWith s.params { s.env with gateCall := false }) := by
  constructor <;> rfl

/-- Settles O52: reset ends in the state of construction, whose registers are those of R230's table, in the same
surroundings. -/
theorem resetSetsRegistersNotTransport : Obligations.ResetSetsRegistersNotTransport := by
  intro s
  refine ⟨_, exec_reset s, rfl, ?identity⟩
  refine ⟨rfl, rfl, rfl, rfl, rfl, rfl, fun hwf => resetWith_cfg_of_wf hwf _, ?master⟩
  refine ⟨rfl, rfl, rfl, rfl, rfl, rfl, rfl, ?surroundings⟩
  exact ⟨resetWith_sameLine s, resetWith_sameOutside s, rfl⟩

end Sys2Proof.Machine

/-! The round trip of the wire frames (R108, D9): what DECODE gives back of an encoded row, for requests and replies. -/

namespace Sys2Proof

open Config (Delims)

/-! ### The fields of a record -/

/-- The logical fields that a decoded record stands for, its tag in the CMD position (R71, R73). -/
def Record.fields : Record → List Byte
  | .stop _ das dae cw sax sa => [das, dae, cw, sax, sa, Config.tagStop]
  | .set _ das dae cw sax sa height angle => [das, dae, cw, sax, sa, Config.tagSet, height, angle]
  | .get _ das dae cw sax sa => [das, dae, cw, sax, sa, Config.tagGet]
  | .reply _ da cw sax sa height angle => [da, cw, sax, sa, Config.tagGet, height, angle]

theorem Record.toInstr_fields? (r : Record) : r.toInstr.fields? = some r.fields := by
  cases r <;> rfl

theorem Record.toInstr_dir? (r : Record) : r.toInstr.dir? = some r.dir := by
  cases r <;> rfl

/-- A wire-frame row is the instruction of a record, whatever its byte count. -/
theorem exists_record_of_dir? {i : Instr} {dir : Dir} (h : i.dir? = some dir) (bc : Byte) :
    ∃ r : Record, r.toInstr = i ∧ r.dir = dir ∧ r.bc = bc := by
  cases i with
  | stopRequest das dae cw sax sa => cases h; exact ⟨.stop bc das dae cw sax sa, rfl, rfl, rfl⟩
  | setRequest das dae cw sax sa hh a => cases h; exact ⟨.set bc das dae cw sax sa hh a, rfl, rfl, rfl⟩
  | getRequest das dae cw sax sa => cases h; exact ⟨.get bc das dae cw sax sa, rfl, rfl, rfl⟩
  | getReply da cw sax sa hh a => cases h; exact ⟨.reply bc da cw sax sa hh a, rfl, rfl, rfl⟩
  | _ => cases h

theorem Record.fields_length (r : Record) : 6 ≤ r.fields.length ∧ r.fields.length ≤ 8 := by
  cases r <;> simp [Record.fields]

/-- The walk of R103 over the stuffed fields of a record gives the record, whatever follows. -/
theorem walkFields_payloadOf (r : Record) (rest : List Byte) :
    walkFields r.dir r.bc (payloadOf r.fields ++ rest) = .ok (r, rest) := by
  cases r with
  | stop bc das dae cw sax sa => exact (walkRequest_append bc das dae cw sax sa rest).1
  | set bc das dae cw sax sa h a => exact (walkRequest_append bc das dae cw sax sa rest).2.2 h a
  | get bc das dae cw sax sa => exact (walkRequest_append bc das dae cw sax sa rest).2.1
  | reply bc da cw sax sa h a => exact walkReply_append bc da cw sax sa h a rest

/-- DECODE of the wire frame of a row, in its own direction, is a record that stands for the row (R108); its BC is the
one the encoder computed. -/
theorem decodeFrame_encode {d : Delims} {i : Instr} {dir : Dir} {f : List Byte} (hd : i.dir? = some dir)
    (he : encode d i = some f) (tail : List Byte) :
    ∃ r : Record, decodeFrame d dir (f ++ tail) = .ok r ∧ r.toInstr = i ∧ f = frameOf d r.fields ∧
      r.bc = byteCount r.fields := by
  obtain ⟨fields, hfields, rfl⟩ : ∃ fields, i.fields? = some fields ∧ frameOf d fields = f := by
    simpa [encode] using he
  obtain ⟨r, rfl, rfl, hbc⟩ := exists_record_of_dir? hd (byteCount fields)
  obtain rfl : r.fields = fields := Option.some.inj (r.toInstr_fields?.symm.trans hfields)
  obtain ⟨hmin, hmax⟩ := r.fields_length
  refine ⟨r, ?_, rfl, rfl, hbc⟩
  exact decodeFrame_frameOf d r.dir r.fields tail r (fun rest => hbc ▸ walkFields_payloadOf r rest) hbc hmax (by omega)

/-- "`len(frame) - 3 - len(esc(bc))`" is the byte count of a frame (R78, R108). -/
theorem byteCount_eq_frame_length (d : Delims) {fields : List Byte} (h : fields.length ≤ 8) :
    (byteCount fields).toNat = (frameOf d fields).length - 3 - (esc (byteCount fields)).length := by
  rw [frameOf_length, byteCount_toNat h]
  omega

/-! ### ENCODE as the encoding of a row -/

/-- What ENCODE returns is the encoding of the request row of its command (R71, R72, R100). -/
theorem encode_requestInstr (d : Delims) (c : Command) (das dae dt sa : Byte) :
    encode d (Machine.requestInstr c das dae (controlWord c.cmd) dt sa) =
      some (frameOf d (requestFields c das dae dt sa)) := by
  cases c <;> rfl

theorem requestInstr_dir? (c : Command) (das dae cw dt sa : Byte) :
    (Machine.requestInstr c das dae cw dt sa).dir? = some .req := by
  cases c <;> rfl

theorem encode_getReply (d : Delims) (da t s h a : Byte) :
    encode d (.getReply da 0x60 t s h a) = some (encodeReply d da t s h a) := rfl

/-- ENCODE returns a frame only for a range that is not inverted (R100). -/
theorem le_of_encodeRequest_ok {d : Delims} {c : Command} {das dae dt sa : Byte} {f : List Byte}
    (h : encodeRequest d c das dae dt sa = .ok f) : das ≤ dae ∧ frameOf d (requestFields c das dae dt sa) = f := by
  unfold encodeRequest at h
  split at h
  · cases h
  · exact ⟨by bv_omega, Except.ok.inj h⟩

/-- An accepted frame of ENCODE decodes to the request of its operands (R108). -/
theorem decodeFrame_encodeRequest {d : Delims} {c : Command} {das dae dt sa : Byte} {f : List Byte}
    (h : encodeRequest d c das dae dt sa = .ok f) :
    ∃ r, decodeFrame d .req f = .ok r ∧ r.toInstr = Machine.requestInstr c das dae (controlWord c.cmd) dt sa ∧
      r.bc.toNat = f.length - 3 - (esc r.bc).length := by
  obtain ⟨-, rfl⟩ := le_of_encodeRequest_ok h
  obtain ⟨r, hr, hi, hf, hbc⟩ :=
    decodeFrame_encode (requestInstr_dir? c das dae _ dt sa) (encode_requestInstr d c das dae dt sa) []
  refine ⟨r, by simpa using hr, hi, ?_⟩
  rw [hf, hbc]
  exact byteCount_eq_frame_length d r.fields_length.2

/-! ### The statements -/

/-- A STOP request whose byte count is stuffed without need (R85): DECODE accepts it, ENCODE never builds it. -/
def needlesslyStuffed : List Byte :=
  [0x10, 0x02, 0x10, 0x08, 0x01, 0x06, 0xC0, 0x20, 0x05, 0x84, 0x10, 0x03, 0x65]

theorem decodeFrame_needlesslyStuffed : decodeFrame Delims.ascii .req needlesslyStuffed =
    .ok (.stop 0x08 0x01 0x06 0xC0 0x20 0x05) := by
  decide

/-- The record decoded from it fixes the operands, and their frame is another. -/
theorem encodeRequest_ne_needlesslyStuffed (c : Command) (das dae dt sa : Byte) :
    encodeRequest Delims.ascii c das dae dt sa ≠ .ok needlesslyStuffed := by
  intro h
  obtain ⟨r, hr, hi, -⟩ := decodeFrame_encodeRequest h
  obtain rfl := Except.ok.inj (decodeFrame_needlesslyStuffed.symm.trans hr)
  cases c with
  | stop =>
    cases hi
    exact absurd h (by decide)
  | set | get => cases hi

/-- Settles O2: a frame of ENCODE or ENCODE_REPLY is the encoding of its row, which decodes to the row; the input that
decodes without being a frame is `needlesslyStuffed`. -/
theorem codecRoundTrip : Obligations.CodecRoundTrip := by
  refine ⟨?requests, ?replies, needlesslyStuffed, _, decodeFrame_needlesslyStuffed, encodeRequest_ne_needlesslyStuffed⟩
  case requests =>
    intro d c das dae dt sa hle
    have hf := Machine.encodeRequest_ok (d := d) (c := c) (dt := dt) (sa := sa) hle
    obtain ⟨r, hr, hi, hbc⟩ := decodeFrame_encodeRequest hf
    exact ⟨_, r, hf, hr, hi, hbc⟩
  case replies =>
    intro d da t s h a
    obtain ⟨r, hr, hi, -⟩ := decodeFrame_encode rfl (encode_getReply d da t s h a) []
    exact ⟨r, by simpa using hr, hi⟩

/-- Settles O3: `decodeFrame_encode`, with the record read as the instruction it stands for. -/
theorem frameInstructionsRoundTrip : Obligations.FrameInstructionsRoundTrip := by
  intro d i dir f tail hd he
  obtain ⟨r, hr, rfl, -⟩ := decodeFrame_encode hd he tail
  simp [decodeInstr, hr, Except.map]

end Sys2Proof

/-! What DECODE accepts and rejects (R84, R85, R103 to R107, R110, R244), and how long encoded frames are (R82, R83). -/

namespace Sys2Proof

open Config (Delims)

/-! ### The walk over carried fields -/

/-- The walk accepts the fields of a record however they are carried, whatever follows (R77, R85, R103). -/
theorem walkFields_of_carries {r : Record} {fieldBytes : List (List Byte)}
    (h : List.Forall₂ Machine.Carries r.fields fieldBytes) (rest : List Byte) :
    walkFields r.dir r.bc (fieldBytes.flatten ++ rest) = .ok (r, rest) := by
  have hset : Config.tagSet ≠ Config.tagStop := by decide
  have hget : Config.tagGet ≠ Config.tagStop := by decide
  have hget' : Config.tagGet ≠ Config.tagSet := by decide
  cases r
  case stop | get =>
    obtain _ | ⟨h1, _ | ⟨h2, _ | ⟨h3, _ | ⟨h4, _ | ⟨h5, _ | ⟨h6, ⟨⟩⟩⟩⟩⟩⟩⟩ := h
    simp [Record.dir, Record.bc, walkFields, walkRequest, takeField_of_carries h1, takeField_of_carries h2,
      takeField_of_carries h3, takeField_of_carries h4, takeField_of_carries h5, takeField_of_carries h6, hget, hget',
      Bind.bind, Except.bind, Pure.pure, Except.pure]
  case set =>
    obtain _ | ⟨h1, _ | ⟨h2, _ | ⟨h3, _ | ⟨h4, _ | ⟨h5, _ | ⟨h6, _ | ⟨h7, _ | ⟨h8, ⟨⟩⟩⟩⟩⟩⟩⟩⟩⟩ := h
    simp [Record.dir, Record.bc, walkFields, walkRequest, takeField_of_carries h1, takeField_of_carries h2,
      takeField_of_carries h3, takeField_of_carries h4, takeField_of_carries h5, takeField_of_carries h6,
      takeField_of_carries h7, takeField_of_carries h8, hset, Bind.bind, Except.bind, Pure.pure, Except.pure]
  case reply =>
    obtain _ | ⟨h1, _ | ⟨h2, _ | ⟨h3, _ | ⟨h4, _ | ⟨h5, _ | ⟨h6, _ | ⟨h7, ⟨⟩⟩⟩⟩⟩⟩⟩⟩ := h
    simp [Record.dir, Record.bc, walkFields, walkReply, takeField_of_carries h1, takeField_of_carries h2,
      takeField_of_carries h3, takeField_of_carries h4, takeField_of_carries h5, takeField_of_carries h6,
      takeField_of_carries h7, Bind.bind, Except.bind, Pure.pure, Except.pure]

theorem carries_of_walkRequest {bc : Byte} {p rest : List Byte} {r : Record} (h : walkRequest bc p = .ok (r, rest)) :
    ∃ fieldBytes, p = List.flatten fieldBytes ++ rest ∧ List.Forall₂ Machine.Carries r.fields fieldBytes := by
  unfold walkRequest at h
  simp only [except_bind_ok, Prod.exists] at h
  obtain ⟨das, p1, h1, dae, p2, h2, cw, p3, h3, sax, p4, h4, sa, p5, h5, cmd, p6, h6, h⟩ := h
  obtain ⟨q1, rfl, c1⟩ := carries_of_takeField h1
  obtain ⟨q2, rfl, c2⟩ := carries_of_takeField h2
  obtain ⟨q3, rfl, c3⟩ := carries_of_takeField h3
  obtain ⟨q4, rfl, c4⟩ := carries_of_takeField h4
  obtain ⟨q5, rfl, c5⟩ := carries_of_takeField h5
  obtain ⟨q6, rfl, c6⟩ := carries_of_takeField h6
  split at h
  case isTrue htag =>
    subst htag
    cases h
    exact ⟨[q1, q2, q3, q4, q5, q6], by simp, by simp [Record.fields, *]⟩
  case isFalse =>
    split at h
    case isTrue htag =>
      simp only [except_bind_ok, Prod.exists] at h
      obtain ⟨height, p7, h7, angle, p8, h8, h⟩ := h
      obtain ⟨q7, rfl, c7⟩ := carries_of_takeField h7
      obtain ⟨q8, rfl, c8⟩ := carries_of_takeField h8
      subst htag
      cases h
      exact ⟨[q1, q2, q3, q4, q5, q6, q7, q8], by simp, by simp [Record.fields, *]⟩
    case isFalse =>
      split at h
      case isTrue htag =>
        subst htag
        cases h
        exact ⟨[q1, q2, q3, q4, q5, q6], by simp, by simp [Record.fields, *]⟩
      case isFalse => cases h

theorem carries_of_walkReply {bc : Byte} {p rest : List Byte} {r : Record} (h : walkReply bc p = .ok (r, rest)) :
    ∃ fieldBytes, p = List.flatten fieldBytes ++ rest ∧ List.Forall₂ Machine.Carries r.fields fieldBytes := by
  unfold walkReply at h
  simp only [except_bind_ok, Prod.exists] at h
  obtain ⟨da, p1, h1, cw, p2, h2, sax, p3, h3, sa, p4, h4, cmd, p5, h5, h⟩ := h
  obtain ⟨q1, rfl, c1⟩ := carries_of_takeField h1
  obtain ⟨q2, rfl, c2⟩ := carries_of_takeField h2
  obtain ⟨q3, rfl, c3⟩ := carries_of_takeField h3
  obtain ⟨q4, rfl, c4⟩ := carries_of_takeField h4
  obtain ⟨q5, rfl, c5⟩ := carries_of_takeField h5
  split at h
  case isTrue htag =>
    simp only [except_bind_ok, Prod.exists] at h
    obtain ⟨height, p6, h6, angle, p7, h7, h⟩ := h
    obtain ⟨q6, rfl, c6⟩ := carries_of_takeField h6
    obtain ⟨q7, rfl, c7⟩ := carries_of_takeField h7
    subst htag
    cases h
    exact ⟨[q1, q2, q3, q4, q5, q6, q7], by simp, by simp [Record.fields, *]⟩
  case isFalse => cases h

/-- What the walk consumes carries the fields of the record it gives, in layout order (R77, R103). -/
theorem carries_of_walkFields {dir : Dir} {bc : Byte} {p rest : List Byte} {r : Record}
    (h : walkFields dir bc p = .ok (r, rest)) :
    ∃ fieldBytes, p = List.flatten fieldBytes ++ rest ∧ List.Forall₂ Machine.Carries r.fields fieldBytes := by
  cases dir with
  | req => exact carries_of_walkRequest h
  | rep => exact carries_of_walkReply h

/-! ### DECODE after its header -/

/-- The end tests pass where the terminator stands at the place BC says and the FCC makes the sum 0 (R103). -/
theorem checkEnd_of_sum {d : Delims} {r : Record} {bcField pay tail : List Byte} {fcc : Byte}
    (hbc : r.bc.toNat = pay.length + 2)
    (hsum : (sumBytes (bcField ++ pay ++ [Config.dle, d.etx]) + fcc.toNat) % 256 = 0) :
    checkEnd d r (bcField ++ (pay ++ Config.dle :: d.etx :: fcc :: tail)) (pay ++ Config.dle :: d.etx :: fcc :: tail)
      (Config.dle :: d.etx :: fcc :: tail) = .ok r := by
  have hbody : bcField ++ (pay ++ Config.dle :: d.etx :: fcc :: tail) =
      (bcField ++ pay ++ [Config.dle, d.etx]) ++ fcc :: tail := by simp
  simp only [checkEnd, ne_eq, not_true_eq_false, or_self, ↓reduceIte]
  rw [if_neg (by simp; omega), hbody, List.take_left' (by simp; omega), if_neg (by simpa using hsum)]

/-- Behind a header of the instance and a carried BC of at least 6, DECODE is the walk and the end tests (R103). -/
theorem decodeFrame_after_bc {d : Delims} {dir : Dir} {bc : Byte} {bcField pay : List Byte}
    (hbc : Machine.Carries bc bcField) (hmin : Config.bcMin ≤ bc.toNat) :
    decodeFrame d dir (Config.dle :: d.stx :: (bcField ++ pay)) =
      (walkFields dir bc pay >>= fun (r, p) => checkEnd d r (bcField ++ pay) pay p) := by
  have hlow : ¬ bc.toNat < Config.bcMin := by omega
  simp [decodeFrame, takeField_of_carries hbc, hlow, Bind.bind, Except.bind]

/-- What DECODE accepts, and with what record (R103, R85): forward by `decodeFrame_ok`, whose payload the walk has
consumed and so carries the fields; back by running DECODE over the carried fields. -/
theorem decodeFrame_eq_ok_iff {d : Delims} {dir : Dir} {raw : List Byte} {r : Record} :
    decodeFrame d dir raw = .ok r ↔ r.dir = dir ∧ Config.bcMin ≤ r.bc.toNat ∧
      ∃ (bcField tail : List Byte) (fieldBytes : List (List Byte)) (fcc : Byte),
        raw = [Config.dle, d.stx] ++ bcField ++ fieldBytes.flatten ++ [Config.dle, d.etx, fcc] ++ tail ∧
        Machine.Carries r.bc bcField ∧ List.Forall₂ Machine.Carries r.fields fieldBytes ∧
        r.bc.toNat = fieldBytes.flatten.length + 2 ∧
        (sumBytes (bcField ++ fieldBytes.flatten ++ [Config.dle, d.etx]) + fcc.toNat) % 256 = 0 := by
  constructor
  · intro h
    obtain ⟨bcField, pay, fcc, tail, rfl, hdir, hmin, -, htake, hlen, -, -, hwalk, hsum⟩ := decodeFrame_ok h
    obtain ⟨fieldBytes, hpay, hcarries⟩ := carries_of_walkFields (hwalk [])
    obtain rfl : pay = fieldBytes.flatten := by simpa using hpay
    obtain ⟨w, hw, hbc⟩ := carries_of_takeField (htake [])
    obtain rfl : bcField = w := by simpa using hw
    exact ⟨hdir, hmin, bcField, tail, fieldBytes, fcc, by simp, hbc, hcarries, hlen, hsum⟩
  · rintro ⟨rfl, hmin, bcField, tail, fieldBytes, fcc, rfl, hbc, hcarries, hlen, hsum⟩
    have hraw : [Config.dle, d.stx] ++ bcField ++ fieldBytes.flatten ++ [Config.dle, d.etx, fcc] ++ tail =
        Config.dle :: d.stx :: (bcField ++ (fieldBytes.flatten ++ Config.dle :: d.etx :: fcc :: tail)) := by simp
    rw [hraw, decodeFrame_after_bc hbc hmin, walkFields_of_carries hcarries]
    exact checkEnd_of_sum hlen hsum

/-- Settles O6: `decodeFrame_eq_ok_iff`, with the fields of each kind of record written out. -/
theorem decodeAcceptsExactlyFrames : Obligations.DecodeAcceptsExactlyFrames := by
  intro d dir raw r
  rw [decodeFrame_eq_ok_iff]
  cases r <;> exact Iff.rfl

/-- Settles O7: the input that DECODE accepts has room for any bytes after the FCC. -/
theorem decodeIgnoresBytesAfterFcc : Obligations.DecodeIgnoresBytesAfterFcc := by
  intro d dir raw tail r h
  rw [decodeFrame_eq_ok_iff] at h ⊢
  obtain ⟨hdir, hmin, bcField, tail', fieldBytes, fcc, rfl, hrest⟩ := h
  exact ⟨hdir, hmin, bcField, tail' ++ tail, fieldBytes, fcc, by simp, hrest⟩

/-- Settles O9: the walk consumes at least six bytes for a request and seven for a reply, and BC counts two more. -/
theorem byteCountFloorIsNotTight : Obligations.ByteCountFloorIsNotTight := by
  intro d raw r
  constructor
  · intro h
    obtain ⟨-, pay, -, -, -, -, -, -, -, hlen, hsix, -⟩ := decodeFrame_ok h
    omega
  · intro h
    obtain ⟨-, pay, -, -, -, -, -, -, -, hlen, -, hseven, -⟩ := decodeFrame_ok h
    have := hseven rfl
    omega

/-! ### A frame in the other direction -/

/-- The end tests reject a walk that stops before a field: its first wire byte is no DLE, or its second, a DLE again, is
no ETX (R110). -/
theorem checkEnd_before_field {d : Delims} (hd : d.etx ≠ Config.dle) (r : Record) (v : Byte)
    (body pay rest : List Byte) : checkEnd d r body pay (esc v ++ rest) = .error .terminator := by
  by_cases hv : v = Config.dle
  · subst hv
    simp [esc_dle, checkEnd, hd.symm]
  · cases rest <;> simp [esc_of_ne hv, checkEnd, hv]

/-- The end tests reject a walk that has consumed more than BC counts (R110). -/
theorem checkEnd_past_end {d : Delims} {r : Record} {body pay p : List Byte}
    (h : r.bc.toNat + p.length < pay.length + 2) : checkEnd d r body pay p = .error .terminator := by
  unfold checkEnd
  split
  · split
    · rfl
    · rw [if_pos (by simp at h; omega)]
  · rfl

/-- What stands behind the payload of a frame, `tail` after it. -/
abbrev frameEnd (d : Delims) (fields tail : List Byte) : List Byte :=
  Config.dle :: d.etx :: fcc (bodyOf d fields) :: tail

theorem carries_esc (v : Byte) : Machine.Carries v (esc v) := by
  by_cases hv : v = Config.dle
  · exact .inr (by rw [hv]; exact esc_dle)
  · exact .inl ⟨esc_of_ne hv, hv⟩

/-- DECODE of a frame in either direction: the walk over its payload, then the end tests (R103). -/
theorem decodeFrame_frameOf_eq (d : Delims) (dir : Dir) {fields : List Byte} (tail : List Byte)
    (h4 : 4 ≤ fields.length) (h8 : fields.length ≤ 8) :
    decodeFrame d dir (frameOf d fields ++ tail) =
      (walkFields dir (byteCount fields) (payloadOf fields ++ frameEnd d fields tail) >>= fun (r, p) =>
        checkEnd d r (esc (byteCount fields) ++ (payloadOf fields ++ frameEnd d fields tail))
          (payloadOf fields ++ frameEnd d fields tail) p) := by
  have hmin : Config.bcMin ≤ (byteCount fields).toNat := by
    have := payloadOf_length_bounds fields
    rw [byteCount_toNat h8, Config.bcMin]
    omega
  rw [← decodeFrame_after_bc (carries_esc _) hmin]
  simp [frameOf, bodyOf, frameEnd]

/-- Where a walk over a frame of `fields` ends in the layout of the other direction: at a byte that is no tag, before a
field that is left, or past the terminator, whose escape byte it took with the ETX for one more field. -/
inductive Astray (d : Delims) (fields tail : List Byte) : Except SubCause (Record × List Byte) → Prop where
  | atTag : Astray d fields tail (.error .command)
  | beforeField (r : Record) (v : Byte) (rest : List Byte) : Astray d fields tail (.ok (r, esc v ++ rest))
  | pastEnd (r : Record) : r.bc = byteCount fields → Astray d fields tail (.ok (r, fcc (bodyOf d fields) :: tail))

/-- A walk that goes astray ends in COMMAND or TERMINATOR (R110). -/
theorem decodeFrame_of_astray {d : Delims} {dir : Dir} {fields tail : List Byte} (hd : d.wf) (h4 : 4 ≤ fields.length)
    (h8 : fields.length ≤ 8)
    (h : Astray d fields tail (walkFields dir (byteCount fields) (payloadOf fields ++ frameEnd d fields tail))) :
    decodeFrame d dir (frameOf d fields ++ tail) = .error .command ∨
      decodeFrame d dir (frameOf d fields ++ tail) = .error .terminator := by
  obtain ⟨-, hetx, -⟩ := hd
  rw [decodeFrame_frameOf_eq d dir tail h4 h8]
  generalize walkFields dir (byteCount fields) (payloadOf fields ++ frameEnd d fields tail) = walk at h
  cases h with
  | atTag => exact .inl rfl
  | beforeField r v rest => exact .inr (checkEnd_before_field hetx r v _ _ rest)
  | pastEnd r hbc =>
    refine .inr (checkEnd_past_end ?_)
    rw [hbc, byteCount_toNat h8]
    simp only [List.length_append, List.length_cons]
    omega

/-- The reply walk over the six fields of a STOP or GET request and the terminator (R71, R73). -/
theorem walkReply_six_fields (bc das dae cw sax sa tag etx : Byte) (rest : List Byte) :
    walkReply bc (payloadOf [das, dae, cw, sax, sa, tag] ++ Config.dle :: etx :: rest) =
      if sa = Config.tagGet then .ok (.reply bc das dae cw sax tag etx, rest) else .error .command := by
  simp [walkReply, Bind.bind, Except.bind, Pure.pure, Except.pure, throw, throwThe, MonadExceptOf.throw]

/-- The reply walk over the eight fields of a SET request (R71, R73). -/
theorem walkReply_eight_fields (bc das dae cw sax sa tag h a : Byte) (rest : List Byte) :
    walkReply bc (payloadOf [das, dae, cw, sax, sa, tag, h, a] ++ rest) =
      if sa = Config.tagGet then .ok (.reply bc das dae cw sax tag h, esc a ++ rest) else .error .command := by
  simp [walkReply, Bind.bind, Except.bind, Pure.pure, Except.pure, throw, throwThe, MonadExceptOf.throw]

/-- The request walk over the seven fields of a reply and the terminator (R71, R73). -/
theorem walkRequest_seven_fields (bc da cw sax sa tag h a etx : Byte) (rest : List Byte) :
    walkRequest bc (payloadOf [da, cw, sax, sa, tag, h, a] ++ Config.dle :: etx :: rest) =
      if h = Config.tagStop then .ok (.stop bc da cw sax sa tag, esc a ++ Config.dle :: etx :: rest)
      else if h = Config.tagSet then .ok (.set bc da cw sax sa tag a etx, rest)
      else if h = Config.tagGet then .ok (.get bc da cw sax sa tag, esc a ++ Config.dle :: etx :: rest)
      else .error .command := by
  simp [walkRequest, Bind.bind, Except.bind, Pure.pure, Except.pure, throw, throwThe, MonadExceptOf.throw]

/-- A request read as a reply: its SA stands in the command position (R110). -/
theorem walkReply_astray {r : Record} (hr : r.dir = .req) (d : Delims) (tail : List Byte) :
    Astray d r.fields tail (walkReply (byteCount r.fields) (payloadOf r.fields ++ frameEnd d r.fields tail)) := by
  cases r with
  | stop | get =>
    simp only [Record.fields, frameEnd, walkReply_six_fields]
    split
    · exact .pastEnd _ rfl
    · exact .atTag
  | set =>
    simp only [Record.fields, walkReply_eight_fields]
    split
    · exact .beforeField _ _ _
    · exact .atTag
  | reply => cases hr

/-- A reply read as a request: its height stands in the command position (R110). -/
theorem walkRequest_astray {r : Record} (hr : r.dir = .rep) (d : Delims) (tail : List Byte) :
    Astray d r.fields tail (walkRequest (byteCount r.fields) (payloadOf r.fields ++ frameEnd d r.fields tail)) := by
  cases r with
  | reply =>
    simp only [Record.fields, frameEnd, walkRequest_seven_fields]
    split_ifs
    · exact .beforeField _ _ _
    · exact .pastEnd _ rfl
    · exact .beforeField _ _ _
    · exact .atTag
  | stop | set | get => cases hr

/-- Settles O8: the walk in the other layout goes astray. -/
theorem crossDirectionNeverDecodes : Obligations.CrossDirectionNeverDecodes := by
  intro d i f tail hd he
  constructor
  · intro hdir
    obtain ⟨r, -, rfl, rfl, -⟩ := decodeFrame_encode hdir he tail
    have hr : r.dir = .req := Option.some.inj (r.toInstr_dir?.symm.trans hdir)
    obtain ⟨hmin, hmax⟩ := r.fields_length
    exact decodeFrame_of_astray hd (by omega) hmax (walkReply_astray hr d tail)
  · intro hdir
    obtain ⟨r, -, rfl, rfl, -⟩ := decodeFrame_encode hdir he tail
    have hr : r.dir = .rep := Option.some.inj (r.toInstr_dir?.symm.trans hdir)
    obtain ⟨hmin, hmax⟩ := r.fields_length
    exact decodeFrame_of_astray hd (by omega) hmax (walkRequest_astray hr d tail)

/-! ### Wire lengths -/

/-- A field takes two bytes exactly when it is the escape byte, else one (R76). -/
theorem esc_length_cases (v : Byte) :
    ((esc v).length = 2 ∧ v = Config.dle) ∨ ((esc v).length = 1 ∧ v ≠ Config.dle) := by
  by_cases h : v = Config.dle <;> simp [esc_length, h]

theorem esc_length_eq_two_iff {v : Byte} : (esc v).length = 2 ↔ v = Config.dle := by
  rw [esc_length]
  split <;> simp_all

/-- No control word and no tag of R72 is the escape byte. -/
theorem esc_controlWord_length (c : Cmd) : (esc (controlWord c)).length = 1 := by
  cases c <;> rfl

theorem esc_tagOf_length (c : Cmd) : (esc (tagOf c)).length = 1 := by
  cases c <;> rfl

/-- The length of a frame by its payload: BC is stuffed at 14 bytes of payload and at no other (R82, R83). -/
theorem frameOf_length_cases (d : Delims) {fields : List Byte} (h : fields.length ≤ 8) :
    ((payloadOf fields).length = 14 ∧ (frameOf d fields).length = 21) ∨
      ((payloadOf fields).length ≠ 14 ∧ (frameOf d fields).length = (payloadOf fields).length + 6) := by
  have hbc := byteCount_eq_dle h
  rw [frameOf_length]
  obtain ⟨hlen, hv⟩ | ⟨hlen, hv⟩ := esc_length_cases (byteCount fields)
  · exact .inl ⟨hbc.1 hv, by have := hbc.1 hv; omega⟩
  · exact .inr ⟨fun h14 => hv (hbc.2 h14), by omega⟩

/-- The payload of a SET request has the six free fields and two bytes that are never stuffed (R72, R82). -/
theorem setPayload_length (das dae dt sa h a : Byte) :
    (payloadOf (requestFields (.set h a) das dae dt sa)).length =
      (esc das).length + (esc dae).length + (esc dt).length + (esc sa).length + (esc h).length + (esc a).length + 2 := by
  simp [requestFields, Command.args, esc_controlWord_length, esc_tagOf_length]
  omega

/-- A request without arguments has four free fields and two bytes that are never stuffed (R72, R82). -/
theorem shortPayload_length_bounds {c : Command} (hc : c.args = []) (das dae dt sa : Byte) :
    6 ≤ (payloadOf (requestFields c das dae dt sa)).length ∧
      (payloadOf (requestFields c das dae dt sa)).length ≤ 10 := by
  have hcw := esc_controlWord_length c.cmd
  have htag := esc_tagOf_length c.cmd
  have h1 := payloadOf_length_bounds [das, dae]
  have h2 := payloadOf_length_bounds [dt, sa]
  simp [requestFields, hc, hcw, htag] at h1 h2 ⊢
  omega

/-- A reply has five free fields and two bytes that are never stuffed (R72, R82). -/
theorem replyPayload_length_bounds (da dt sa h a : Byte) :
    7 ≤ (payloadOf [da, Config.cwGet, dt, sa, Config.tagGet, h, a]).length ∧
      (payloadOf [da, Config.cwGet, dt, sa, Config.tagGet, h, a]).length ≤ 12 := by
  have hcw : (esc Config.cwGet).length = 1 := esc_controlWord_length .get
  have htag : (esc Config.tagGet).length = 1 := esc_tagOf_length .get
  have h1 := payloadOf_length_bounds [da, dt, sa, h, a]
  simp [hcw, htag] at h1 ⊢
  omega

/-- Settles O5: the bounds of the payload, and for a SET request that six fields of one or two bytes have 12 together
exactly when each has two. -/
theorem wireLengthRanges : Obligations.WireLengthRanges := by
  intro d das dae dt sa h a f
  refine ⟨?short, ?set, ?reply⟩
  case short =>
    have hlen {c : Command} (hc : c.args = []) (hf : encodeRequest d c das dae dt sa = .ok f) :
        12 ≤ f.length ∧ f.length ≤ 16 := by
      obtain ⟨-, rfl⟩ := le_of_encodeRequest_ok hf
      obtain ⟨hlow, hhigh⟩ := shortPayload_length_bounds hc das dae dt sa
      have := frameOf_length_cases d (fields := requestFields c das dae dt sa) (by simp [requestFields, hc])
      omega
    rintro (hf | hf)
    · exact hlen rfl hf
    · exact hlen rfl hf
  case set =>
    intro hf
    obtain ⟨-, rfl⟩ := le_of_encodeRequest_ok hf
    have hpay := setPayload_length das dae dt sa h a
    have hframe := frameOf_length_cases d (fields := requestFields (.set h a) das dae dt sa)
      (by simp [requestFields, Command.args])
    change _ ∧ _ ∧ _ ∧ (_ ↔ das = Config.dle ∧ dae = Config.dle ∧ dt = Config.dle ∧ sa = Config.dle ∧
      h = Config.dle ∧ a = Config.dle)
    have h1 := esc_length_cases das
    have h2 := esc_length_cases dae
    have h3 := esc_length_cases dt
    have h4 := esc_length_cases sa
    have h5 := esc_length_cases h
    have h6 := esc_length_cases a
    refine ⟨by omega, by omega, by omega, ?_⟩
    simp only [← esc_length_eq_two_iff]
    omega
  case reply =>
    rintro rfl
    obtain ⟨hlow, hhigh⟩ := replyPayload_length_bounds das dt sa h a
    have := frameOf_length_cases d (fields := [das, Config.cwGet, dt, sa, Config.tagGet, h, a]) (by simp)
    simp only [encodeReply]
    omega

/-! ### DECODE as an operation -/

namespace Machine

theorem exec_decode_of_ok {s : State} {raw : List Byte} {dir : Dir} {r : Record}
    (h : decodeFrame s.params.delims dir raw = .ok r) :
    exec (.decode raw dir) s = .next (report (.decoded r) s) := by
  change execDecode raw dir s = _
  simp only [execDecode, h]

theorem exec_decode_of_error {s : State} {raw : List Byte} {dir : Dir} {c : SubCause}
    (h : decodeFrame s.params.delims dir raw = .error c) :
    exec (.decode raw dir) s = .next (report (.failed (.malformedFrame c)) s) := by
  change execDecode raw dir s = _
  simp only [execDecode, h]

end Machine

/-- Settles O12: DECODE reports what the walk gives, and a report writes no register; on the frame of a row the walk
gives the row's record. -/
theorem decodeReturnsRecord : Obligations.DecodeReturnsRecord := by
  intro s
  refine ⟨fun raw dir r h => Machine.exec_decode_of_ok h, fun raw dir c h => Machine.exec_decode_of_error h, ?frames⟩
  case frames =>
    intro i dir f tail hd he
    obtain ⟨r, hr, hi, -⟩ := decodeFrame_encode hd he tail
    exact ⟨r, hi, Machine.exec_decode_of_ok hr⟩

/-- Settles O1: each of the four is the encoding of its row, so it decodes to the row. -/
theorem writtenOutFramesDecode : Obligations.WrittenOutFramesDecode := by
  have hround {i : Instr} {dir : Dir} {f : List Byte} (hd : i.dir? = some dir)
      (he : encode Delims.ascii i = some f) : decodeInstr Delims.ascii dir f = .ok i := by
    simpa using frameInstructionsRoundTrip Delims.ascii i dir f [] hd he
  exact ⟨hround rfl (by decide), hround rfl (by decide), hround rfl (by decide), hround rfl (by decide)⟩

end Sys2Proof

/-! The Responder's steps as equations (R171, R173, R175, R182), what an operation does out of its role or phase, and
which instruction a step runs. -/

namespace Sys2Proof.Machine

open Config (Delims)

/-! ### RECEIVE -/

section Receive

variable {s : State}

/-- R182: the byte that ends accumulation. -/
theorem exec_receive_etx (hr : s.params.role = .slave) (hp : s.rphase = .accum) :
    exec (.receive s.params.delims.etx) s =
      .next { s with rxbuf := s.rxbuf ++ [s.params.delims.etx], rphase := .fcc } := by
  change execReceive _ s = _
  simp [execReceive, hr, hp]

/-- R182: another byte with room for an ETX and an FCC behind it. -/
theorem exec_receive_of_room {b : Byte} (hr : s.params.role = .slave) (hp : s.rphase = .accum)
    (hb : b ≠ s.params.delims.etx) (hroom : s.rxbuf.length + 1 < s.params.rxMaxLen - 1) :
    exec (.receive b) s = .next { s with rxbuf := s.rxbuf ++ [b] } := by
  change execReceive b s = _
  simp only [execReceive, hr, hp, if_neg hb, if_neg (not_le.2 hroom)]

/-- R173: another byte without that room. -/
theorem exec_receive_of_overflow {b : Byte} (hr : s.params.role = .slave) (hp : s.rphase = .accum)
    (hb : b ≠ s.params.delims.etx) (hfull : s.params.rxMaxLen - 1 ≤ s.rxbuf.length + 1) :
    exec (.receive b) s = .next (rxOverflows s) := by
  change execReceive b s = _
  simp only [execReceive, hr, hp, if_neg hb, if_pos hfull]

/-- R182: the byte after ETX completes the candidate frame, whatever it is. -/
theorem exec_receive_fcc (hr : s.params.role = .slave) (hp : s.rphase = .fcc) (b : Byte) :
    exec (.receive b) s = .next { s with rxbuf := s.rxbuf ++ [b], rphase := .ready } := by
  change execReceive b s = _
  simp only [execReceive, hr, hp]

/-- RECEIVE is enabled at a slave that is not in `R_READY` (R171). -/
theorem exec_receive_of_not_enabled (h : s.params.role = .master ∨ s.rphase = .ready) (b : Byte) :
    exec (.receive b) s = .next s := by
  change execReceive b s = _
  unfold execReceive
  split <;> simp_all

end Receive

/-! ### RESPOND -/

section Respond

variable {s : State} {r : Record}

/-- RESPOND is enabled at a slave in `R_READY` (R175). -/
theorem exec_respond_of_not_enabled (h : s.params.role = .master ∨ s.rphase ≠ .ready) : exec .respond s = .next s := by
  change execRespond s = _
  unfold execRespond
  split <;> simp_all

/-- The dispatch of RESPOND is on the instruction that the record stands for (R175). -/
theorem actOn_eq_exec (r : Record) (s : State) : actOn r s = exec r.toInstr s := by
  cases r <;> rfl

/-- RESPOND takes the frame and runs the request it decodes (R175). -/
theorem exec_respond_of_ok (hr : s.params.role = .slave) (hp : s.rphase = .ready)
    (hd : decodeFrame s.params.delims .req s.rxbuf = .ok r) : exec .respond s = exec r.toInstr (takeFrame s) := by
  change execRespond s = _
  simp only [execRespond, hr, hp, hd, actOn_eq_exec]

/-- DECODE gives a record of the direction asked for (R103). -/
theorem dir_of_decodeFrame {d : Delims} {dir : Dir} {raw : List Byte} (h : decodeFrame d dir raw = .ok r) :
    r.dir = dir :=
  (decodeFrame_eq_ok_iff.1 h).1

theorem tagOf_recordCmd (r : Record) : r.tag = tagOf (recordCmd r) := by
  cases r <;> rfl

/-- What a request leaves at the slave that acts on it: the command recorded, and nothing else of the Responder, the
identity, the other role or the bytes unread (R175, R177, R178, R180). -/
structure RequestDone (c : Cmd) (s t : State) : Prop where
  rstat : t.rstat = { code := .ok, lastCmd := some c }
  rxbuf : t.rxbuf = s.rxbuf
  rphase : t.rphase = s.rphase
  identity : SameIdentity s t
  master : SameMaster s t
  inbound : t.env.inbound = s.env.inbound

theorem requestDone_recordRequest (c : Cmd) (s : State) : RequestDone c s (recordRequest c s) :=
  ⟨rfl, rfl, rfl, ⟨rfl, rfl, rfl, rfl⟩, ⟨rfl, rfl, rfl, rfl, rfl, rfl, rfl⟩, rfl⟩

theorem exec_request_done (hr : s.params.role = .slave) (hdir : r.dir = .req) :
    ∃ t, exec r.toInstr s = .next t ∧ RequestDone (recordCmd r) s t := by
  cases r with
  | stop _ das dae cw sax sa =>
    exact ⟨_, exec_stopRequest_of_slave hr das dae cw sax sa, requestDone_recordRequest .stop s⟩
  | set _ das dae cw sax sa h a =>
    by_cases hc : covers das dae s.slvaddr = true
    · exact ⟨_, exec_setRequest_of_covers hr hc cw sax sa h a,
        rfl, rfl, rfl, ⟨rfl, rfl, rfl, rfl⟩, ⟨rfl, rfl, rfl, rfl, rfl, rfl, rfl⟩, rfl⟩
    · exact ⟨_, exec_setRequest_of_not_covers hr hc cw sax sa h a, requestDone_recordRequest .set s⟩
  | get _ das dae cw sax sa =>
    by_cases hc : addressesOnly das dae s.slvaddr = true
    · exact ⟨_, exec_getRequest_of_addressesOnly hr hc cw sax sa,
        rfl, rfl, rfl, ⟨rfl, rfl, rfl, rfl⟩, ⟨rfl, rfl, rfl, rfl, rfl, rfl, rfl⟩, rfl⟩
    · exact ⟨_, exec_getRequest_of_not_addressesOnly hr hc cw sax sa, requestDone_recordRequest .get s⟩
  | reply => cases hdir

/-- RESPOND ends in `R_ACCUM` with `RXBUF` empty on every path (R175, R176). -/
theorem exec_respond_accumulates (hr : s.params.role = .slave) (hp : s.rphase = .ready) :
    ∃ t, exec .respond s = .next t ∧ t.rphase = .accum ∧ t.rxbuf = [] := by
  cases hd : decodeFrame s.params.delims .req s.rxbuf with
  | error c => exact ⟨_, exec_respond_of_error hr hp hd, rfl, rfl⟩
  | ok r =>
    obtain ⟨t, ht, hdone⟩ := exec_request_done (s := takeFrame s) hr (dir_of_decodeFrame hd)
    exact ⟨t, (exec_respond_of_ok hr hp hd).trans ht, hdone.rphase, hdone.rxbuf⟩

/-- A slave in `R_READY` responds in its turn (R170, R182). -/
theorem turn_of_ready (hr : s.params.role = .slave) (hp : s.rphase = .ready) (k : Nat) :
    turn k s = exec .respond s := by
  simp [turn, hr, hp, exec]

end Respond

/-- Settles O35: RECEIVE by the phase and the byte, RESPOND as the turn of `R_READY`. -/
theorem receiveAccumulatesToEtxPlusOne : Obligations.ReceiveAccumulatesToEtxPlusOne := by
  intro b k s
  constructor
  · intro hr
    exact ⟨exec_receive_of_not_enabled (.inl hr) b, exec_respond_of_not_enabled (.inl hr)⟩
  · intro hr
    refine ⟨?etx, ?room, ?overflow, fun hp => exec_receive_fcc hr hp b, ?ready⟩
    case etx =>
      rintro hp rfl
      exact exec_receive_etx hr hp
    case room => exact fun hp hb hroom => exec_receive_of_room hr hp hb hroom
    case overflow =>
      intro hp hb hfull
      rw [exec_receive_of_overflow hr hp hb hfull, rxOverflows, ← hp]
    case ready =>
      intro hp
      obtain ⟨t, ht, hphase, -⟩ := exec_respond_accumulates hr hp
      exact ⟨turn_of_ready hr hp k, t, ht, hphase⟩

/-- Settles O37: RESPOND runs the decoded request on the taken frame, and a request leaves all but its command and its
own effect. -/
theorem respondRecordsDecodedRequest : Obligations.RespondRecordsDecodedRequest := by
  intro s r hr hp hd
  have hrun := exec_respond_of_ok hr hp hd
  obtain ⟨t, ht, hdone⟩ := exec_request_done (s := takeFrame s) hr (dir_of_decodeFrame hd)
  have hidentity : SameIdentity s (takeFrame s) := ⟨rfl, rfl, rfl, rfl⟩
  have hmaster : SameMaster s (takeFrame s) := ⟨rfl, rfl, rfl, rfl, rfl, rfl, rfl⟩
  exact ⟨t, recordCmd r, hrun.trans ht, tagOf_recordCmd r, hdone.rxbuf, hdone.rphase, hdone.rstat,
    hidentity.trans hdone.identity, hmaster.trans hdone.master, hdone.inbound, hrun⟩

/-! ### Operations out of their role or phase -/

theorem acceptWhenIdle_of_slave {s : State} (start : State → State) (hr : s.params.role = .slave) :
    acceptWhenIdle start s = report (.refused .wrongRole) s := by
  simp [acceptWhenIdle, hr]

theorem acceptWhenIdle_of_busy {s : State} (start : State → State) (hr : s.params.role = .master)
    (hm : s.mphase ≠ .idle) : acceptWhenIdle start s = report (.refused .busy) s := by
  simp [acceptWhenIdle, hr, hm]

/-- The host operations that a master accepts when it is idle (R140; log entries 9 and 10). -/
theorem exec_eq_acceptWhenIdle {i : Instr} (hi : i = .gate ∨ i = .gateRecord ∨
    (∃ cmd das dae h a, i = .execute cmd das dae h a) ∨ (∃ das dae, i = .stop das dae) ∨
    (∃ das dae h a, i = .set das dae h a) ∨ (∃ addr, i = .get addr)) :
    ∃ start, ∀ s, exec i s = .next (acceptWhenIdle start s) := by
  obtain rfl | rfl | ⟨cmd, das, dae, h, a, rfl⟩ | ⟨das, dae, rfl⟩ | ⟨das, dae, h, a, rfl⟩ | ⟨addr, rfl⟩ := hi <;>
    exact ⟨_, fun _ => rfl⟩

/-- Settles O39: RECEIVE and RESPOND are not enabled there, and GATE and GATE_RECORD fail the acceptance test. -/
theorem operationOutOfItsRoleOrPhase : Obligations.OperationOutOfItsRoleOrPhase := by
  refine ⟨fun b s h => exec_receive_of_not_enabled h b, fun s h => exec_respond_of_not_enabled h, ?slave, ?busy⟩
  case slave =>
    intro i s hi hr
    obtain ⟨start, hrun⟩ := exec_eq_acceptWhenIdle (hi.imp_right .inl)
    rw [hrun, acceptWhenIdle_of_slave start hr]
    rfl
  case busy =>
    intro i s hi hr hm
    obtain ⟨start, hrun⟩ := exec_eq_acceptWhenIdle (hi.imp_right .inl)
    rw [hrun, acceptWhenIdle_of_busy start hr hm]
    rfl

/-- Settles O21: the four forms of Execute fail the acceptance test. -/
theorem executeRefusedChangesNothing : Obligations.ExecuteRefusedChangesNothing := by
  intro i s hi
  obtain ⟨start, hrun⟩ := exec_eq_acceptWhenIdle (.inr (.inr hi))
  constructor
  · intro hr
    rw [hrun, acceptWhenIdle_of_slave start hr]
    rfl
  · intro hr hm
    rw [hrun, acceptWhenIdle_of_busy start hr hm]
    rfl

/-! ### The instruction of a step -/

theorem step_of_inputs {s : State} {e : Input} {rest : List Input} (hi : s.env.inputs = e :: rest) :
    step s = applyInput e (dropInput rest s) := by
  simp only [step, hi]

theorem step_of_no_inputs {s : State} (hi : s.env.inputs = []) : step s = drawTurn s := by
  simp only [step, hi]

theorem present_of_operation {i : Instr} (hd : i.dir? = none) (s : State) : present i s = exec i s := by
  simp only [present, encode_eq_none.2 hd]

theorem present_of_frame {i : Instr} {s : State} {wire : List Byte} (he : encode s.params.delims i = some wire) :
    present i s = .next (deliver wire s) := by
  simp only [present, he]

/-- The turn of a slave whose candidate frame decodes (R175, R182). -/
theorem turn_of_request {s : State} {r : Record} (hr : s.params.role = .slave) (hp : s.rphase = .ready)
    (hd : decodeFrame s.params.delims .req s.rxbuf = .ok r) (k : Nat) : turn k s = exec r.toInstr (takeFrame s) :=
  (turn_of_ready hr hp k).trans (exec_respond_of_ok hr hp hd)

/-- A record that DECODE gives under `REP` is a reply (R103). -/
theorem exists_reply_of_dir {r : Record} (h : r.dir = .rep) :
    ∃ bc da cw sax sa height angle, r = .reply bc da cw sax sa height angle := by
  cases r with
  | reply bc da cw sax sa height angle => exact ⟨bc, da, cw, sax, sa, height, angle, rfl⟩
  | _ => cases h

/-- The turn of a master in `M_READ` is the response read. -/
theorem turn_of_read {s : State} (hr : s.params.role = .master) (hm : s.mphase = .read) (k : Nat) :
    turn k s = readReturns k s := by
  simp only [turn, hr, hm]

/-- The response read whose bytes decode as a reply runs that reply (R146 to R148). -/
theorem readReturns_of_reply {s : State} {k : Nat} {r : Record}
    (hd : decodeFrame s.params.delims .rep (readBytes s.params.respWindow k s) = .ok r) :
    readReturns k s = exec r.toInstr (tRead s.params.respWindow k s) := by
  obtain ⟨bc, da, cw, sax, sa, height, angle, rfl⟩ := exists_reply_of_dir (dir_of_decodeFrame hd)
  have hne : readBytes s.params.respWindow k s ≠ [] := by
    intro hnil
    rw [hnil] at hd
    cases hd
  simp [readReturns, hne, handleResponse, hd, Record.toInstr, exec]

/-- Settles O43: a step applies the oldest input, or the draw of a turn, to the state without it; an operation is run, a
frame delivered, and a turn runs what RESPOND or the response read decodes. -/
theorem stepRunsDecodedInstruction : Obligations.StepRunsDecodedInstruction := by
  refine ⟨?operation, ?frame, ?request, ?drawnRequest, ?reply⟩
  case operation =>
    intro s i rest hi hd
    exact (step_of_inputs hi).trans (present_of_operation hd _)
  case frame =>
    intro s i rest wire hi he
    exact (step_of_inputs hi).trans (present_of_frame he)
  case request =>
    intro s k rest r hi hr hp hd
    exact (step_of_inputs hi).trans (turn_of_request (s := dropInput rest s) hr hp hd k)
  case drawnRequest =>
    intro s r hi hr hp hd
    exact (step_of_no_inputs hi).trans (turn_of_request (s := drawn 1 s) hr hp hd _)
  case reply =>
    intro s k rest r hi hr hm hd
    calc step s
      _ = turn k (dropInput rest s) := step_of_inputs hi
      _ = readReturns k (dropInput rest s) := turn_of_read (s := dropInput rest s) hr hm k
      _ = _ := readReturns_of_reply (s := dropInput rest s) hd

/-- Settles O53: the state after reset is made of the parameters and the surroundings. -/
theorem nothingPersistsOverReset : Obligations.NothingPersistsOverReset := by
  intro s u hparams henv
  rw [exec_reset, exec_reset, hparams, henv]

end Sys2Proof.Machine

/-! A request frame received byte by byte (R170, R171, R233): acted on when no field is ETX, lost when one is. -/

namespace Sys2Proof

open Config (Delims)

/-! ### The bytes of a frame -/

theorem mem_esc {x v : Byte} : x ∈ esc v ↔ x = v := by
  by_cases hv : v = Config.dle
  · simp [hv, esc_dle]
  · simp [esc_of_ne hv]

/-- Stuffing brings no new byte into the payload (R76). -/
theorem mem_payloadOf {x : Byte} {fields : List Byte} : x ∈ payloadOf fields ↔ x ∈ fields := by
  simp [payloadOf, mem_esc]

/-- A frame up to the escape byte of its terminator. -/
def frameFront (d : Delims) (fields : List Byte) : List Byte :=
  [Config.dle, d.stx] ++ esc (byteCount fields) ++ payloadOf fields ++ [Config.dle]

theorem frameOf_eq_front (d : Delims) (fields : List Byte) :
    frameOf d fields = frameFront d fields ++ [d.etx, fcc (bodyOf d fields)] := by
  simp [frameOf, bodyOf, frameFront]

/-- A frame with its byte count taken as the first of its fields. -/
theorem frameOf_eq_cons (d : Delims) (fields : List Byte) : frameOf d fields = Config.dle :: d.stx ::
    (payloadOf (byteCount fields :: fields) ++ [Config.dle, d.etx, fcc (bodyOf d fields)]) := by
  simp [frameOf, bodyOf]

/-- With the default delimiters a frame holds an ETX before its terminator exactly when a field does: the byte count is
at least 8 (R78, R233). -/
theorem etx_mem_frameFront {fields : List Byte} (hmin : 6 ≤ fields.length) (hmax : fields.length ≤ 8) :
    Delims.ascii.etx ∈ frameFront Delims.ascii fields ↔ Delims.ascii.etx ∈ fields := by
  have hbc : Delims.ascii.etx ≠ byteCount fields := by
    intro h
    have hcount := byteCount_toNat hmax
    have hlen := payloadOf_length_bounds fields
    rw [← h] at hcount
    simp [Delims.ascii] at hcount
    omega
  have hdle : Delims.ascii.etx ≠ Config.dle := by decide
  have hstx : Delims.ascii.etx ≠ Delims.ascii.stx := by decide
  simp [frameFront, mem_esc, mem_payloadOf, hbc, hdle, hstx]

/-- A frame of ENCODE has at most 21 bytes (R83). -/
theorem length_le_of_encodeRequest {d : Delims} {c : Command} {das dae dt sa : Byte} {f : List Byte}
    (h : encodeRequest d c das dae dt sa = .ok f) : f.length ≤ 21 := by
  cases c with
  | stop => exact ((wireLengthRanges d das dae dt sa 0 0 f).1 (.inl h)).2.trans (by decide)
  | set height angle => exact ((wireLengthRanges d das dae dt sa height angle f).2.1 h).2.1
  | get => exact ((wireLengthRanges d das dae dt sa 0 0 f).1 (.inr h)).2.trans (by decide)

/-! ### Accepted pieces of a frame -/

/-- DECODE accepts no proper beginning of a frame: BC counts the bytes to its end (R78, R103). -/
theorem eq_nil_of_decode_prefix {d : Delims} {dir : Dir} {fields raw post : List Byte} {r : Record}
    (h8 : fields.length ≤ 8) (h : raw ++ post = frameOf d fields) (hd : decodeFrame d dir raw = .ok r) : post = [] := by
  obtain ⟨bcField, pay, fc, tail, rfl, -, -, -, htake, hlen, -⟩ := decodeFrame_ok hd
  have hrest : bcField ++ (pay ++ Config.dle :: d.etx :: fc :: tail ++ post) =
      esc (byteCount fields) ++ (payloadOf fields ++ [Config.dle, d.etx, fcc (bodyOf d fields)]) := by
    simpa [frameOf, bodyOf] using h
  have hfield := htake (pay ++ Config.dle :: d.etx :: fc :: tail ++ post)
  rw [hrest, takeField_esc_append] at hfield
  obtain ⟨hbc, hpay⟩ := Prod.mk.inj (Except.ok.inj hfield)
  have hlen' := congrArg List.length hpay
  rw [← hbc, byteCount_toNat h8] at hlen
  simp at hlen'
  exact List.length_eq_zero_iff.1 (by omega)

/-- Where an escape byte and then a byte `x` that is neither it nor the end delimiter stand in a payload and terminator:
at the second byte of a stuffed field and the field `x` after it (R76). -/
theorem payload_split_at_dle {d : Delims} {x f : Byte} (hx : x ≠ Config.dle) (hxe : x ≠ d.etx)
    (he : d.etx ≠ Config.dle) {p z fields : List Byte}
    (h : p ++ Config.dle :: x :: z = payloadOf fields ++ [Config.dle, d.etx, f]) :
    ∃ f1 f2, fields = f1 ++ Config.dle :: x :: f2 ∧ z = payloadOf f2 ++ [Config.dle, d.etx, f] := by
  induction fields generalizing p with
  | nil =>
    obtain _ | ⟨_, _ | ⟨_, p⟩⟩ := p
    · simp_all
    · simp_all
    · have := congrArg List.length h
      simp only [payloadOf_nil, List.length_append, List.length_cons, List.length_nil] at this
      omega
  | cons v fields ih =>
    by_cases hv : v = Config.dle
    · subst hv
      rw [payloadOf_cons, esc_dle] at h
      obtain _ | ⟨_, _ | ⟨_, p⟩⟩ := p
      · simp_all
      · obtain _ | ⟨w, fields⟩ := fields
        · simp_all
        · by_cases hw : w = Config.dle
          · simp_all [esc_dle]
          · rw [payloadOf_cons, esc_of_ne hw] at h
            refine ⟨[], fields, ?_, ?_⟩ <;> simp_all
      · obtain ⟨f1, f2, rfl, hz⟩ := ih (p := p) (by simp_all)
        exact ⟨_ :: f1, f2, rfl, hz⟩
    · rw [payloadOf_cons, esc_of_ne hv] at h
      obtain _ | ⟨_, p⟩ := p
      · simp_all
      · obtain ⟨f1, f2, rfl, hz⟩ := ih (p := p) (by simp_all)
        exact ⟨_ :: f1, f2, rfl, hz⟩

/-- What an accepted input needs behind its header, where that is the end of a frame: a field for its BC, at least 8,
and as many bytes as BC counts, with the FCC (R103, R244). -/
theorem bc_of_decode_suffix {d : Delims} {dir : Dir} {f : Byte} {fields raw post : List Byte} {r : Record}
    (hetx : d.etx.toNat < 8) (h : raw ++ post = Config.dle :: d.stx :: (payloadOf fields ++ [Config.dle, d.etx, f]))
    (hd : decodeFrame d dir raw = .ok r) :
    ∃ bc rest, fields = bc :: rest ∧ bc.toNat ≤ (payloadOf rest).length + 2 := by
  obtain ⟨bcField, pay, fc, tail, rfl, -, -, -, htake, hlen, hsix, -⟩ := decodeFrame_ok hd
  have hrest : bcField ++ (pay ++ Config.dle :: d.etx :: fc :: tail ++ post) =
      payloadOf fields ++ [Config.dle, d.etx, f] := by simpa using h
  have hfield := htake (pay ++ Config.dle :: d.etx :: fc :: tail ++ post)
  rw [hrest] at hfield
  cases fields with
  | nil =>
    obtain ⟨hbc, -⟩ := Prod.mk.inj (Except.ok.inj ((takeField_dle_cons d.etx [f]).symm.trans hfield))
    rw [hbc] at hetx
    omega
  | cons bc rest =>
    rw [payloadOf_cons, List.append_assoc, takeField_esc_append] at hfield
    obtain ⟨hbc, hpay⟩ := Prod.mk.inj (Except.ok.inj hfield)
    have hlen' := congrArg List.length hpay
    simp at hlen'
    exact ⟨bc, rest, rfl, by rw [hbc]; omega⟩

/-- A stuffed byte count belongs to a SET request all of whose free fields are the escape byte (R83). -/
theorem das_eq_dle_of_byteCount {c : Command} {das dae dt sa : Byte} (hle : das ≤ dae)
    (h : byteCount (requestFields c das dae dt sa) = Config.dle) : das = Config.dle := by
  have h8 : (requestFields c das dae dt sa).length ≤ 8 := by cases c <;> simp [requestFields, Command.args]
  have h14 := (byteCount_eq_dle h8).1 h
  cases c with
  | stop =>
    have := shortPayload_length_bounds (c := .stop) rfl das dae dt sa
    omega
  | get =>
    have := shortPayload_length_bounds (c := .get) rfl das dae dt sa
    omega
  | set hh a =>
    obtain ⟨-, hset, -⟩ := wireLengthRanges Delims.ascii das dae dt sa hh a _
    obtain ⟨-, -, -, hall⟩ := hset (Machine.encodeRequest_ok hle)
    have := frameOf_length_cases Delims.ascii h8
    exact (hall.1 (by omega)).1

theorem controlWord_apart (c : Cmd) : controlWord c ≠ Config.dle ∧ controlWord c ≠ Delims.ascii.stx := by
  cases c <;> decide

theorem tagOf_apart (c : Cmd) : tagOf c ≠ Config.dle ∧ tagOf c ≠ Delims.ascii.stx := by
  cases c <;> decide

theorem le_tagOf_toNat (c : Cmd) : 0x55 ≤ (tagOf c).toNat := by
  cases c <;> decide

/-- A command has no arguments or two (R103). -/
theorem args_length_le (c : Command) : c.args.length ≤ 2 := by
  cases c <;> simp [Command.args]

theorem requestFields_length (c : Command) (das dae dt sa : Byte) :
    6 ≤ (requestFields c das dae dt sa).length ∧ (requestFields c das dae dt sa).length ≤ 8 := by
  have := args_length_le c
  simp only [requestFields, List.length_append, List.length_cons, List.length_nil]
  omega

/-- Behind an escape byte and STX among the fields of a request, its byte count before them, no field can be the BC of a
frame that ends where the request ends: the range is not inverted and the control word and tag are those of R72, so
these two are SAX and SA, followed by a tag, or height and angle, followed by nothing. -/
theorem no_bc_after_dle_stx {c : Command} {das dae dt sa bc : Byte} {f1 rest : List Byte} (hle : das ≤ dae)
    (h : byteCount (requestFields c das dae dt sa) :: requestFields c das dae dt sa =
      f1 ++ Config.dle :: Delims.ascii.stx :: bc :: rest) : (payloadOf rest).length + 2 < bc.toNat := by
  have hbc := das_eq_dle_of_byteCount (c := c) (dt := dt) (sa := sa) hle
  obtain ⟨hcwDle, hcwStx⟩ := controlWord_apart c.cmd
  obtain ⟨htagDle, htagStx⟩ := tagOf_apart c.cmd
  have htag := le_tagOf_toNat c.cmd
  have hargs := args_length_le c
  rw [requestFields] at h hbc
  obtain _ | ⟨_, _ | ⟨_, _ | ⟨_, _ | ⟨_, _ | ⟨_, _ | ⟨_, _ | ⟨_, f1⟩⟩⟩⟩⟩⟩⟩ := f1 <;>
    simp only [List.nil_append, List.cons_append, List.cons.injEq] at h
  case nil =>
    obtain ⟨hcount, rfl, -⟩ := h
    exact absurd (hbc hcount) (by decide)
  case cons.nil =>
    obtain ⟨-, rfl, rfl, -⟩ := h
    exact absurd hle (by decide)
  case cons.cons.nil =>
    obtain ⟨-, -, -, hcw, -⟩ := h
    exact absurd hcw hcwStx
  case cons.cons.cons.nil =>
    obtain ⟨-, -, -, hcw, -⟩ := h
    exact absurd hcw hcwDle
  case cons.cons.cons.cons.nil =>
    obtain ⟨-, -, -, -, -, -, rfl, rfl⟩ := h
    have := payloadOf_length_bounds c.args
    omega
  case cons.cons.cons.cons.cons.nil =>
    obtain ⟨-, -, -, -, -, -, htag, -⟩ := h
    exact absurd htag htagStx
  case cons.cons.cons.cons.cons.cons.nil =>
    obtain ⟨-, -, -, -, -, -, htag, -⟩ := h
    exact absurd htag htagDle
  case cons.cons.cons.cons.cons.cons.cons =>
    obtain ⟨-, -, -, -, -, -, -, hargsEq⟩ := h
    rw [hargsEq] at hargs
    simp at hargs
    omega

/-- No piece of a request frame but one from its first byte on is accepted: it would begin at an escape byte followed
by STX, with a BC behind them that it is too short for. -/
theorem eq_nil_of_decode_infix {c : Command} {das dae dt sa : Byte} {pre raw post : List Byte} {dir : Dir} {r : Record}
    (hle : das ≤ dae) (h : pre ++ raw ++ post = frameOf Delims.ascii (requestFields c das dae dt sa))
    (hd : decodeFrame Delims.ascii dir raw = .ok r) : pre = [] := by
  by_contra hpre
  obtain ⟨x, pre, rfl⟩ := List.exists_cons_of_ne_nil hpre
  obtain ⟨z, rfl⟩ : ∃ z, raw = Config.dle :: Delims.ascii.stx :: z := by
    obtain ⟨_, _, _, _, hraw, -⟩ := decodeFrame_ok hd
    exact ⟨_, hraw⟩
  have hafter : pre ++ Config.dle :: Delims.ascii.stx :: (z ++ post) = Delims.ascii.stx ::
      (payloadOf (byteCount (requestFields c das dae dt sa) :: requestFields c das dae dt sa) ++
        [Config.dle, Delims.ascii.etx, fcc (bodyOf Delims.ascii (requestFields c das dae dt sa))]) := by
    rw [frameOf_eq_cons, List.append_assoc, List.cons_append] at h
    exact (List.cons.inj h).2
  obtain _ | ⟨_, pre⟩ := pre
  · exact absurd (List.cons.inj hafter).1 (by decide)
  · obtain ⟨f1, f2, hfields, hz⟩ := payload_split_at_dle (by decide) (by decide) (by decide) (List.cons.inj hafter).2
    obtain ⟨bc, rest, rfl, hshort⟩ := bc_of_decode_suffix (fields := f2) (by decide)
      (by rw [← hz]; rfl) hd
    have := no_bc_after_dle_stx hle hfields
    omega

end Sys2Proof

namespace Sys2Proof.Machine

open Config (Delims)

/-! ### Hearing bytes -/

section Hearing

variable {s t : State} {b : Byte}

/-- The state with the bytes `buf` in `RXBUF` and the Responder in phase `p`. -/
abbrev buffered (buf : List Byte) (p : RPhase) (s : State) : State :=
  { s with rxbuf := buf, rphase := p }

theorem hear_of_receives (h : exec (.receive b) s = .next t) (hp : t.rphase ≠ .ready) : hear b s = .next t := by
  simp only [hear, h, if_neg hp]

/-- The byte behind ETX completes a candidate frame, and the Responder responds (R170, R182). -/
theorem hear_of_fcc (hr : s.params.role = .slave) (hp : s.rphase = .fcc) :
    hear b s = exec .respond (buffered (s.rxbuf ++ [b]) .ready s) := by
  simp only [hear, exec_receive_fcc hr hp, if_pos]

theorem hearAll_cons (h : hear b s = .next t) (bs : List Byte) : hearAll (b :: bs) s = hearAll bs t := by
  simp only [hearAll, h]

theorem hearAll_append {xs : List Byte} (h : hearAll xs s = .next t) (ys : List Byte) :
    hearAll (xs ++ ys) s = hearAll ys t := by
  induction xs generalizing s with
  | nil => rw [next_inj h, List.nil_append]
  | cons x xs ih =>
    cases hx : hear x s with
    | next u =>
      rw [hearAll_cons hx] at h
      rw [List.cons_append, hearAll_cons hx, ih h]
    | fault | refused => simp [hearAll, hx] at h

theorem hearAll_singleton (b : Byte) (s : State) : hearAll [b] s = hear b s := by
  unfold hearAll
  split <;> simp_all [hearAll]

/-- A Responder with room for them accumulates bytes that are no ETX (R171). -/
theorem hearAll_of_room {xs : List Byte} (hr : s.params.role = .slave) (hp : s.rphase = .accum)
    (hxs : s.params.delims.etx ∉ xs) (hroom : s.rxbuf.length + xs.length + 1 < s.params.rxMaxLen) :
    hearAll xs s = .next { s with rxbuf := s.rxbuf ++ xs } := by
  induction xs generalizing s with
  | nil => simp [hearAll]
  | cons x xs ih =>
    obtain ⟨hx, hxs⟩ := not_or.1 (mt List.mem_cons.2 hxs)
    rw [List.length_cons] at hroom
    have hfirst := hear_of_receives (exec_receive_of_room hr hp (Ne.symm hx) (by omega)) (by simp [hp])
    rw [hearAll_cons hfirst, ih (s := { s with rxbuf := s.rxbuf ++ [x] }) hr hp hxs (by simp; omega)]
    simp

/-- Bytes without an ETX, then an ETX and one byte more are a candidate frame (R170, R182). -/
theorem hearAll_candidate {xs : List Byte} (hr : s.params.role = .slave) (hp : s.rphase = .accum)
    (hxs : s.params.delims.etx ∉ xs) (hroom : s.rxbuf.length + xs.length + 1 < s.params.rxMaxLen) (b : Byte) :
    hearAll (xs ++ [s.params.delims.etx, b]) s =
      exec .respond (buffered (s.rxbuf ++ (xs ++ [s.params.delims.etx, b])) .ready s) := by
  have hetx := exec_receive_etx (s := { s with rxbuf := s.rxbuf ++ xs }) hr hp
  rw [hearAll_append (hearAll_of_room hr hp hxs hroom), hearAll_cons (hear_of_receives hetx nofun),
    hearAll_singleton, hear_of_fcc]
  · simp
  · exact hr
  · rfl

end Hearing

/-! ### A request without an ETX field -/

/-- A well-formed request is the request of a command with its arguments, the control word that of R72. -/
theorem exists_command_of_wf {i : Instr} (hd : i.dir? = some .req) (hwf : i.wf) :
    ∃ c das dae dt sa, das ≤ dae ∧ i = requestInstr c das dae (controlWord c.cmd) dt sa := by
  cases i with
  | stopRequest das dae cw sax sa =>
    obtain ⟨hle, rfl⟩ := hwf
    exact ⟨.stop, das, dae, sax, sa, hle, rfl⟩
  | setRequest das dae cw sax sa h a =>
    obtain ⟨hle, rfl⟩ := hwf
    exact ⟨.set h a, das, dae, sax, sa, hle, rfl⟩
  | getRequest das dae cw sax sa =>
    obtain ⟨hle, rfl⟩ := hwf
    exact ⟨.get, das, dae, sax, sa, hle, rfl⟩
  | getReply => cases hd
  | _ => cases hd

/-- A field of a request is ETX or none is (R233). -/
theorem carriesEtx_requestInstr (d : Delims) (c : Command) (das dae dt sa : Byte) :
    carriesEtx d (requestInstr c das dae (controlWord c.cmd) dt sa) = true ↔
      d.etx ∈ requestFields c das dae dt sa := by
  cases c <;> simp [carriesEtx, requestInstr, Instr.fields?, requestFields, Command.cmd, Command.args, controlWord, tagOf]

/-- What the two statements below take a Responder to be: a slave with the default delimiters that holds nothing. -/
structure Listening (s : State) : Prop where
  role : s.params.role = .slave
  delims : s.params.delims = Delims.ascii
  room : 21 ≤ s.params.rxMaxLen
  rphase : s.rphase = .accum
  rxbuf : s.rxbuf = []

/-- Taking a candidate frame off a Responder that held nothing before it. -/
theorem Listening.takeFrame_eq {s : State} (hs : Listening s) (wire : List Byte) (p : RPhase) :
    takeFrame (buffered wire p s) = s := by
  rw [takeFrame, ← hs.rxbuf, ← hs.rphase]

/-- A request frame that holds no ETX before its terminator is one candidate frame, and RESPOND runs its instruction. -/
theorem Listening.hearAll_request {s : State} (hs : Listening s) {c : Command} {das dae dt sa : Byte} (hle : das ≤ dae)
    (hetx : Delims.ascii.etx ∉ requestFields c das dae dt sa) :
    hearAll (frameOf Delims.ascii (requestFields c das dae dt sa)) s =
      exec (requestInstr c das dae (controlWord c.cmd) dt sa) s := by
  obtain ⟨r, hd, hi, -⟩ := decodeFrame_encode (requestInstr_dir? c das dae _ dt sa)
    (encode_requestInstr Delims.ascii c das dae dt sa) []
  rw [List.append_nil, frameOf_eq_front] at hd
  have hlen := length_le_of_encodeRequest (encodeRequest_ok (d := Delims.ascii) (c := c) (dt := dt) (sa := sa) hle)
  rw [frameOf_eq_front] at hlen ⊢
  have hfields := requestFields_length c das dae dt sa
  have hfront : s.params.delims.etx ∉ frameFront Delims.ascii (requestFields c das dae dt sa) := by
    rw [hs.delims, etx_mem_frameFront hfields.1 hfields.2]
    exact hetx
  have hroom := hs.room
  have hcand := hearAll_candidate hs.role hs.rphase hfront (by simp [hs.rxbuf] at hlen ⊢; omega)
    (fcc (bodyOf Delims.ascii (requestFields c das dae dt sa)))
  rw [hs.delims, hs.rxbuf, List.nil_append] at hcand
  rw [hcand, exec_respond_of_ok (s := buffered _ .ready s) hs.role rfl
    ((congrArg (decodeFrame · .req _) hs.delims).trans hd), hs.takeFrame_eq, hi]

/-- Settles O44: a well-formed request is the request of a command, so `Listening.hearAll_request` applies. -/
theorem deliveredRequestIsActedOn : Obligations.DeliveredRequestIsActedOn := by
  intro s i wire hr hdelims hroom hp hbuf hd hwf he hcarries
  obtain ⟨c, das, dae, dt, sa, hle, rfl⟩ := exists_command_of_wf hd hwf
  have hetx : Delims.ascii.etx ∉ requestFields c das dae dt sa := by
    rw [← carriesEtx_requestInstr, ← hdelims, hcarries]
    nofun
  rw [encode_requestInstr, hdelims] at he
  rw [← Option.some.inj he]
  exact Listening.hearAll_request ⟨hr, hdelims, hroom, hp, hbuf⟩ hle hetx

/-! ### A request with an ETX field -/

/-- The Responder between two bytes: it accumulates bytes that are no ETX, or the last byte was the first ETX (R182). -/
def Receiving (s : State) : Prop :=
  (s.rphase = .accum ∧ s.params.delims.etx ∉ s.rxbuf) ∨
    (s.rphase = .fcc ∧ ∃ q, s.rxbuf = q ++ [s.params.delims.etx] ∧ s.params.delims.etx ∉ q)

/-- The Responder has room for the bytes `w` still to come, and whatever candidate frame it finds in them or in what it
holds is rejected. -/
structure Lost (w : List Byte) (s : State) : Prop where
  role : s.params.role = .slave
  receiving : Receiving s
  room : s.rxbuf.length + w.length ≤ s.params.rxMaxLen
  rejected : ∀ q b, s.params.delims.etx ∉ q → q ++ [s.params.delims.etx, b] <:+: s.rxbuf ++ w →
    ∃ c, decodeFrame s.params.delims .req (q ++ [s.params.delims.etx, b]) = .error c

section Lost

variable {s : State} {b : Byte} {w : List Byte}

/-- The state once a candidate frame has been rejected (R175, R176). -/
abbrev afterReject (s : State) : State := rejectFrame (takeFrame s)

theorem Lost.keeps (h : Lost (b :: w) s) {p : RPhase}
    (hr : Receiving (buffered (s.rxbuf ++ [b]) p s)) :
    Lost w (buffered (s.rxbuf ++ [b]) p s) where
  role := h.role
  receiving := hr
  room := by have := h.room; simp at this ⊢; omega
  rejected q b' hq hinfix := h.rejected q b' hq (by simpa using hinfix)

/-- In `R_ACCUM` a byte other than ETX joins the others. -/
theorem Lost.hear_other (h : Lost (b :: w) s) (hp : s.rphase = .accum) (hb : b ≠ s.params.delims.etx)
    (hw : 2 ≤ w.length) : hear b s = .next { s with rxbuf := s.rxbuf ++ [b] } ∧
      Lost w { s with rxbuf := s.rxbuf ++ [b] } := by
  have hroom := h.room
  rw [List.length_cons] at hroom
  refine ⟨hear_of_receives (exec_receive_of_room h.role hp hb (by omega)) (by simp [hp]), h.keeps (.inl ⟨hp, ?_⟩)⟩
  obtain ⟨-, hbuf⟩ | ⟨hfcc, -⟩ := h.receiving
  · simp [hbuf, hb.symm]
  · simp [hp] at hfcc

/-- In `R_ACCUM` an ETX leads to `R_FCC`. -/
theorem Lost.hear_etx (h : Lost (s.params.delims.etx :: w) s) (hp : s.rphase = .accum) :
    hear s.params.delims.etx s = .next (buffered (s.rxbuf ++ [s.params.delims.etx]) .fcc s) ∧
      Lost w (buffered (s.rxbuf ++ [s.params.delims.etx]) .fcc s) := by
  refine ⟨hear_of_receives (exec_receive_etx h.role hp) nofun, h.keeps (.inr ⟨rfl, s.rxbuf, rfl, ?_⟩)⟩
  obtain ⟨-, hbuf⟩ | ⟨hfcc, -⟩ := h.receiving
  · exact hbuf
  · simp [hp] at hfcc

/-- In `R_FCC` any byte completes a candidate frame, which is rejected. -/
theorem Lost.hear_fcc (h : Lost (b :: w) s) (hp : s.rphase = .fcc) :
    hear b s = .next (afterReject s) ∧ Lost w (afterReject s) := by
  obtain ⟨haccum, -⟩ | ⟨-, q, hq, hetx⟩ := h.receiving
  · simp [hp] at haccum
  · obtain ⟨c, hc⟩ := h.rejected q b hetx ⟨[], w, by simp [hq]⟩
    have hroom := h.room
    constructor
    · rw [hear_of_fcc h.role hp]
      refine exec_respond_of_error (s := buffered (s.rxbuf ++ [b]) .ready s) (c := c) h.role rfl ?_
      rw [← hc, hq]
      simp
    · refine ⟨h.role, .inl ⟨rfl, nofun⟩, ?_, fun q' b' hq' hinfix => h.rejected q' b' hq' ?_⟩
      · simp [rejectFrame] at hroom ⊢
        omega
      · exact hinfix.trans ⟨s.rxbuf ++ [b], [], by simp [rejectFrame]⟩

/-- Bytes that end in a terminator and one byte more, no candidate among them accepted, leave a Responder that holds
nothing and has rejected: behind the escape byte of the terminator it is in `R_ACCUM`, so the ETX and the byte after
it end a candidate frame. -/
theorem Lost.hearAll {u : List Byte} {f : Byte} (h : Lost (u ++ [Config.dle, s.params.delims.etx, f]) s)
    (he : s.params.delims.etx ≠ Config.dle) :
    hearAll (u ++ [Config.dle, s.params.delims.etx, f]) s = .next (afterReject s) := by
  induction u generalizing s with
  | nil =>
    have hend {v : State} (hv : Lost [v.params.delims.etx, f] v) (hp : v.rphase = .accum) :
        Machine.hearAll [v.params.delims.etx, f] v = .next (afterReject v) := by
      obtain ⟨hetx, hv⟩ := hv.hear_etx hp
      obtain ⟨hlast, -⟩ := hv.hear_fcc rfl
      rw [hearAll_cons hetx, hearAll_singleton, hlast]
      rfl
    cases hp : s.rphase with
    | accum =>
      obtain ⟨hdle, hv⟩ := h.hear_other hp he.symm (by simp)
      exact (hearAll_cons hdle _).trans (hend hv hp)
    | fcc =>
      obtain ⟨hdle, hv⟩ := h.hear_fcc hp
      exact (hearAll_cons hdle _).trans (hend hv rfl)
    | ready => obtain ⟨hq, -⟩ | ⟨hq, -⟩ := h.receiving <;> simp [hp] at hq
  | cons b u ih =>
    cases hp : s.rphase with
    | accum =>
      by_cases hb : b = s.params.delims.etx
      · subst hb
        obtain ⟨hfirst, hv⟩ := h.hear_etx hp
        exact (hearAll_cons hfirst _).trans (ih (s := buffered _ .fcc s) hv he)
      · obtain ⟨hfirst, hv⟩ := h.hear_other hp hb (by simp)
        exact (hearAll_cons hfirst _).trans (ih (s := buffered (s.rxbuf ++ [b]) s.rphase s) hv he)
    | fcc =>
      obtain ⟨hfirst, hv⟩ := h.hear_fcc hp
      exact (hearAll_cons hfirst _).trans (ih (s := afterReject s) hv he)
    | ready => obtain ⟨hq, -⟩ | ⟨hq, -⟩ := h.receiving <;> simp [hp] at hq

end Lost

/-- No candidate frame in a request with an ETX field is accepted: it would begin where the request begins, be the whole
of it, and so hold the ETX field before its end. -/
theorem exists_error_of_etx_field {c : Command} {das dae dt sa b : Byte} {q : List Byte} (hle : das ≤ dae)
    (hetx : Delims.ascii.etx ∈ requestFields c das dae dt sa) (hq : Delims.ascii.etx ∉ q)
    (h : q ++ [Delims.ascii.etx, b] <:+: frameOf Delims.ascii (requestFields c das dae dt sa)) :
    ∃ cause, decodeFrame Delims.ascii .req (q ++ [Delims.ascii.etx, b]) = .error cause := by
  cases hd : decodeFrame Delims.ascii .req (q ++ [Delims.ascii.etx, b]) with
  | error cause => exact ⟨cause, rfl⟩
  | ok r =>
    obtain ⟨pre, post, hframe⟩ := h
    obtain ⟨hmin, hmax⟩ := requestFields_length c das dae dt sa
    obtain rfl := eq_nil_of_decode_infix hle hframe hd
    obtain rfl := eq_nil_of_decode_prefix hmax hframe hd
    rw [List.nil_append, List.append_nil, frameOf_eq_front] at hframe
    obtain ⟨rfl, -⟩ := List.append_inj' hframe rfl
    exact absurd ((etx_mem_frameFront hmin hmax).2 hetx) hq

/-- Settles O45: every candidate frame in the request is rejected, and the request ends in a terminator and its FCC. -/
theorem etxInRequestLosesIt : Obligations.EtxInRequestLosesIt := by
  intro s i wire hr hdelims hroom hp hbuf hd hwf he hcarries
  obtain ⟨c, das, dae, dt, sa, hle, rfl⟩ := exists_command_of_wf hd hwf
  rw [carriesEtx_requestInstr, hdelims] at hcarries
  rw [encode_requestInstr, hdelims] at he
  have hwire := Option.some.inj he
  have hlen := length_le_of_encodeRequest (encodeRequest_ok (d := Delims.ascii) (c := c) (dt := dt) (sa := sa) hle)
  rw [hwire] at hlen
  have hlost : Lost wire s := by
    refine ⟨hr, .inl ⟨hp, by simp [hbuf]⟩, by rw [hbuf]; simp; omega, fun q b hq hinfix => ?_⟩
    rw [hdelims] at hq hinfix ⊢
    rw [hbuf, List.nil_append, ← hwire] at hinfix
    exact exists_error_of_etx_field hle hcarries hq hinfix
  obtain ⟨u, f, hu⟩ : ∃ u f, wire = u ++ [Config.dle, s.params.delims.etx, f] :=
    ⟨[Config.dle, Delims.ascii.stx] ++ esc (byteCount (requestFields c das dae dt sa)) ++
      payloadOf (requestFields c das dae dt sa), fcc (bodyOf Delims.ascii (requestFields c das dae dt sa)),
      by rw [← hwire, hdelims, frameOf_eq_front, frameFront]; simp⟩
  rw [hu] at hlost ⊢
  rw [hlost.hearAll (by rw [hdelims]; decide), afterReject, rejectFrame, takeFrame, ← hbuf, ← hp]

end Sys2Proof.Machine

/-! The master's steps as equations (R132 to R135, R140 to R148, R151): GATE and GATE_RECORD called by themselves, the
start of a transaction, and its three later phases. -/

namespace Sys2Proof.Machine

open Config (Delims)

/-! ### GATE and GATE_RECORD -/

section Gate

variable {s : State}

theorem exec_gate_of_idle (hr : s.params.role = .master) (hm : s.mphase = .idle) :
    exec .gate s = .next (callGate s) :=
  congrArg _ (acceptWhenIdle_of_idle callGate hr hm)

/-- R133: the baud test comes first. -/
theorem callGate_of_nonpos (hb : s.env.baud ≤ 0) :
    callGate s = raiseFailure (.invalidBaudRate s.env.baud) (emit (.baud s.env.baud) s) := by
  simp [callGate, hb]

/-- R132 at a positive baud rate: the gate is entered and its caller blocked (log entry 9). -/
theorem callGate_of_pos (hb : 0 < s.env.baud) :
    callGate s = { enterGate (emit (.baud s.env.baud) s) with
      env := { (enterGate (emit (.baud s.env.baud) s)).env with gateCall := true } } := by
  simp [callGate, not_le.2 hb]

/-- Settles O13: a positive baud rate passes the test, and the deadline is `gateDeadline_eq`, by cases of `LRT`. -/
theorem gateSetsDeadline : Obligations.GateSetsDeadline := by
  intro s hr hm hb
  rw [exec_gate_of_idle hr hm, callGate_of_pos hb, enterGate, gateDeadline_eq]
  cases hl : s.lrt <;> simp [emit, hl]

/-- Settles O15: the failing baud test raises the failure of R206, which keeps all but the code and the phase. -/
theorem gateRejectsNonPositiveBaud : Obligations.GateRejectsNonPositiveBaud := by
  intro s hr hm hb
  refine ⟨_, (exec_gate_of_idle hr hm).trans (congrArg _ (callGate_of_nonpos hb)), ?_⟩
  have htrace : (raiseFailure (.invalidBaudRate s.env.baud) (emit (.baud s.env.baud) s)).env.trace =
      s.env.trace ++ [.baud s.env.baud] := by simp
  refine ⟨by simp, by simp, by simp, by simp, by simp [failureCode], ?written, by simp, by simp, by simp,
    by constructor <;> simp, by constructor <;> simp, by simp, by simp⟩
  case written => simpa [TEvent.written] using outbound_of_trace htrace

/-- Settles O16: GATE_RECORD passes the acceptance test and records the time. -/
theorem gateRecordOverwritesLrt : Obligations.GateRecordOverwritesLrt := by
  intro s hr hm
  exact congrArg _ (acceptWhenIdle_of_idle recordRead hr hm)

end Gate

/-! ### The start of a transaction -/

section Start

variable {s : State} {i : Instr} {cmd : Cmd} {das dae : Byte} {fields : List Byte}

/-- R140 steps 1 to 3 with a valid range and a positive baud rate. -/
theorem Asks.enters (hasks : Asks s i cmd das dae fields) (hr : s.params.role = .master) (hm : s.mphase = .idle)
    (hle : das ≤ dae) (hb : 0 < s.env.baud) :
    ∃ t, exec i s = .next t ∧ GateEntered cmd das dae (frameOf s.params.delims fields) s t := by
  obtain ⟨h, a, n, hbegin, rfl⟩ := hasks.begins hr hm
  obtain ⟨hlt, -⟩ | ⟨-, hb', -⟩ | ⟨-, -, e⟩ := beginTransaction_cases cmd das dae h a (drawn n s)
  · exact absurd hlt (by bv_omega)
  · exact absurd hb (not_lt.2 hb')
  · exact ⟨_, hbegin.trans (congrArg _ e), gateEntered_enterGate cmd das dae h a n s⟩

/-- R140: an accepted Execute latches its operands on every path. -/
theorem beginTransaction_mcmd (cmd : Cmd) (das dae h a : Byte) (s : State) :
    (beginTransaction cmd das dae h a s).mcmd = { cmd := cmd, das := das, dae := dae, height := h, angle := a } := by
  obtain ⟨-, e⟩ | ⟨-, -, e⟩ | ⟨-, -, e⟩ := beginTransaction_cases cmd das dae h a s <;> simp [e]

/-- Settles O19: EXECUTE asks for its transaction, which enters the gate and has latched the operands. -/
theorem executeEntersGate : Obligations.ExecuteEntersGate := by
  intro cmd das dae h a s hr hm hle hb
  obtain ⟨t, ht, hentered⟩ := (Asks.execute cmd das dae h a).enters hr hm hle hb
  have hbegin : exec (.execute cmd das dae h a) s = .next (beginTransaction cmd das dae h a s) :=
    congrArg _ (acceptWhenIdle_of_idle _ hr hm)
  refine ⟨t, ht, hentered, ?_⟩
  rw [← next_inj (hbegin.symm.trans ht), beginTransaction_mcmd]

/-- Settles O20: STOP, SET and GET ask for their transactions, whose requests have the fields of their rows. -/
theorem hostCommandsEnterGate : Obligations.HostCommandsEnterGate := by
  intro s hr hm hb
  refine ⟨fun das dae hle => (Asks.stop das dae).enters hr hm hle hb, ?set,
    fun addr => (Asks.get addr).enters hr hm (BitVec.le_refl addr) hb⟩
  case set =>
    intro das dae h a hle
    obtain ⟨t, ht, hentered⟩ := (Asks.set das dae h a).enters hr hm hle hb
    have hbegin : exec (.set das dae h a) s =
        .next (beginTransaction .set das dae (orDefault h) (orDefault a) s) :=
      congrArg _ (acceptWhenIdle_of_idle _ hr hm)
    have hmcmd : t.mcmd = { cmd := .set, das := das, dae := dae, height := orDefault h, angle := orDefault a } := by
      rw [← next_inj (hbegin.symm.trans ht), beginTransaction_mcmd]
    exact ⟨t, ht, hentered, by rw [hmcmd]; rfl, by rw [hmcmd]; rfl⟩

/-- Settles O22: the transaction that the operation asks for fails on its range at once (R141). -/
theorem invertedRangeFailsBeforeTheLine : Obligations.InvertedRangeFailsBeforeTheLine := by
  intro i das dae s hi hr hm hlt
  obtain ⟨cmd, fields, hasks⟩ : ∃ cmd fields, Asks s i cmd das dae fields := by
    obtain ⟨cmd, h, a, rfl⟩ | rfl | ⟨h, a, rfl⟩ := hi
    · exact ⟨cmd, _, .execute cmd das dae h a⟩
    · exact ⟨.stop, _, .stop das dae⟩
    · exact ⟨.set, _, .set das dae h a⟩
  obtain ⟨h, a, n, hbegin, -⟩ := hasks.begins hr hm
  obtain ⟨-, e⟩ | ⟨hle, -⟩ | ⟨hle, -⟩ := beginTransaction_cases cmd das dae h a (drawn n s)
  · refine ⟨_, hbegin.trans (congrArg _ e), by simp, by simp [failureCode], by simp, by simp, by simp, by simp,
      by constructor <;> simp, by constructor <;> simp, by constructor <;> simp, by constructor <;> simp, by simp⟩
  · exact absurd hlt (by bv_omega)
  · exact absurd hlt (by bv_omega)

/-- Settles O23: the transaction that the operation asks for encodes its request, then fails the baud test (R133). -/
theorem nonPositiveBaudFailsBeforeWriting : Obligations.NonPositiveBaudFailsBeforeWriting := by
  intro i cmd das dae fields s hasks hr hm hle hb
  obtain ⟨h, a, n, hbegin, rfl⟩ := hasks.begins hr hm
  obtain ⟨hlt, -⟩ | ⟨-, -, e⟩ | ⟨-, hb', -⟩ := beginTransaction_cases cmd das dae h a (drawn n s)
  · exact absurd hlt (by bv_omega)
  · refine ⟨_, hbegin.trans (congrArg _ e), by simp, by simp [failureCode], by simp, by simp, by simp, by simp,
      ?trace, ?written, by simp, by simp, by simp, by simp, by constructor <;> simp, by constructor <;> simp,
      by constructor <;> simp, by simp⟩
    case trace => simp
    case written =>
      rw [outbound_of_trace (s := s) (new := (if s.cfg.closeAfterCall then [.opened] else []) ++ [.baud s.env.baud] ++
        (if s.cfg.closeAfterCall then [.closed] else [])) (by simp)]
      simp [TEvent.written]
  · exact absurd hb (not_le.2 hb')

end Start

/-! ### The later phases -/

section Phases

variable {s : State} {k : Nat}

theorem turn_of_wait (hr : s.params.role = .master) (hm : s.mphase = .gate) (hw : s.env.now < s.gdl) :
    turn k s = .next s := by
  simp only [turn, hr, hm, if_pos hw]

theorem turn_of_release (hr : s.params.role = .master) (hm : s.mphase = .gate) (hw : s.gdl ≤ s.env.now)
    (hg : s.env.gateCall = true) : turn k s = .next (gateReleases s) := by
  simp only [turn, hr, hm, if_neg (not_lt.2 hw), if_pos hg]

theorem turn_of_open (hr : s.params.role = .master) (hm : s.mphase = .gate) (hw : s.gdl ≤ s.env.now)
    (hg : s.env.gateCall = false) : turn k s = .next (gateOpens s) := by
  simp [turn, hr, hm, not_lt.2 hw, hg]

theorem turn_of_echo (hr : s.params.role = .master) (hm : s.mphase = .echo) :
    turn k s = .next (echoReturns k s) := by
  simp only [turn, hr, hm]

/-- Settles O14: a blocked caller waits for the deadline and is then returned ok. -/
theorem gateBlocksThenReturns : Obligations.GateBlocksThenReturns :=
  fun _ _ hr hm hg => ⟨turn_of_wait hr hm, fun hw => turn_of_release hr hm hw hg⟩

/-- Settles O24: the gate opens at the deadline; what follows the write is decided by `local_echo` and the command. -/
theorem openGateWritesRequest : Obligations.OpenGateWritesRequest := by
  intro k s hr hm hg
  refine ⟨turn_of_wait hr hm, fun hw => ?_⟩
  rw [turn_of_open hr hm hw hg]
  refine ⟨fun hecho => ?_, fun hecho hget => ?_, fun hecho hdone => ?_⟩
  · simp [gateOpens, hecho, emit]
  · simp [gateOpens, hecho, hget, emit]
  · simp [gateOpens, hecho, hdone, completeTransaction, closeIfRequested, tClose, report]
    split <;> simp_all [emit]

/-- R145: any difference fails the transaction. -/
theorem echoReturns_of_ne (he : readBytes s.txbuf.length k s ≠ s.txbuf) : echoReturns k s =
    raiseFailure .localEchoMismatch (closeIfRequested (tRead s.txbuf.length k s)) := by
  simp [echoReturns, he]

theorem echoReturns_of_get (he : readBytes s.txbuf.length k s = s.txbuf) (hc : s.mcmd.cmd = .get) :
    echoReturns k s = { tRead s.txbuf.length k s with mphase := .read } := by
  simp [echoReturns, he, hc]

theorem echoReturns_of_done (he : readBytes s.txbuf.length k s = s.txbuf) (hc : s.mcmd.cmd ≠ .get) :
    echoReturns k s = completeTransaction (tRead s.txbuf.length k s) := by
  simp [echoReturns, he, hc]

theorem sameIdentity_iff {t : State} : SameIdentity s t ↔ t.params = s.params ∧ t.devtype = s.devtype ∧
    t.srcaddr = s.srcaddr ∧ t.slvaddr = s.slvaddr :=
  ⟨fun ⟨h1, h2, h3, h4⟩ => ⟨h1, h2, h3, h4⟩, fun ⟨h1, h2, h3, h4⟩ => ⟨h1, h2, h3, h4⟩⟩

theorem sameSlave_iff {t : State} : SameSlave s t ↔ t.height = s.height ∧ t.angle = s.angle ∧ t.rphase = s.rphase ∧
    t.rxbuf = s.rxbuf ∧ t.rstat = s.rstat :=
  ⟨fun ⟨h1, h2, h3, h4, h5⟩ => ⟨h1, h2, h3, h4, h5⟩, fun ⟨h1, h2, h3, h4, h5⟩ => ⟨h1, h2, h3, h4, h5⟩⟩

theorem sameOutside_iff {t : State} : SameOutside s t ↔ t.env.now = s.env.now ∧ t.env.baud = s.env.baud ∧
    t.env.inputs = s.env.inputs :=
  ⟨fun ⟨h1, h2, h3⟩ => ⟨h1, h2, h3⟩, fun ⟨h1, h2, h3⟩ => ⟨h1, h2, h3⟩⟩

/-- Settles O25: the echo read differs from `TXBUF`, or it is for a GET, or for another command. -/
theorem echoReadComparesRequest : Obligations.EchoReadComparesRequest := by
  intro k s hr hm
  rw [turn_of_echo hr hm]
  by_cases he : s.env.inbound.take (min k s.txbuf.length) = s.txbuf
  · by_cases hc : s.mcmd.cmd = .get
    · refine ⟨_, congrArg _ (echoReturns_of_get he hc), ?_⟩
      simp [he, hc, sameIdentity_iff, sameSlave_iff, sameOutside_iff, outbound, readBytes, TEvent.written]
    · refine ⟨_, congrArg _ (echoReturns_of_done he hc), ?_⟩
      simp [he, hc, sameIdentity_iff, sameSlave_iff, sameOutside_iff, outbound, readBytes, TEvent.written]
  · refine ⟨_, congrArg _ (echoReturns_of_ne he), ?_⟩
    simp [he, sameIdentity_iff, sameSlave_iff, sameOutside_iff, outbound, readBytes, TEvent.written, failureCode]

/-! ### The response -/

/-- R146: no byte. -/
theorem readReturns_of_nil (h : readBytes s.params.respWindow k s = []) : readReturns k s =
    .next (raiseFailure .noResponse (closeIfRequested (tRead s.params.respWindow k s))) := by
  simp [readReturns, h]

/-- R148: bytes that are no reply; the time is recorded all the same (R147). -/
theorem handleResponse_of_error {raw : List Byte} {c : SubCause}
    (hd : decodeFrame s.params.delims .rep raw = .error c) :
    handleResponse raw s = .next (raiseFailure (.malformedFrame c) (closeIfRequested (recordRead s))) := by
  simp [handleResponse, hd]

theorem readReturns_of_error {c : SubCause} (hne : readBytes s.params.respWindow k s ≠ [])
    (hd : decodeFrame s.params.delims .rep (readBytes s.params.respWindow k s) = .error c) :
    readReturns k s = .next (raiseFailure (.malformedFrame c)
      (closeIfRequested (recordRead (tRead s.params.respWindow k s)))) := by
  simp only [readReturns, if_neg hne]
  exact handleResponse_of_error (s := tRead s.params.respWindow k s) (by simpa using hd)

/-- R148: a reply ends the GET with its height and angle. -/
theorem exec_getReply_of_read (hr : s.params.role = .master) (hm : s.mphase = .read) (da cw sax sa h a : Byte) :
    exec (.getReply da cw sax sa h a) s = .next (completeGet h a (recordRead s)) := by
  change execGetReply da cw sax sa h a s = _
  simp only [execGetReply, hr, hm, if_pos]

/-- The response read of a reply, whole: the GET is complete (R146 to R148). -/
theorem turn_of_reply {bc da cw sax sa h a : Byte} (hr : s.params.role = .master) (hm : s.mphase = .read)
    (hd : decodeFrame s.params.delims .rep (readBytes s.params.respWindow k s) = .ok (.reply bc da cw sax sa h a)) :
    turn k s = .next (completeGet h a (recordRead (tRead s.params.respWindow k s))) := by
  rw [turn_of_read hr hm, readReturns_of_reply hd]
  exact exec_getReply_of_read (s := tRead s.params.respWindow k s) (by simpa using hr) (by simpa using hm) da cw sax sa h a

/-- Settles O26: the response read brings nothing, bytes that DECODE rejects, or a reply. -/
theorem responseReadEndsGet : Obligations.ResponseReadEndsGet := by
  intro k s hr hm
  by_cases hne : readBytes s.params.respWindow k s = []
  · refine ⟨_, (turn_of_read hr hm k).trans (readReturns_of_nil hne), ?_⟩
    simp only [readBytes] at hne
    simp [hne, sameIdentity_iff, sameSlave_iff, sameOutside_iff, outbound, readBytes, TEvent.written, failureCode]
  · cases hd : decodeFrame s.params.delims .rep (readBytes s.params.respWindow k s) with
    | error c =>
      refine ⟨_, (turn_of_read hr hm k).trans (readReturns_of_error hne hd), ?_⟩
      simp only [readBytes] at hne hd
      simp [hne, hd, sameIdentity_iff, sameSlave_iff, sameOutside_iff, outbound, readBytes, TEvent.written, failureCode]
    | ok r =>
      obtain ⟨bc, da, cw, sax, sa, h, a, rfl⟩ := exists_reply_of_dir (dir_of_decodeFrame hd)
      refine ⟨_, turn_of_reply hr hm hd, ?_⟩
      simp only [readBytes] at hne hd
      simp [hne, hd, sameIdentity_iff, sameSlave_iff, sameOutside_iff, outbound, readBytes, TEvent.written]

/-- Settles O27: `exec_getReply_of_read`, with the close of the port by the bit of `CFG`. -/
theorem replyFrameCompletesGet : Obligations.ReplyFrameCompletesGet := by
  intro da cw sax sa h a s hr hm
  rw [exec_getReply_of_read hr hm, completeGet, closeIfRequested]
  cases hc : s.cfg.closeAfterCall <;> simp [hc, recordRead, tClose, emit, report]

end Phases

/-! ### A frame at the other station -/

section OtherStation

variable {s : State} {i : Instr}

/-- R110, R212: a slave that has a reply in hand rejects it. -/
theorem exec_getReply_of_slave (hr : s.params.role = .slave) (da cw sax sa h a : Byte) :
    exec (.getReply da cw sax sa h a) s = .next { s with rstat := { s.rstat with code := .malformedFrame } } := by
  change execGetReply da cw sax sa h a s = _
  simp only [execGetReply, hr]

/-- A request at a master is the wire frame of the request. -/
theorem exec_request_at_master {wire : List Byte} (hr : s.params.role = .master) (hd : i.dir? = some .req)
    (he : encode s.params.delims i = some wire) : exec i s = requestAtMaster wire s := by
  cases i with
  | stopRequest das dae cw sax sa =>
    obtain rfl := Option.some.inj he
    change execStopRequest das dae cw sax sa s = _
    simp only [execStopRequest, hr]
  | setRequest das dae cw sax sa h a =>
    obtain rfl := Option.some.inj he
    change execSetRequest das dae cw sax sa h a s = _
    simp only [execSetRequest, hr]
  | getRequest das dae cw sax sa =>
    obtain rfl := Option.some.inj he
    change execGetRequest das dae cw sax sa s = _
    simp only [execGetRequest, hr]
  | getReply => cases hd
  | _ => cases hd

/-- No rule acts on a frame at a master outside `M_READ` (log entry 11). -/
theorem exec_frame_outside_read (hr : s.params.role = .master) (hm : s.mphase ≠ .read) (hd : i.dir? ≠ none) :
    exec i s = .next s := by
  obtain ⟨dir, hdir⟩ := Option.ne_none_iff_exists'.1 hd
  cases dir with
  | req =>
    obtain ⟨wire, he⟩ := Option.ne_none_iff_exists'.1 (mt encode_eq_none.1 hd : encode s.params.delims i ≠ none)
    rw [exec_request_at_master hr hdir he, requestAtMaster, if_neg hm]
  | rep =>
    obtain ⟨r, rfl, hrep, -⟩ := exists_record_of_dir? hdir 0
    obtain ⟨bc, da, cw, sax, sa, h, a, rfl⟩ := exists_reply_of_dir hrep
    change execGetReply da cw sax sa h a s = _
    simp only [execGetReply, hr, if_neg hm]

/-- A request that a master reads as its response is rejected with COMMAND or TERMINATOR, and the GET fails (R110, R148,
R236). -/
theorem exec_request_in_read (hr : s.params.role = .master) (hm : s.mphase = .read) (hd : i.dir? = some .req)
    (hwf : s.params.delims.wf) : ∃ c, (c = .command ∨ c = .terminator) ∧
      exec i s = .next (raiseFailure (.malformedFrame c) (closeIfRequested (recordRead s))) := by
  obtain ⟨wire, he⟩ := Option.ne_none_iff_exists'.1
    (mt encode_eq_none.1 (by simp [hd]) : encode s.params.delims i ≠ none)
  have hreject : ∃ c, (c = .command ∨ c = .terminator) ∧ decodeFrame s.params.delims .rep wire = .error c := by
    have := (crossDirectionNeverDecodes s.params.delims i wire [] hwf he).1 hd
    rw [List.append_nil] at this
    obtain h | h := this
    · exact ⟨_, .inl rfl, h⟩
    · exact ⟨_, .inr rfl, h⟩
  obtain ⟨c, hc, hreject⟩ := hreject
  refine ⟨c, hc, ?_⟩
  rw [exec_request_at_master hr hd he, requestAtMaster, if_pos hm, handleResponse_of_error hreject]

/-- Settles O28: the slave's rejection, the master outside `M_READ`, and the master whose response is a request. -/
theorem frameAtTheOtherStation : Obligations.FrameAtTheOtherStation := by
  refine ⟨fun da cw sax sa h a s hr => exec_getReply_of_slave hr da cw sax sa h a,
    fun i s hd hr hm => exec_frame_outside_read hr hm hd, ?inRead⟩
  case inRead =>
    intro i s hd hr hm hwf
    obtain ⟨c, hc, hrun⟩ := exec_request_in_read hr hm hd hwf
    refine ⟨_, c, hrun, hc, ?_⟩
    simp [sameIdentity_iff, sameSlave_iff, sameOutside_iff, outbound, TEvent.written, failureCode]

end OtherStation

end Sys2Proof.Machine

/-! Whole conversations (R154, R184): a SET and then a GET at a slave, and a GET of a master from its call to its reply. -/

namespace Sys2Proof.Machine

open Config (Delims)

/-! ### A reply at the master -/

/-- A reply frame has at most 18 bytes (R83). -/
theorem encodeReply_length_le (d : Delims) (da dt sa h a : Byte) : (encodeReply d da dt sa h a).length ≤ 18 :=
  ((wireLengthRanges d da 0 dt sa h a _).2.2 rfl).2

theorem decodeFrame_encodeReply (d : Delims) (da dt sa h a : Byte) :
    ∃ bc, decodeFrame d .rep (encodeReply d da dt sa h a) = .ok (.reply bc da 0x60 dt sa h a) := by
  obtain ⟨r, hr, hi, -⟩ := decodeFrame_encode rfl (encode_getReply d da dt sa h a) []
  obtain ⟨bc, _, _, _, _, _, _, rfl⟩ := exists_reply_of_dir (dir_of_decodeFrame hr)
  cases hi
  exact ⟨bc, by simpa using hr⟩

/-- A master in `M_READ` that reads the whole of a reply, and nothing but it, ends its GET with it (R146 to R148). -/
theorem turn_of_whole_reply {s : State} {k : Nat} {da dt sa h a : Byte} (hr : s.params.role = .master)
    (hm : s.mphase = .read) (hwindow : 18 ≤ s.params.respWindow)
    (hin : s.env.inbound = encodeReply s.params.delims da dt sa h a)
    (hk : (encodeReply s.params.delims da dt sa h a).length ≤ k) :
    turn k s = .next (completeGet h a (recordRead (tRead s.params.respWindow k s))) := by
  obtain ⟨bc, hd⟩ := decodeFrame_encodeReply s.params.delims da dt sa h a
  have hlen := encodeReply_length_le s.params.delims da dt sa h a
  have hread : readBytes s.params.respWindow k s = encodeReply s.params.delims da dt sa h a := by
    rw [readBytes, hin, List.take_of_length_le (by omega)]
  exact turn_of_reply hr hm (hread ▸ hd)

/-! ### SET, then GET -/

/-- A Responder that has acted on a request listens as before (R175). -/
theorem RequestDone.listening {c : Cmd} {s t : State} (h : RequestDone c s t) (hs : Listening s) : Listening t where
  role := by rw [h.identity.params, hs.role]
  delims := by rw [h.identity.params, hs.delims]
  room := by rw [h.identity.params]; exact hs.room
  rphase := by rw [h.rphase, hs.rphase]
  rxbuf := by rw [h.rxbuf, hs.rxbuf]

/-- No control word and no tag is ETX, so a request holds an ETX field exactly when a free field or an argument is one. -/
theorem etx_mem_requestFields {c : Command} {das dae dt sa : Byte} :
    Delims.ascii.etx ∈ requestFields c das dae dt sa ↔ Delims.ascii.etx ∈ [das, dae, dt, sa] ++ c.args := by
  have hcw : Delims.ascii.etx ≠ controlWord c.cmd := by generalize c.cmd = cmd; cases cmd <;> decide
  have htag : Delims.ascii.etx ≠ tagOf c.cmd := by generalize c.cmd = cmd; cases cmd <;> decide
  simp [requestFields, hcw, htag]

/-- The slave after a SET that covers it (R177). -/
abbrev stored (h a : Byte) (s : State) : State :=
  { recordRequest .set s with height := updated s.height h, angle := updated s.angle a }

theorem requestDone_stored (h a : Byte) (s : State) : RequestDone .set s (stored h a s) :=
  ⟨rfl, rfl, rfl, ⟨rfl, rfl, rfl, rfl⟩, ⟨rfl, rfl, rfl, rfl, rfl, rfl, rfl⟩, rfl⟩

/-- The slave after a GET of its address: the reply is written and the command recorded (R178). -/
abbrev answered (sa : Byte) (s : State) : State :=
  emit (.wrote s.env.now (encodeReply s.params.delims sa s.devtype s.srcaddr s.height s.angle)) (recordRequest .get s)

/-- The two requests delivered one after the other. -/
theorem Listening.hearAll_set_get {s : State} (hs : Listening s) {das dae dt sa h a : Byte} (hlow : das ≤ s.slvaddr)
    (hhigh : s.slvaddr ≤ dae) (hetx : Delims.ascii.etx ∉ [das, dae, dt, sa, h, a, s.slvaddr]) :
    hearAll (frameOf Delims.ascii (requestFields (.set h a) das dae dt sa) ++
      frameOf Delims.ascii (requestFields .get s.slvaddr s.slvaddr dt sa)) s = .next (answered sa (stored h a s)) := by
  have hset : hearAll (frameOf Delims.ascii (requestFields (.set h a) das dae dt sa)) s = .next (stored h a s) := by
    rw [hs.hearAll_request (BitVec.le_trans hlow hhigh) (by simp_all [etx_mem_requestFields, Command.args])]
    exact exec_setRequest_of_covers hs.role (covers_iff.2 ⟨hlow, hhigh⟩) _ dt sa h a
  have hs' : Listening (stored h a s) := (requestDone_stored h a s).listening hs
  rw [hearAll_append hset, hs'.hearAll_request (BitVec.le_refl _) (by simp_all [etx_mem_requestFields, Command.args])]
  exact exec_getRequest_of_addressesOnly hs'.role (addressesOnly_iff.2 ⟨rfl, rfl⟩) _ dt sa

/-- Settles O46: both requests are acted on as they are delivered; the SET stores at this slave, the GET is answered with
what it stored, and the master that reads the answer completes with it. -/
theorem setThenGetReturnsValues : Obligations.SetThenGetReturnsValues := by
  intro s das dae dt sa h a wireSet wireGet hr hdelims hroom hp hbuf hlow hhigh hset hget hetx
  obtain ⟨-, rfl⟩ := le_of_encodeRequest_ok hset
  obtain ⟨-, rfl⟩ := le_of_encodeRequest_ok hget
  have hheard := Listening.hearAll_set_get ⟨hr, hdelims, hroom, hp, hbuf⟩ hlow hhigh (hdelims ▸ hetx)
  rw [← hdelims] at hheard
  obtain ⟨bc, hd⟩ := decodeFrame_encodeReply s.params.delims sa s.devtype s.srcaddr (updated s.height h) (updated s.angle a)
  refine ⟨_, encodeReply s.params.delims sa s.devtype s.srcaddr (updated s.height h) (updated s.angle a), bc, hheard,
    ?written, hd, ?master⟩
  case written =>
    have htrace : (answered sa (stored h a s)).env.trace = s.env.trace ++ [.wrote s.env.now
        (encodeReply s.params.delims sa s.devtype s.srcaddr (updated s.height h) (updated s.angle a))] := by simp
    simpa [TEvent.written] using outbound_of_trace htrace
  case master =>
    intro m k hmr hmp hmd hwindow hin hk
    rw [← hmd] at hin hk
    refine ⟨_, turn_of_whole_reply hmr hmp hwindow hin hk, ?_⟩
    simp only [completeGet_fields, recordRead_fields, tRead_fields, true_and]
    exact ⟨rfl, rfl⟩

/-! ### A GET from its call to its reply -/

theorem run_succ {s t : State} (h : step s = .next t) (n : Nat) :
    Sys2Proof.core.run (n + 1) s = Sys2Proof.core.run n t := by
  have h' : Sys2Proof.core.step s = .next t := h
  simp only [Host.Core.run, h']

/-- An open or a close of the port, if one is asked for, writes nothing (R52, R55). -/
theorem flatMap_written_ite {e : TEvent} (he : e.written = []) (b : Bool) :
    (if b = true then [e] else []).flatMap TEvent.written = [] := by
  cases b <;> simp [he]

/-- The gate of a GET without local echo opens on the read of its reply (R144, R151 row 5). -/
theorem gateOpens_of_get {s : State} (he : s.cfg.localEcho = false) (hc : s.mcmd.cmd = .get) :
    gateOpens s = { emit (.wrote s.env.now s.txbuf) s with mphase := .read } := by
  simp [gateOpens, he, hc]

/-- A deadline that GATE computed lies no later than a time that neither entry nor the silent period passes (R132). -/
theorem GateEntered.gdl_le {cmd : Cmd} {das dae : Byte} {frame : List Byte} {s t : State} {t1 : Time}
    (h : GateEntered cmd das dae frame s t) (hnow : s.env.now ≤ t1)
    (hsilent : ∀ l, s.lrt = some l → l + 77 / (2 * (s.env.baud : Rat)) ≤ t1) : t.gdl ≤ t1 := by
  rw [h.gdl]
  cases hl : s.lrt with
  | none => exact hnow
  | some l => exact max_le hnow (hsilent l hl)

/-- A master in phase `p` of the GET that it accepted in `s`, without local echo: the request is `frame`, the inputs
still to come are `inputs`, `inbound` is unread, and `out` has been written since `s`. -/
structure GetAt (s : State) (frame : List Byte) (p : MPhase) (inputs : List Input) (inbound out : List Byte)
    (t : State) : Prop where
  params : t.params = s.params
  role : t.params.role = .master
  localEcho : t.cfg.localEcho = false
  mphase : t.mphase = p
  cmd : t.mcmd.cmd = .get
  txbuf : t.txbuf = frame
  inputs : t.env.inputs = inputs
  inbound : t.env.inbound = inbound
  written : outbound t = outbound s ++ out
  reports : t.env.reports = s.env.reports
  gateCall : t.env.gateCall = false

section GetAt

variable {s t : State} {frame inbound out : List Byte} {p : MPhase} {rest : List Input}

/-- The call of GET enters the gate (R154, R143). -/
theorem getAt_of_call {addr : Byte} (hr : s.params.role = .master) (hm : s.mphase = .idle)
    (hg : s.env.gateCall = false) (hecho : s.cfg.localEcho = false) (hb : 0 < s.env.baud)
    (hinputs : s.env.inputs = .op (.get addr) :: rest) :
    ∃ u, step s = .next u ∧
      GetAt s (frameOf s.params.delims [addr, addr, 0x60, s.devtype, s.srcaddr, 0x55]) .gate rest s.env.inbound [] u ∧
      u.env.now = s.env.now ∧ ∀ t1, s.env.now ≤ t1 →
        (∀ l, s.lrt = some l → l + 77 / (2 * (s.env.baud : Rat)) ≤ t1) → u.gdl ≤ t1 := by
  obtain ⟨u, hu, h⟩ := (Asks.get (s := dropInput rest s) addr).enters hr hm (BitVec.le_refl addr) hb
  refine ⟨u, (step_of_inputs hinputs).trans ((present_of_operation rfl _).trans hu), ?_, h.outside.now,
    fun t1 hnow hsilent => h.gdl_le hnow hsilent⟩
  exact {
    params := h.identity.params
    role := by rw [h.identity.params]; exact hr
    localEcho := by rw [h.cfg]; exact hecho
    mphase := h.mphase
    cmd := h.mcmd.1
    txbuf := h.txbuf
    inputs := h.outside.inputs
    inbound := h.inbound
    written := by
      have htrace := h.trace
      rw [List.append_assoc] at htrace
      simpa [flatMap_written_ite (e := .opened) rfl, TEvent.written, outbound] using outbound_of_trace htrace
    reports := h.reports
    gateCall := by rw [h.gateCall]; exact hg }

/-- The clock passes (R130). -/
theorem GetAt.step_clock {t1 : Time} (h : GetAt s frame p (.clock t1 :: rest) inbound out t) (hnow : t.env.now ≤ t1) :
    ∃ u, step t = .next u ∧ GetAt s frame p rest inbound out u ∧ u.env.now = t1 ∧ u.gdl = t.gdl := by
  obtain ⟨h1, h2, h3, h4, h5, h6, h7, h8, h9, h10, h11⟩ := h
  exact ⟨_, step_of_inputs h7, ⟨h1, h2, h3, h4, h5, h6, rfl, h8, h9, h10, h11⟩, if_neg (not_lt.2 hnow), rfl⟩

/-- The gate opens on the read of the reply (R144, R151 row 5). -/
theorem GetAt.step_write {k : Nat} (h : GetAt s frame .gate (.turn k :: rest) inbound out t)
    (hopen : t.gdl ≤ t.env.now) :
    ∃ u, step t = .next u ∧ GetAt s frame .read rest inbound (out ++ frame) u ∧ u.env.now = t.env.now := by
  obtain ⟨h1, h2, h3, h4, h5, h6, h7, h8, h9, h10, h11⟩ := h
  have hturn := turn_of_open (s := dropInput rest t) (k := k) h2 h4 hopen h11
  rw [gateOpens_of_get (s := dropInput rest t) h3 h5] at hturn
  refine ⟨_, (step_of_inputs h7).trans hturn, ⟨h1, h2, h3, rfl, h5, h6, rfl, h8, ?written, h10, h11⟩, rfl⟩
  case written =>
    rw [outbound_of_trace (s := t) (new := [.wrote t.env.now t.txbuf]) (by simp), h9, h6]
    simp [TEvent.written]

/-- The line delivers bytes (R51). -/
theorem GetAt.step_arrive {bs : List Byte} (h : GetAt s frame p (.arrive bs :: rest) inbound out t) :
    ∃ u, step t = .next u ∧ GetAt s frame p rest (inbound ++ bs) out u ∧ u.env.now = t.env.now := by
  obtain ⟨h1, h2, h3, h4, h5, h6, h7, h8, h9, h10, h11⟩ := h
  exact ⟨_, step_of_inputs h7, ⟨h1, h2, h3, h4, h5, h6, rfl, congrArg (· ++ bs) h8, h9, h10, h11⟩, rfl⟩

/-- The read of the whole reply completes the GET (R146 to R148). -/
theorem GetAt.step_read {n : Nat} {da dt sa hh a : Byte}
    (h : GetAt s frame .read (.turn n :: rest) (encodeReply s.params.delims da dt sa hh a) out t)
    (hwindow : 18 ≤ s.params.respWindow) (hn : (encodeReply s.params.delims da dt sa hh a).length ≤ n) :
    ∃ u, step t = .next u ∧ u.mphase = .idle ∧ u.mres = { code := .ok, height := hh, angle := a } ∧
      u.lrt = some t.env.now ∧ u.env.inbound = [] ∧ outbound u = outbound s ++ out ∧
      u.env.reports = s.env.reports ++ [.completed (some (hh, a))] := by
  obtain ⟨h1, h2, h3, h4, h5, h6, h7, h8, h9, h10, h11⟩ := h
  rw [← h1] at h8 hwindow hn
  have hturn := turn_of_whole_reply (s := dropInput rest t) h2 h4 hwindow h8 hn
  have hlen := encodeReply_length_le t.params.delims da dt sa hh a
  refine ⟨_, (step_of_inputs h7).trans hturn, by simp, by simp, by simp, ?inbound, ?outbound, by simp [h10]⟩
  case inbound =>
    simp [h8]
    omega
  case outbound => simpa [flatMap_written_ite (e := .closed) rfl, outbound, TEvent.written] using h9

end GetAt

/-- Settles O34: the call enters the gate; the clock passes its deadline; the open gate writes the request; the reply
arrives; the read of it completes the GET. -/
theorem getTransactionReturnsReply : Obligations.GetTransactionReturnsReply := by
  intro s addr da dt sa h a t1 k n hr hm hg hecho hb hwindow hin hnow hsilent hn hinputs
  obtain ⟨u, hcall, hu, hunow, hgdl⟩ := getAt_of_call hr hm hg hecho hb hinputs
  obtain ⟨v, hclock, hv, hvnow, hvgdl⟩ := hu.step_clock (hunow ▸ hnow)
  obtain ⟨w, hwrite, hw, hwnow⟩ := hv.step_write (by rw [hvgdl, hvnow]; exact hgdl t1 hnow hsilent)
  obtain ⟨x, harrive, hx, hxnow⟩ := hw.step_arrive
  rw [hin, List.nil_append] at hx
  obtain ⟨y, hread, hidle, hmres, hlrt, hinbound, hout, htold⟩ := hx.step_read hwindow hn
  have hrun : Sys2Proof.core.run 5 s = .next y := by
    rw [run_succ hcall, run_succ hclock, run_succ hwrite, run_succ harrive, run_succ hread]
    rfl
  exact ⟨y, hrun, hidle, hmres, by rw [hlrt, hxnow, hwnow, hvnow], hinbound, hout, htold⟩

end Sys2Proof.Machine

/-! What a step is made of, in four cases, and the two roles kept apart (R210). -/

namespace Sys2Proof.Machine

/-! ### The shape of a step -/

/-- `s` as its step acts on it: the inputs still to come and the count of free values have moved on. -/
abbrev begun (rest : List Input) (draws : Nat) (s : State) : State :=
  { s with env := { s.env with inputs := rest, draws := draws } }

/-- What the block does in the step at `s`, from `u` to `t`: its own turn, or the operation that is presented. -/
inductive Acts (s u t : State) : Prop where
  | turn (k : Nat) : ownTurn s → TurnEffect k u t → Acts s u t
  | operation (i : Instr) : presents s i → i.dir? = none → Effect i u t → Acts s u t

/-- The step at `s`: the block acts, it acts and a transport call fails, only the surroundings change and the host may
be refused a write of `CFG`, or that write is made. -/
inductive StepShape (s : State) : State → Prop where
  | acts (rest d t) : Acts s (begun rest d s) t → StepShape s t
  | fails (rest d n t) : Acts s (begun rest d s) t → StepShape s (failAtCall n (begun rest d s) t)
  | outside (e : Env) : e.trace = s.env.trace → e.gateCall = s.env.gateCall → s.env.now ≤ e.now →
      e.reports = s.env.reports ∨ e.reports = s.env.reports ++ [.refused .busy] → StepShape s { s with env := e }
  | cfgWritten (v rest) : s.mphase = .idle → StepShape s (report .ok { dropInput rest s with cfg := cfgOfBits v })

theorem setClock_now_ge (c : Time) (s : State) : s.env.now ≤ (setClock c s).env.now := by
  simp only [setClock]
  split
  · exact le_refl _
  · exact not_lt.1 ‹_›

theorem StepEffect.shape {s t : State} (h : StepEffect s t) : StepShape s t := by
  cases h with
  | own _ k hi h => exact .acts s.env.inputs (s.env.draws + 1) t (.turn k (.inl hi) h)
  | turned _ k rest hi h => exact .acts rest s.env.draws t (.turn k (.inr ⟨k, rest, .inl hi⟩) h)
  | turnFailed t n k rest hi h =>
    exact .fails rest s.env.draws n t (.turn k (.inr ⟨k, rest, .inr ⟨n, hi⟩⟩) h)
  | ran _ i rest hi hd h => exact .acts rest s.env.draws t (.operation i ⟨rest, .inl hi⟩ hd h)
  | runFailed t n i rest hi hd h =>
    exact .fails rest s.env.draws n t (.operation i ⟨rest, .inr ⟨n, hi⟩⟩ hd h)
  | cfgWritten v rest _ hm => exact .cfgWritten v rest hm
  | cfgRefused => exact .outside _ rfl rfl (le_refl _) (.inr rfl)
  | clocked c rest => exact .outside _ rfl rfl (setClock_now_ge c (dropInput rest s)) (.inl rfl)
  | framed | arrived | baudSet => exact .outside _ rfl rfl (le_refl _) (.inl rfl)

theorem step_shape {s t : State} (h : step s = .next t) : StepShape s t :=
  (step_effect h).shape

/-! ### The roles kept apart -/

theorem SameSlave.refl (s : State) : SameSlave s s := ⟨rfl, rfl, rfl, rfl, rfl⟩

theorem SameSlave.trans {s t u : State} (h : SameSlave s t) (h' : SameSlave t u) : SameSlave s u :=
  ⟨h'.height.trans h.height, h'.angle.trans h.angle, h'.rphase.trans h.rphase, h'.rxbuf.trans h.rxbuf,
    h'.rstat.trans h.rstat⟩

/-- A slave keeps the master's registers, a master those of the slave (R210). -/
structure Apart (s t : State) : Prop where
  slave : s.params.role = .slave → SameMaster s t
  master : s.params.role = .master → SameSlave s t

theorem Apart.of_slave {s t : State} (hr : s.params.role = .slave) (h : SameMaster s t) : Apart s t :=
  ⟨fun _ => h, fun hm => by simp [hr] at hm⟩

theorem Apart.of_master {s t : State} (hr : s.params.role = .master) (h : SameSlave s t) : Apart s t :=
  ⟨fun hs => by simp [hr] at hs, fun _ => h⟩

theorem Apart.refl (s : State) : Apart s s := ⟨fun _ => .refl s, fun _ => .refl s⟩

theorem Apart.trans {s t u : State} (h : Apart s t) (hp : t.params = s.params) (h' : Apart t u) : Apart s u where
  slave hr := (h.slave hr).trans (h'.slave (hp ▸ hr))
  master hr := (h.master hr).trans (h'.master (hp ▸ hr))

/-- An operation of one role writes no register of the other, but reset. -/
theorem Effect.apart {i : Instr} {s t : State} (h : Effect i s t) (hi : i ≠ .reset) : Apart s t := by
  cases h with
  | nothing => exact .refl s
  | told | addressSet => exact ⟨fun _ => by constructor <;> simp, fun _ => by constructor <;> simp⟩
  | rangeFailed _ _ _ _ _ _ _ _ hr | baudFailed _ _ _ _ _ _ _ _ hr | gateEntered _ _ _ _ _ _ _ _ hr
  | gateFailed _ hr | gateCalled _ hr | recorded _ hr | replied _ _ _ _ _ hr | responseFailed _ _ _ _ hr =>
    exact .of_master hr (by constructor <;> simp)
  | replyRejected _ _ _ hr | frameEnded _ _ hr | etxReceived _ hr | overflowed _ _ hr | accumulated _ _ hr
  | rejected _ hr =>
    exact .of_slave hr (by constructor <;> rfl)
  | acted _ _ _ _ _ hr hq | stored _ _ _ _ _ _ _ _ _ _ hr hq | answered _ _ _ _ _ _ hr hq =>
    exact .of_slave hr (hq.masterKept.registers.trans (by constructor <;> simp))
  | resetTo => exact absurd rfl hi

/-- What the block does by itself writes the registers of its own role. -/
theorem TurnEffect.apart {k : Nat} {s t : State} (h : TurnEffect k s t) : Apart s t := by
  cases h with
  | waits => exact .refl s
  | responds _ _ _ h => exact h.apart nofun
  | readsNothing hr => exact .of_slave hr (by constructor <;> simp)
  | readsByte _ b hr _ h =>
    have hread : Apart s (tRead 1 k s) := .of_slave hr (by constructor <;> simp)
    exact hread.trans (by simp) (h.apart nofun)
  | releases hr => exact .of_master hr (by constructor <;> rfl)
  | writesForEcho hr | writesForReply hr | writesLast hr | echoFails hr | echoForReply hr | echoLast hr
  | noResponse hr | badResponse _ hr | replies _ _ hr => exact .of_master hr (by constructor <;> simp)

/-- A failing call of a master ends its own transaction and no more (U6). -/
theorem Apart.failAtCall {s t : State} (h : Apart s t) (n : Nat) : Apart s (failAtCall n s t) := by
  obtain ⟨-, e⟩ | ⟨-, hr, e⟩ | ⟨-, hr, -, e⟩ | ⟨-, hr, -, e⟩ := failAtCall_cases n s t <;> rw [e]
  · exact h
  · obtain ⟨h1, h2, h3, h4, h5⟩ := h.master hr
    exact .of_master hr (by constructor <;> simpa)
  · obtain ⟨h1, h2, h3, h4, h5, h6, h7⟩ := h.slave hr
    exact .of_slave hr ⟨h1, h2, h3, h4, h5, h6, h7⟩
  · exact .of_slave hr ⟨rfl, rfl, rfl, rfl, rfl, rfl, rfl⟩

theorem apart_begun (rest : List Input) (d : Nat) (s : State) : Apart s (begun rest d s) :=
  ⟨fun _ => ⟨rfl, rfl, rfl, rfl, rfl, rfl, rfl⟩, fun _ => ⟨rfl, rfl, rfl, rfl, rfl⟩⟩

theorem Acts.apart {s u t : State} (h : Acts s u t) (hreset : ¬ resets s) : Apart u t := by
  cases h with
  | turn k _ h => exact h.apart
  | operation i hi _ h => exact h.apart (by rintro rfl; exact hreset hi)

/-- Settles O57: what the block does keeps the roles apart, a failing call too, and `CFG` is the only register that the
host writes otherwise. -/
theorem rolesKeepApart : Obligations.RolesKeepApart := by
  intro s t hstep hreset
  have hresult {u : State} (h : Apart s u) : (s.params.role = .slave → u.lrt = s.lrt ∧ u.mphase = s.mphase ∧
      u.mcmd = s.mcmd ∧ u.gdl = s.gdl ∧ u.txbuf = s.txbuf ∧ u.mres = s.mres) ∧
      (s.params.role = .master → SameSlave s u) := by
    refine ⟨fun hr => ?_, h.master⟩
    obtain ⟨-, hlrt, hmphase, hmcmd, hgdl, htxbuf, hmres⟩ := h.slave hr
    exact ⟨hlrt, hmphase, hmcmd, hgdl, htxbuf, hmres⟩
  cases step_shape hstep with
  | acts rest d _ h => exact hresult ((apart_begun rest d s).trans rfl (h.apart hreset))
  | fails rest d n u h => exact hresult ((apart_begun rest d s).trans rfl ((h.apart hreset).failAtCall n))
  | outside e => exact hresult ⟨fun _ => ⟨rfl, rfl, rfl, rfl, rfl, rfl, rfl⟩, fun _ => ⟨rfl, rfl, rfl, rfl, rfl⟩⟩
  | cfgWritten => exact ⟨fun _ => ⟨rfl, rfl, rfl, rfl, rfl, rfl⟩, fun _ => ⟨rfl, rfl, rfl, rfl, rfl⟩⟩

end Sys2Proof.Machine

/-! The transport calls of a step (R143 to R146, R171, R178, U6): which the block makes, in which role and phase. -/

namespace Sys2Proof.Machine

/-! ### The calls a step may make -/

/-- RESPOND has the request `q` in `RXBUF` (R175). -/
def HoldsRequest (s : State) (q : Instr) : Prop :=
  s.rphase = .ready ∧ ∃ r, decodeFrame s.params.delims .req s.rxbuf = .ok r ∧ r.toInstr = q

/-- An operation that acts on a request is RESPOND, on the one it holds; a frame is no operation (R88). -/
theorem Requested.holdsRequest {i q : Instr} {s u : State} (h : Requested i s q u) (hd : i.dir? = none) :
    i = .respond ∧ HoldsRequest s q ∧ u = takeFrame s := by
  cases h with
  | presented _ hwire => exact absurd hd hwire
  | responded r hi hp hdec hq => exact ⟨hi, ⟨hp, r, hdec, hq⟩, rfl⟩

/-- The transport calls that the rules allow in the state `s`; a reply only in a step that `responds`. -/
inductive Call (responds : Prop) (s : State) : TEvent → Prop where
  | opened : Call responds s .opened
  | closed : Call responds s .closed
  | baud (b : Int) : Call responds s (.baud b)
  | broken (sent : List Byte) : Call responds s (.broken sent)
  | request : s.params.role = .master → s.mphase = .gate → s.env.gateCall = false → s.gdl ≤ s.env.now →
      Call responds s (.wrote s.env.now s.txbuf)
  | reply (cw sax sa : Byte) : s.params.role = .slave → responds →
      HoldsRequest s (.getRequest s.slvaddr s.slvaddr cw sax sa) →
      Call responds s (.wrote s.env.now (encodeReply s.params.delims sa s.devtype s.srcaddr s.height s.angle))
  | byte (k : Nat) : s.params.role = .slave → s.rphase ≠ .ready → Call responds s (.read 1 (readBytes 1 k s))
  | echo (k : Nat) : s.params.role = .master → s.mphase = .echo →
      Call responds s (.read s.txbuf.length (readBytes s.txbuf.length k s))
  | response (k : Nat) : s.params.role = .master → s.mphase = .read →
      Call responds s (.read s.params.respWindow (readBytes s.params.respWindow k s))

theorem Call.imp {p q : Prop} (hpq : p → q) {s : State} {e : TEvent} (h : Call p s e) : Call q s e := by
  cases h with
  | opened => exact .opened
  | closed => exact .closed
  | baud b => exact .baud b
  | broken sent => exact .broken sent
  | request h1 h2 h3 h4 => exact .request h1 h2 h3 h4
  | reply cw sax sa h1 h2 h3 => exact .reply cw sax sa h1 (hpq h2) h3
  | byte k h1 h2 => exact .byte k h1 h2
  | echo k h1 h2 => exact .echo k h1 h2
  | response k h1 h2 => exact .response k h1 h2

/-- From `s` to `t` the block makes the calls `new`, all of them allowed, and what a read returned is consumed if no call
fails (R53, U6). -/
structure Calls (responds : Prop) (s t : State) (new : List TEvent) : Prop where
  trace : t.env.trace = s.env.trace ++ new
  each : ∀ e ∈ new, Call responds s e
  reads : ∀ n bs, .read n bs ∈ new → s.env.inbound = bs ++ t.env.inbound ∨ ∃ sent, .broken sent ∈ new

/-- Reading the baud rate, opening and closing the port: calls that neither write nor read (R52 to R55). -/
def TEvent.isPort : TEvent → Bool
  | .opened => true
  | .closed => true
  | .baud .. => true
  | .wrote .. => false
  | .read .. => false
  | .broken .. => false

section Calls

variable {p q : Prop} {s t : State} {new rest : List TEvent}

theorem Call.of_isPort {e : TEvent} (h : e.isPort = true) : Call p s e := by
  cases e with
  | opened => exact .opened
  | closed => exact .closed
  | baud b => exact .baud b
  | _ => cases h

theorem all_isPort_ite (b : Bool) {e : TEvent} (he : e.isPort = true) :
    (if b = true then [e] else []).all TEvent.isPort = true := by
  cases b <;> simp [he]

theorem Calls.none (h : t.env.trace = s.env.trace) : Calls p s t [] :=
  ⟨by simp [h], nofun, nofun⟩

theorem Calls.of_port (htrace : t.env.trace = s.env.trace ++ new) (hport : new.all TEvent.isPort = true) :
    Calls p s t new := by
  rw [List.all_eq_true] at hport
  exact ⟨htrace, fun e he => .of_isPort (hport e he), fun n bs hmem => by cases hport _ hmem⟩

theorem Calls.of_write {at_ : Time} {bs : List Byte} (htrace : t.env.trace = s.env.trace ++ .wrote at_ bs :: rest)
    (hfirst : Call p s (.wrote at_ bs)) (hport : rest.all TEvent.isPort = true) :
    Calls p s t (.wrote at_ bs :: rest) := by
  rw [List.all_eq_true] at hport
  refine ⟨htrace, fun e he => ?_, fun n bs hmem => ?_⟩
  · obtain rfl | he := List.mem_cons.1 he
    · exact hfirst
    · exact .of_isPort (hport e he)
  · obtain heq | hmem := List.mem_cons.1 hmem
    · cases heq
    · cases hport _ hmem

/-- A read takes the head of the inbound stream (R53). -/
theorem Calls.of_read {n k : Nat} (htrace : t.env.trace = s.env.trace ++ .read n (readBytes n k s) :: rest)
    (hfirst : Call p s (.read n (readBytes n k s))) (hport : rest.all TEvent.isPort = true)
    (hin : t.env.inbound = s.env.inbound.drop (min k n)) : Calls p s t (.read n (readBytes n k s) :: rest) := by
  rw [List.all_eq_true] at hport
  refine ⟨htrace, fun e he => ?_, fun m bs hmem => ?_⟩
  · obtain rfl | he := List.mem_cons.1 he
    · exact hfirst
    · exact .of_isPort (hport e he)
  · obtain heq | hmem := List.mem_cons.1 hmem
    · cases heq
      exact .inl (by rw [hin, readBytes_append])
    · cases hport _ hmem

theorem Calls.imp (hpq : p → q) (h : Calls p s t new) : Calls q s t new :=
  ⟨h.trace, fun e he => (h.each e he).imp hpq, h.reads⟩

/-- A failing call leaves the calls before it and itself (U6). -/
theorem Calls.failAtCall (h : Calls p s t new) (n : Nat) : ∃ new', Calls p s (failAtCall n s t) new' := by
  have hfailed {v : State} (hv : v.env.trace = (envAfterError n s t).trace) : ∃ new', Calls p s v new' := by
    refine ⟨new.take n ++ [.broken (Config.sentAfterError t.env.draws)], by simp [hv, callsOf_of_trace h.trace],
      fun e he => ?_, fun _ _ _ => .inr ⟨_, List.mem_append_right _ (List.mem_singleton.2 rfl)⟩⟩
    obtain he | he := List.mem_append.1 he
    · exact h.each e (List.mem_of_mem_take he)
    · rw [List.mem_singleton.1 he]
      exact .broken _
  obtain ⟨-, e⟩ | ⟨-, -, e⟩ | ⟨-, -, -, e⟩ | ⟨-, -, -, e⟩ := failAtCall_cases n s t <;> rw [e]
  · exact ⟨new, h⟩
  · exact hfailed rfl
  · exact hfailed rfl
  · exact hfailed rfl

end Calls

/-! ### The calls of an operation, a turn and a step -/

/-- An operation reads the baud rate, opens and closes the port, or answers a GET with a reply; it never reads. -/
theorem Effect.calls {i : Instr} {s t : State} (h : Effect i s t) (hd : i.dir? = none) :
    ∃ new, Calls (i = .respond) s t new := by
  have hopened := all_isPort_ite s.cfg.closeAfterCall (e := .opened) rfl
  have hclosed := all_isPort_ite s.cfg.closeAfterCall (e := .closed) rfl
  cases h with
  | baudFailed =>
    exact ⟨(if s.cfg.closeAfterCall then [.opened] else []) ++ [.baud s.env.baud] ++
      (if s.cfg.closeAfterCall then [.closed] else []), .of_port (by simp) (by simp [hopened, hclosed, TEvent.isPort])⟩
  | gateEntered =>
    exact ⟨(if s.cfg.closeAfterCall then [.opened] else []) ++ [.baud s.env.baud],
      .of_port (by simp) (by simp [hopened, TEvent.isPort])⟩
  | gateFailed | gateCalled => exact ⟨[.baud s.env.baud], .of_port (by simp) rfl⟩
  | replied _ _ _ _ hwire | responseFailed _ _ _ hwire | replyRejected _ _ hwire => exact absurd hd hwire
  | acted _ _ _ _ _ _ hq =>
    obtain ⟨-, -, rfl⟩ := hq.holdsRequest hd
    exact ⟨[], .none (by simp)⟩
  | stored _ _ _ _ _ _ _ _ _ _ _ hq =>
    obtain ⟨-, -, rfl⟩ := hq.holdsRequest hd
    exact ⟨[], .none (by simp)⟩
  | answered _ _ _ cw sax sa hr hq =>
    obtain ⟨hi, hholds, rfl⟩ := hq.holdsRequest hd
    exact ⟨_, .of_write (rest := []) (by simp) (.reply cw sax sa hr hi hholds) rfl⟩
  | nothing | told | rangeFailed | recorded | addressSet => exact ⟨[], .none (by simp)⟩
  | frameEnded | etxReceived | overflowed | accumulated | rejected | resetTo => exact ⟨[], .none rfl⟩

/-- RECEIVE leaves the line to the read that brought its byte (R171; log entry 23). -/
theorem Effect.receive_line {b : Byte} {s t : State} (h : Effect (.receive b) s t) (hr : s.params.role = .slave) :
    t.env.trace = s.env.trace ∧ t.env.inbound = s.env.inbound := by
  cases h with
  | rangeFailed _ _ _ _ _ _ _ _ hm | baudFailed _ _ _ _ _ _ _ _ hm | gateEntered _ _ _ _ _ _ _ _ hm =>
    simp [hr] at hm
  | replied _ _ _ _ hwire | responseFailed _ _ _ hwire | replyRejected _ _ hwire => exact absurd rfl hwire
  | acted _ _ _ _ _ _ hq | stored _ _ _ _ _ _ _ _ _ _ _ hq | answered _ _ _ _ _ _ _ hq =>
    obtain ⟨hi, -⟩ := hq.holdsRequest rfl
    cases hi
  | nothing | told | frameEnded | etxReceived | overflowed | accumulated => exact ⟨rfl, rfl⟩

/-- A turn of the block makes the one read or write of its phase (R151, R182). -/
theorem TurnEffect.calls {k : Nat} {s t : State} (h : TurnEffect k s t) : ∃ new, Calls True s t new := by
  have hclosed := all_isPort_ite s.cfg.closeAfterCall (e := .closed) rfl
  cases h with
  | waits => exact ⟨[], .none rfl⟩
  | responds _ _ _ h =>
    obtain ⟨new, hnew⟩ := h.calls rfl
    exact ⟨new, hnew.imp fun _ => trivial⟩
  | readsNothing hr hp => exact ⟨_, .of_read (rest := []) (by simp) (.byte k hr hp) rfl (by simp)⟩
  | readsByte _ b hr hp h =>
    obtain ⟨htrace, hin⟩ := h.receive_line (by simpa using hr)
    exact ⟨_, .of_read (rest := []) (by simp [htrace]) (.byte k hr hp) rfl (by simp [hin])⟩
  | releases => exact ⟨[], .none rfl⟩
  | writesForEcho hr hm hopen hg | writesForReply hr hm hopen hg =>
    exact ⟨_, .of_write (rest := []) (by simp) (.request hr hm hg hopen) rfl⟩
  | writesLast hr hm hopen hg => exact ⟨_, .of_write (by simp) (.request hr hm hg hopen) hclosed⟩
  | echoForReply hr hm => exact ⟨_, .of_read (rest := []) (by simp) (.echo k hr hm) rfl (by simp)⟩
  | echoFails hr hm | echoLast hr hm => exact ⟨_, .of_read (by simp) (.echo k hr hm) hclosed (by simp)⟩
  | noResponse hr hm | badResponse _ hr hm | replies _ _ hr hm =>
    exact ⟨_, .of_read (by simp) (.response k hr hm) hclosed (by simp)⟩

theorem Acts.calls {s u t : State} (h : Acts s u t) : ∃ new, Calls (ownTurn s ∨ presents s .respond) u t new := by
  cases h with
  | turn k hturn h =>
    obtain ⟨new, hnew⟩ := h.calls
    exact ⟨new, hnew.imp fun _ => .inl hturn⟩
  | operation i hi hd h =>
    obtain ⟨new, hnew⟩ := h.calls hd
    exact ⟨new, hnew.imp (by rintro rfl; exact .inr hi)⟩

/-- The surroundings that a step finds are those of `s` but for the inputs and the free values, which no call reads. -/
theorem Calls.of_begun {p : Prop} {rest : List Input} {d : Nat} {s t : State} {new : List TEvent}
    (h : Calls p (begun rest d s) t new) : Calls p s t new where
  trace := h.trace
  each e he := by
    cases h.each e he with
    | opened => exact .opened
    | closed => exact .closed
    | baud b => exact .baud b
    | broken sent => exact .broken sent
    | request h1 h2 h3 h4 => exact .request h1 h2 h3 h4
    | reply cw sax sa h1 h2 h3 => exact .reply cw sax sa h1 h2 h3
    | byte k h1 h2 => exact .byte k h1 h2
    | echo k h1 h2 => exact .echo k h1 h2
    | response k h1 h2 => exact .response k h1 h2
  reads := h.reads

/-- The transport calls of a step. -/
theorem step_calls {s t : State} (hstep : step s = .next t) :
    ∃ new, Calls (ownTurn s ∨ presents s .respond) s t new := by
  cases step_shape hstep with
  | acts rest d _ h =>
    obtain ⟨new, hnew⟩ := h.calls
    exact ⟨new, hnew.of_begun⟩
  | fails rest d n u h =>
    obtain ⟨new, hnew⟩ := h.calls
    obtain ⟨new', hnew'⟩ := hnew.failAtCall n
    exact ⟨new', hnew'.of_begun⟩
  | outside e htrace => exact ⟨[], .none htrace⟩
  | cfgWritten => exact ⟨[], .none rfl⟩

/-! ### The statements -/

/-- Settles O18: the one write a master may make is that of its request, at the open gate. -/
theorem masterWritesOnlyAtOpenGate : Obligations.MasterWritesOnlyAtOpenGate := by
  intro s t hr hstep
  obtain ⟨new, hcalls⟩ := step_calls hstep
  refine ⟨new, hcalls.trace, fun at_ bs hmem => ?_⟩
  cases hcalls.each _ hmem with
  | request _ hm hg hopen => exact ⟨hm, hg, rfl, hopen, rfl⟩
  | reply _ _ _ hs => simp [hr] at hs

/-- Settles O48: the one write a slave may make is the reply to a GET of its address that RESPOND holds. -/
theorem slaveWritesOnlyItsReply : Obligations.SlaveWritesOnlyItsReply := by
  intro s t hr hstep
  obtain ⟨new, hcalls⟩ := step_calls hstep
  refine ⟨new, hcalls.trace, fun at_ bs hmem => ?_⟩
  cases hcalls.each _ hmem with
  | request hm => simp [hr] at hm
  | reply cw sax sa _ hresponds hholds =>
    obtain ⟨hp, hdec⟩ := hholds
    exact ⟨cw, sax, sa, ⟨hr, hp, hresponds, hdec⟩, rfl, rfl⟩

theorem readBytes_prefix (n k : Nat) (s : State) : readBytes n k s <+: s.env.inbound :=
  List.take_prefix _ _

/-- Settles O32: the three reads a step may make, each of the head of the inbound stream. -/
theorem readsOnlyWhereTheRulesRead : Obligations.ReadsOnlyWhereTheRulesRead := by
  intro s t hstep
  obtain ⟨new, hcalls⟩ := step_calls hstep
  refine ⟨new, hcalls.trace, fun n bs hmem => ?_⟩
  have hconsumed := hcalls.reads n bs hmem
  cases hcalls.each _ hmem with
  | byte k hr hp =>
    exact ⟨readBytes_length_le 1 k s, readBytes_prefix 1 k s, hconsumed, .inl ⟨hr, hp, rfl⟩⟩
  | echo k hr hm =>
    exact ⟨readBytes_length_le _ k s, readBytes_prefix _ k s, hconsumed, .inr (.inl ⟨hr, hm, rfl⟩)⟩
  | response k hr hm =>
    exact ⟨readBytes_length_le _ k s, readBytes_prefix _ k s, hconsumed, .inr (.inr ⟨hr, hm, rfl⟩)⟩

end Sys2Proof.Machine

/-! What a step makes of the master's registers and of the reports (R28 to R30, R151, R156, R206). -/

namespace Sys2Proof.Machine

/-! ### The order of the phases -/

/-- The moves of `MPHASE` (R30, R151). -/
inductive PhaseMove : MPhase → MPhase → Prop where
  | stay (p : MPhase) : PhaseMove p p
  | finish (p : MPhase) : PhaseMove p .idle
  | start : PhaseMove .idle .gate
  | write (p : MPhase) : p = .echo ∨ p = .read → PhaseMove .gate p
  | echoed : PhaseMove .echo .read

theorem PhaseMove.of_eq {p q : MPhase} (h : q = p) : PhaseMove p q := h ▸ .stay q

theorem PhaseMove.of_idle {p q : MPhase} (h : q = .idle) : PhaseMove p q := h ▸ .finish p

theorem PhaseMove.of_start {p q : MPhase} (hp : p = .idle) (hq : q = .gate) : PhaseMove p q := hp ▸ hq ▸ .start

theorem PhaseMove.of_write {p q : MPhase} (hp : p = .gate) (hq : q = .echo ∨ q = .read) : PhaseMove p q :=
  hp ▸ .write q hq

theorem Effect.phaseMove {i : Instr} {s t : State} (h : Effect i s t) : PhaseMove s.mphase t.mphase := by
  cases h with
  | rangeFailed | baudFailed | gateFailed | replied | responseFailed => exact .of_idle (by simp)
  | resetTo => exact .finish _
  | gateEntered _ _ _ _ _ _ _ _ _ hm | gateCalled _ _ hm => exact .of_start hm (by simp)
  | acted _ _ _ _ _ _ hq | stored _ _ _ _ _ _ _ _ _ _ _ hq | answered _ _ _ _ _ _ _ hq =>
    exact .of_eq (by simpa using hq.masterKept.registers.mphase)
  | nothing | told | recorded | replyRejected | frameEnded | etxReceived | accumulated | addressSet =>
    exact .of_eq (by simp)
  | overflowed | rejected => exact .stay _

theorem TurnEffect.phaseMove {k : Nat} {s t : State} (h : TurnEffect k s t) : PhaseMove s.mphase t.mphase := by
  cases h with
  | waits => exact .stay _
  | responds _ _ _ h => exact h.phaseMove
  | readsNothing => exact .of_eq (by simp)
  | readsByte _ _ _ _ h => simpa using h.phaseMove
  | releases => exact .finish _
  | writesForEcho _ hm => exact .of_write hm (.inl rfl)
  | writesForReply _ hm => exact .of_write hm (.inr rfl)
  | echoForReply _ hm =>
    rw [hm]
    exact .echoed
  | writesLast | echoFails | echoLast | noResponse | badResponse | replies => exact .of_idle (by simp)

theorem failAtCall_phaseMove {s t : State} (h : PhaseMove s.mphase t.mphase) (n : Nat) :
    PhaseMove s.mphase (failAtCall n s t).mphase := by
  obtain ⟨-, e⟩ | ⟨-, -, e⟩ | ⟨-, -, -, e⟩ | ⟨-, -, -, e⟩ := failAtCall_cases n s t <;> rw [e]
  · exact h
  · exact .of_idle (by simp)
  · exact h
  · exact .stay _

theorem Acts.phaseMove {s u t : State} (h : Acts s u t) : PhaseMove u.mphase t.mphase := by
  cases h with
  | turn _ _ h => exact h.phaseMove
  | operation _ _ _ h => exact h.phaseMove

theorem step_phaseMove {s t : State} (hstep : step s = .next t) : PhaseMove s.mphase t.mphase := by
  cases step_shape hstep with
  | acts _ _ _ h => exact h.phaseMove
  | fails _ _ n u h => exact failAtCall_phaseMove h.phaseMove n
  | outside | cfgWritten => exact .stay _

/-- Settles O30: the moves of `MPHASE` but for staying. -/
theorem phaseMovesOnlyForward : Obligations.PhaseMovesOnlyForward := by
  intro s t hstep hne
  have hmove := step_phaseMove hstep
  revert hne hmove
  generalize s.mphase = p, t.mphase = q
  intro hne hmove
  cases hmove with
  | stay => exact absurd rfl hne
  | finish => exact .inl rfl
  | start => exact .inr (.inl ⟨rfl, rfl⟩)
  | write _ hq => exact .inr (.inr (.inl ⟨rfl, hq⟩))
  | echoed => exact .inr (.inr (.inr ⟨rfl, rfl⟩))

/-! ### CFG -/

theorem Effect.cfg {i : Instr} {s t : State} (h : Effect i s t) (hi : i ≠ .reset) : t.cfg = s.cfg := by
  cases h with
  | acted _ _ _ _ _ _ hq | stored _ _ _ _ _ _ _ _ _ _ _ hq | answered _ _ _ _ _ _ _ hq =>
    simpa using hq.masterKept.registers.cfg
  | resetTo => exact absurd rfl hi
  | overflowed | rejected => rfl
  | _ => simp

theorem TurnEffect.cfg {k : Nat} {s t : State} (h : TurnEffect k s t) : t.cfg = s.cfg := by
  cases h with
  | responds _ _ _ h => exact h.cfg nofun
  | readsByte _ _ _ _ h => simpa using h.cfg nofun
  | releases => rfl
  | _ => simp

theorem failAtCall_cfg {s t : State} (h : t.cfg = s.cfg) (n : Nat) : (failAtCall n s t).cfg = s.cfg := by
  obtain ⟨-, e⟩ | ⟨-, -, e⟩ | ⟨-, -, -, e⟩ | ⟨-, -, -, e⟩ := failAtCall_cases n s t <;> rw [e]
  · exact h
  · simpa using h
  · exact h

theorem Acts.cfg {s u t : State} (h : Acts s u t) (hreset : ¬ resets s) : t.cfg = u.cfg := by
  cases h with
  | turn _ _ h => exact h.cfg
  | operation i hi _ h => exact h.cfg (by rintro rfl; exact hreset hi)

/-- R28: what the host writes is what it reads. -/
theorem cfgBits_cfgOfBits (v : BitVec 2) : cfgBits (cfgOfBits v) = v := by
  revert v
  decide

/-- Settles O33: the host's write by the phase, and that nothing else but reset writes `CFG`. -/
theorem cfgConstantOverTransaction : Obligations.CfgConstantOverTransaction := by
  constructor
  · intro v s rest hinputs
    have hwrite : step s = .next (writeCfg v (dropInput rest s)) := step_of_inputs hinputs
    constructor
    · intro hm
      refine ⟨_, hwrite, ?_⟩
      have hcfg : (writeCfg v (dropInput rest s)).cfg = cfgOfBits v := by simp [writeCfg, hm]
      rw [hcfg]
      exact ⟨rfl, cfgBits_cfgOfBits v⟩
    · intro hm
      refine ⟨_, hwrite, ?_⟩
      simp only [writeCfg, dropInput_fields, refuseHost_eq, if_pos hm]
      exact ⟨by simp, by constructor <;> simp, by constructor <;> simp, by constructor <;> simp⟩
  · intro s t hstep hm hreset
    cases step_shape hstep with
    | acts _ _ _ h => exact h.cfg hreset
    | fails _ _ n u h => exact failAtCall_cfg (h.cfg hreset) n
    | outside => rfl
    | cfgWritten _ _ hidle => exact absurd hidle hm

/-! ### The time of the last read -/

/-- What becomes of `LRT` in an operation: it is kept, recorded by GATE_RECORD in `M_IDLE`, or reset (R29, R134). -/
theorem Effect.lrt {i : Instr} {s t : State} (h : Effect i s t) (hd : i.dir? = none) :
    t.lrt = s.lrt ∨ i = .reset ∨
      (i = .gateRecord ∧ t.lrt = some s.env.now ∧ s.params.role = .master ∧ s.mphase = .idle) := by
  cases h with
  | recorded _ hr hm => exact .inr (.inr ⟨rfl, by simp, hr, hm⟩)
  | resetTo => exact .inr (.inl rfl)
  | replied _ _ _ _ hwire | responseFailed _ _ _ hwire | replyRejected _ _ hwire => exact absurd hd hwire
  | acted _ _ _ _ _ _ hq | stored _ _ _ _ _ _ _ _ _ _ _ hq | answered _ _ _ _ _ _ _ hq =>
    exact .inl (by simpa using hq.masterKept.registers.lrt)
  | overflowed | rejected => exact .inl rfl
  | _ => exact .inl (by simp)

/-- What becomes of `LRT` in a turn: it is kept, or recorded by a response read that returned a byte (R147). -/
theorem TurnEffect.lrt {k : Nat} {s t : State} (h : TurnEffect k s t) :
    t.lrt = s.lrt ∨ (t.lrt = some s.env.now ∧ s.params.role = .master ∧ s.mphase = .read ∧
      ∃ bs, bs ≠ [] ∧ TEvent.read s.params.respWindow bs ∈ t.env.trace.drop s.env.trace.length) := by
  cases h with
  | responds _ _ _ h =>
    obtain h | h | ⟨h, -⟩ := h.lrt rfl
    · exact .inl h
    · cases h
    · cases h
  | readsByte _ _ _ _ h =>
    obtain h | h | ⟨h, -⟩ := h.lrt rfl
    · exact .inl (by simpa using h)
    · cases h
    · cases h
  | badResponse _ hr hm hne | replies _ _ hr hm hne => exact .inr ⟨by simp, hr, hm, _, hne, by simp⟩
  | releases => exact .inl rfl
  | _ => exact .inl (by simp)

/-- A step whose call fails leaves `LRT` (U6). -/
theorem failAtCall_lrt {s t : State} (hslave : s.params.role = .slave → t.lrt = s.lrt) (n : Nat) :
    failAtCall n s t = t ∨ (failAtCall n s t).lrt = s.lrt := by
  obtain ⟨-, e⟩ | ⟨-, -, e⟩ | ⟨-, hr, -, e⟩ | ⟨-, -, -, e⟩ := failAtCall_cases n s t <;> rw [e]
  · exact .inl rfl
  · exact .inr (by simp)
  · exact .inr (hslave hr)
  · exact .inr rfl

/-- Settles O31: the two ways to record a read, a reset, and else `LRT` is kept. -/
theorem lrtWrittenOnlyByRecordedReads : Obligations.LrtWrittenOnlyByRecordedReads := by
  intro s t hstep hne
  have hacts {rest : List Input} {d : Nat} {u : State} (h : Acts s (begun rest d s) u) (hne : u.lrt ≠ s.lrt) :
      resets s ∨ (u.lrt = some s.env.now ∧ s.params.role = .master ∧
        (presents s .gateRecord ∧ s.mphase = .idle ∨ (s.mphase = .read ∧ ownTurn s ∧
          ∃ bs, bs ≠ [] ∧ TEvent.read s.params.respWindow bs ∈ u.env.trace.drop s.env.trace.length))) := by
    cases h with
    | turn k hturn h =>
      obtain h | ⟨hlrt, hr, hm, hread⟩ := h.lrt
      · exact absurd h hne
      · exact .inr ⟨hlrt, hr, .inr ⟨hm, hturn, hread⟩⟩
    | operation i hi hd h =>
      obtain h | rfl | ⟨rfl, hlrt, hr, hm⟩ := h.lrt hd
      · exact absurd h hne
      · exact .inl hi
      · exact .inr ⟨hlrt, hr, .inl ⟨hi, hm⟩⟩
  cases step_shape hstep with
  | acts _ _ _ h => exact hacts h hne
  | fails rest d n u h =>
    by_cases hreset : resets s
    · exact .inl hreset
    · obtain e | e := failAtCall_lrt (fun hr => ((h.apart hreset).slave hr).lrt) n
      · rw [e] at hne ⊢
        exact hacts h hne
      · exact absurd e hne
  | outside | cfgWritten => exact absurd rfl hne

/-! ### Failures and reports -/

/-- What a reported failure leaves (R156, R206, R209). -/
structure FailedWith (f : Failure) (s t : State) : Prop where
  cfg : t.cfg = s.cfg
  identity : SameIdentity s t
  resHeight : t.mres.height = s.mres.height
  resAngle : t.mres.angle = s.mres.angle
  height : t.height = s.height
  angle : t.angle = s.angle
  lrt : t.lrt ≠ s.lrt → ∃ c, f = .malformedFrame c
  master : t.mphase = .idle ∧ t.mres.code = failureCode f ∨ SameMaster s t

/-- A failure raised in a state that differs from `s` in no result and no setting. -/
theorem failedWith_raiseFailure {f : Failure} {s u : State} (hcfg : u.cfg = s.cfg) (hidentity : SameIdentity s u)
    (hmres : u.mres = s.mres) (hheight : u.height = s.height) (hangle : u.angle = s.angle)
    (hlrt : u.lrt ≠ s.lrt → ∃ c, f = .malformedFrame c) : FailedWith f s (raiseFailure f u) where
  cfg := by simpa using hcfg
  identity := hidentity.trans (by constructor <;> simp)
  resHeight := by simp [hmres]
  resAngle := by simp [hmres]
  height := by simpa using hheight
  angle := by simpa using hangle
  lrt := by simpa using hlrt
  master := .inl ⟨by simp, by simp⟩

/-- A failure of a codec operation, which only reports it (log entry 12). -/
theorem failedWith_report (f : Failure) (r : Report) (s : State) : FailedWith f s (report r s) where
  cfg := by simp
  identity := by constructor <;> simp
  resHeight := by simp
  resAngle := by simp
  height := by simp
  angle := by simp
  lrt := by simp
  master := .inr (by constructor <;> simp)

/-- What the block does from `s` to `t` takes no time and tells the caller at most one thing; a failure it tells is one
that leaves what `FailedWith` says. -/
structure Tells (s t : State) : Prop where
  now : t.env.now = s.env.now
  reports : t.env.reports = s.env.reports ∨
    ∃ r, t.env.reports = s.env.reports ++ [r] ∧ ∀ f, r = .failed f → FailedWith f s t

theorem Tells.silent {s t : State} (hnow : t.env.now = s.env.now) (h : t.env.reports = s.env.reports) : Tells s t :=
  ⟨hnow, .inl h⟩

theorem Tells.failure {s t : State} {f : Failure} (hnow : t.env.now = s.env.now)
    (h : t.env.reports = s.env.reports ++ [.failed f]) (hf : FailedWith f s t) : Tells s t :=
  ⟨hnow, .inr ⟨_, h, fun g hg => by cases hg; exact hf⟩⟩

theorem Tells.other {s t : State} {r : Report} (hnow : t.env.now = s.env.now)
    (h : t.env.reports = s.env.reports ++ [r]) (hr : ∀ f, r ≠ .failed f) : Tells s t :=
  ⟨hnow, .inr ⟨r, h, fun f hf => absurd hf (hr f)⟩⟩

theorem Effect.tells {i : Instr} {s t : State} (h : Effect i s t) (hd : i.dir? = none) : Tells s t := by
  cases h with
  | told _ _ r => exact ⟨by simp, .inr ⟨r, by simp, fun f _ => failedWith_report f r s⟩⟩
  | rangeFailed | baudFailed | gateFailed =>
    exact .failure (by simp) (by simp) (failedWith_raiseFailure (by simp) (by constructor <;> simp) (by simp) (by simp)
      (by simp) (by simp))
  | addressSet => exact .other (r := .ok) (by simp) (by simp) nofun
  | replied _ _ _ _ hwire | responseFailed _ _ _ hwire | replyRejected _ _ hwire => exact absurd hd hwire
  | acted _ _ _ _ _ _ hq | stored _ _ _ _ _ _ _ _ _ _ _ hq | answered _ _ _ _ _ _ _ hq =>
    obtain ⟨-, -, rfl⟩ := hq.holdsRequest hd
    exact .silent (by simp) (by simp)
  | overflowed | rejected | resetTo => exact .silent rfl rfl
  | nothing | gateEntered | gateCalled | recorded | frameEnded | etxReceived | accumulated =>
    exact .silent (by simp) (by simp)

/-- The same told from an earlier state with the same registers, time and reports. -/
theorem Tells.after {s u t : State} (h : Tells u t) (hnow : u.env.now = s.env.now)
    (hreports : u.env.reports = s.env.reports) (hidentity : SameIdentity s u) (hmaster : SameMaster s u)
    (hslave : SameSlave s u) : Tells s t := by
  obtain ⟨hnow', htold⟩ := h
  refine ⟨hnow'.trans hnow, htold.imp (·.trans hreports) ?_⟩
  rintro ⟨r, hr, hfailed⟩
  refine ⟨r, by rw [hr, hreports], fun f hf => ?_⟩
  obtain ⟨hcfg, hid, hresh, hresa, hheight, hangle, hlrt, hend⟩ := hfailed f hf
  exact ⟨hcfg.trans hmaster.cfg, hidentity.trans hid, by rw [hresh, hmaster.mres], by rw [hresa, hmaster.mres],
    hheight.trans hslave.height, hangle.trans hslave.angle, hmaster.lrt ▸ hlrt, hend.imp_right hmaster.trans⟩

theorem TurnEffect.tells {k : Nat} {s t : State} (h : TurnEffect k s t) : Tells s t := by
  cases h with
  | waits => exact .silent rfl rfl
  | responds _ _ _ h => exact h.tells rfl
  | readsNothing => exact .silent (by simp) (by simp)
  | readsByte _ _ _ _ h =>
    exact (h.tells rfl).after (by simp) (by simp) (by constructor <;> simp) (by constructor <;> simp)
      (by constructor <;> simp)
  | releases => exact .other (r := .ok) rfl rfl nofun
  | writesForEcho | writesForReply | echoForReply => exact .silent (by simp) (by simp)
  | writesLast | echoLast => exact .other (r := .completed none) (by simp) (by simp) nofun
  | replies h a => exact .other (r := .completed (some (h, a))) (by simp) (by simp) nofun
  | echoFails | noResponse =>
    exact .failure (by simp) (by simp) (failedWith_raiseFailure (by simp) (by constructor <;> simp) (by simp) (by simp)
      (by simp) (by simp))
  | badResponse c =>
    exact .failure (by simp) (by simp) (failedWith_raiseFailure (by simp) (by constructor <;> simp) (by simp) (by simp)
      (by simp) (fun _ => ⟨c, rfl⟩))

/-- A failed call takes the place of what the step would have told, and none of the five failures is told (U6). -/
theorem Tells.failAtCall {s t : State} (h : Tells s t) (n : Nat) : Tells s (failAtCall n s t) := by
  obtain ⟨-, e⟩ | ⟨-, -, e⟩ | ⟨-, -, -, e⟩ | ⟨-, -, -, e⟩ := failAtCall_cases n s t <;> rw [e]
  · exact h
  · exact .other (r := .transportFailed) (by simpa using h.now) (by simp) nofun
  · exact .silent h.now rfl
  · exact .silent h.now rfl

theorem Tells.of_begun {rest : List Input} {d : Nat} {s t : State} (h : Tells (begun rest d s) t) : Tells s t :=
  h.after rfl rfl ⟨rfl, rfl, rfl, rfl⟩ ⟨rfl, rfl, rfl, rfl, rfl, rfl, rfl⟩ ⟨rfl, rfl, rfl, rfl, rfl⟩

theorem Acts.tells {s u t : State} (h : Acts s u t) : Tells u t := by
  cases h with
  | turn _ _ h => exact h.tells
  | operation _ _ hd h => exact h.tells hd

/-- What a step tells: a refused or an accepted write of `CFG`, which is no failure, or what the block does tells it. -/
theorem step_tells {s t : State} (hstep : step s = .next t) : t.env.reports = s.env.reports ∨
    ∃ r, t.env.reports = s.env.reports ++ [r] ∧ ∀ f, r = .failed f → FailedWith f s t := by
  cases step_shape hstep with
  | acts _ _ _ h => exact h.tells.of_begun.reports
  | fails _ _ n u h => exact (h.tells.failAtCall n).of_begun.reports
  | outside e _ _ _ htold => exact htold.imp_right fun h => ⟨.refused .busy, h, nofun⟩
  | cfgWritten => exact .inr ⟨.ok, rfl, nofun⟩

/-- Settles O29: the one report of the step is that failure, and it leaves what `FailedWith` says. -/
theorem failureKeepsResultsAndSettings : Obligations.FailureKeepsResultsAndSettings := by
  intro s t f hstep htold
  obtain h | ⟨r, h, hfailed⟩ := step_tells hstep
  · simp [h] at htold
  · obtain rfl : r = .failed f := by simpa [h] using htold
    obtain ⟨hcfg, hidentity, hresh, hresa, hheight, hangle, hlrt, hend⟩ := hfailed f rfl
    exact ⟨hcfg, hidentity, hresh, hresa, hheight, hangle, hlrt, hend⟩

/-- Time passes only in the surroundings (R130; log entry 18). -/
theorem step_now_le {s t : State} (hstep : step s = .next t) : s.env.now ≤ t.env.now := by
  cases step_shape hstep with
  | acts _ _ _ h => exact h.tells.now.ge
  | fails _ _ n u h => exact (h.tells.failAtCall n).now.ge
  | outside e _ _ hnow => exact hnow
  | cfgWritten => exact le_refl _

/-- Settles O59: the calls and the report of a step are added behind those before it. -/
theorem traceAndTimeOnlyGrow : Obligations.TraceAndTimeOnlyGrow := by
  intro s t hstep
  refine ⟨?trace, ?reports, step_now_le hstep⟩
  case trace =>
    obtain ⟨new, hcalls⟩ := step_calls hstep
    exact ⟨new, hcalls.trace.symm⟩
  case reports =>
    obtain h | ⟨r, h, -⟩ := step_tells hstep
    · exact ⟨[], by simp [h]⟩
    · exact ⟨[r], h.symm⟩

end Sys2Proof.Machine

/-! The Blind State over a step (R25, R177, R240): stored by a SET that covers the slave, else kept, but by reset. -/

namespace Sys2Proof.Machine

/-- What becomes of the Blind State in a step that may be a reset if it `resets`, and a RESPOND if it `responds`. -/
inductive BlindMove (resets responds : Prop) (s t : State) : Prop where
  | kept : t.height = s.height → t.angle = s.angle → BlindMove resets responds s t
  | reset : resets → BlindMove resets responds s t
  | stored (das dae cw sax sa h a : Byte) : s.params.role = .slave → responds →
      HoldsRequest s (.setRequest das dae cw sax sa h a) → covers das dae s.slvaddr = true →
      t.height = updated s.height h → t.angle = updated s.angle a → BlindMove resets responds s t

section BlindMove

variable {r r' p p' : Prop} {s t : State}

theorem BlindMove.imp (hr : r → r') (hp : p → p') (h : BlindMove r p s t) : BlindMove r' p' s t := by
  cases h with
  | kept hh ha => exact .kept hh ha
  | reset h => exact .reset (hr h)
  | stored das dae cw sax sa h a hslave hresp hholds hc hh ha =>
    exact .stored das dae cw sax sa h a hslave (hp hresp) hholds hc hh ha

/-- A failed call leaves the Blind State as the step made it, or as it was (U6). -/
theorem BlindMove.failAtCall (h : BlindMove r p s t) (n : Nat) : BlindMove r p s (failAtCall n s t) := by
  have hsame {v : State} (hh : v.height = t.height) (ha : v.angle = t.angle) : BlindMove r p s v := by
    cases h with
    | kept h1 h2 => exact .kept (hh.trans h1) (ha.trans h2)
    | reset h => exact .reset h
    | stored das dae cw sax sa h a hr hp hholds hc h1 h2 =>
      exact .stored das dae cw sax sa h a hr hp hholds hc (hh.trans h1) (ha.trans h2)
  obtain ⟨-, e⟩ | ⟨-, -, e⟩ | ⟨-, -, -, e⟩ | ⟨-, -, -, e⟩ := failAtCall_cases n s t <;> rw [e]
  · exact h
  · exact hsame (by simp) (by simp)
  · exact hsame rfl rfl
  · exact .kept rfl rfl

end BlindMove

theorem Effect.blindMove {i : Instr} {s t : State} (h : Effect i s t) (hd : i.dir? = none) :
    BlindMove (i = .reset) (i = .respond) s t := by
  cases h with
  | stored _ _ _ das dae cw sax sa h a hr hq hc =>
    obtain ⟨hi, hholds, -⟩ := hq.holdsRequest hd
    exact .stored das dae cw sax sa h a hr hi hholds hc rfl rfl
  | resetTo => exact .reset rfl
  | acted _ _ _ _ _ _ hq | answered _ _ _ _ _ _ _ hq =>
    obtain ⟨-, -, rfl⟩ := hq.holdsRequest hd
    exact .kept (by simp) (by simp)
  | overflowed | rejected => exact .kept rfl rfl
  | _ => exact .kept (by simp) (by simp)

theorem TurnEffect.blindMove {k : Nat} {s t : State} (h : TurnEffect k s t) : BlindMove False True s t := by
  cases h with
  | responds _ _ _ h => exact (h.blindMove rfl).imp nofun fun _ => trivial
  | readsByte _ b _ _ h =>
    cases h.blindMove rfl with
    | kept hh ha => exact .kept (by simpa using hh) (by simpa using ha)
    | reset hi => cases hi
    | stored _ _ _ _ _ _ _ _ hi => cases hi
  | releases => exact .kept rfl rfl
  | _ => exact .kept (by simp) (by simp)

theorem Acts.blindMove {s u t : State} (h : Acts s u t) :
    BlindMove (resets s) (ownTurn s ∨ presents s .respond) u t := by
  cases h with
  | turn _ hturn h => exact h.blindMove.imp False.elim fun _ => .inl hturn
  | operation i hi hd h => exact (h.blindMove hd).imp (by rintro rfl; exact hi) (by rintro rfl; exact .inr hi)

theorem BlindMove.of_begun {r p : Prop} {rest : List Input} {d : Nat} {s t : State}
    (h : BlindMove r p (begun rest d s) t) : BlindMove r p s t := by
  cases h with
  | kept hh ha => exact .kept hh ha
  | reset h => exact .reset h
  | stored das dae cw sax sa h a hr hp hholds hc hh ha => exact .stored das dae cw sax sa h a hr hp hholds hc hh ha

theorem step_blindMove {s t : State} (hstep : step s = .next t) :
    BlindMove (resets s) (ownTurn s ∨ presents s .respond) s t := by
  cases step_shape hstep with
  | acts _ _ _ h => exact h.blindMove.of_begun
  | fails _ _ n u h => exact (h.blindMove.failAtCall n).of_begun
  | outside | cfgWritten => exact .kept rfl rfl

/-- Settles O47: the Blind State is kept, reset, or stored by the SET that RESPOND holds. -/
theorem blindStateWrittenOnlyByCoveringSet : Obligations.BlindStateWrittenOnlyByCoveringSet := by
  intro s t hstep hne
  cases step_blindMove hstep with
  | kept hh ha => simp [hh, ha] at hne
  | reset h => exact .inl h
  | stored das dae cw sax sa h a hr hresponds hholds hc hh ha =>
    obtain ⟨hp, hdec⟩ := hholds
    obtain ⟨hlow, hhigh⟩ := covers_iff.1 hc
    exact .inr ⟨hr, das, dae, cw, sax, sa, h, a, ⟨hr, hp, hresponds, hdec⟩, hlow, hhigh, hh, ha⟩

/-- R177: the sentinel is never stored. -/
theorem updated_ne_sentinel {old received : Byte} (h : old ≠ 0xFF) : updated old received ≠ 0xFF := by
  unfold updated
  split
  · exact h
  · assumption

/-- Settles O49: a SET stores no sentinel, and nothing else but reset writes the Blind State. -/
theorem sentinelNeverStored : Obligations.SentinelNeverStored := by
  intro s t hstep hreset
  cases step_blindMove hstep with
  | kept hh ha => exact ⟨fun h => hh ▸ h, fun h => ha ▸ h⟩
  | reset h => exact absurd h hreset
  | stored _ _ _ _ _ _ _ _ _ _ _ hh ha =>
    rw [hh, ha]
    exact ⟨updated_ne_sentinel, updated_ne_sentinel⟩

end Sys2Proof.Machine

/-! The block never stops (R206 to R208, U6, U13): every operation answers, and what a failing call makes of a step. -/

namespace Sys2Proof.Machine

/-! ### Every operation and every turn answers -/

theorem exists_exec_getReply (da cw sax sa h a : Byte) (s : State) : ∃ t, exec (.getReply da cw sax sa h a) s = .next t := by
  change ∃ t, execGetReply da cw sax sa h a s = _
  unfold execGetReply
  split
  · split <;> exact ⟨_, rfl⟩
  · exact ⟨_, rfl⟩

theorem exists_handleResponse (raw : List Byte) (s : State) : ∃ t, handleResponse raw s = .next t := by
  unfold handleResponse
  split
  case h_2 _ da cw sax sa h a _ => exact exists_exec_getReply da cw sax sa h a s
  all_goals exact ⟨_, rfl⟩

theorem exists_requestAtMaster (wire : List Byte) (s : State) : ∃ t, requestAtMaster wire s = .next t := by
  unfold requestAtMaster
  split
  · exact exists_handleResponse wire s
  · exact ⟨_, rfl⟩

/-- A request frame answers at either station. -/
theorem exists_exec_request {i : Instr} (hd : i.dir? = some .req) (s : State) : ∃ t, exec i s = .next t := by
  obtain ⟨r, rfl, hdir, -⟩ := exists_record_of_dir? hd 0
  cases hr : s.params.role with
  | slave =>
    obtain ⟨t, ht, -⟩ := exec_request_done hr hdir
    exact ⟨t, ht⟩
  | master =>
    rw [exec_request_at_master hr hd (encode_of_fields? s.params.delims r.toInstr_fields?)]
    exact exists_requestAtMaster _ s

theorem exists_exec_respond (s : State) : ∃ t, exec .respond s = .next t := by
  by_cases h : s.params.role = .slave ∧ s.rphase = .ready
  · obtain ⟨t, ht, -⟩ := exec_respond_accumulates h.1 h.2
    exact ⟨t, ht⟩
  · refine ⟨s, exec_respond_of_not_enabled ?_⟩
    cases hr : s.params.role <;> simp_all

theorem exists_exec_receive (b : Byte) (s : State) : ∃ t, exec (.receive b) s = .next t := by
  change ∃ t, execReceive b s = _
  unfold execReceive
  split
  · exact ⟨_, rfl⟩
  · split
    · exact ⟨_, rfl⟩
    · split <;> exact ⟨_, rfl⟩
  · exact ⟨_, rfl⟩
  · exact ⟨_, rfl⟩

theorem exists_exec (i : Instr) (s : State) : ∃ t, exec i s = .next t := by
  cases i with
  | stopRequest | setRequest | getRequest => exact exists_exec_request rfl s
  | getReply da cw sax sa h a => exact exists_exec_getReply da cw sax sa h a s
  | encode c das dae dt sa =>
    by_cases h : dae < das
    · exact ⟨_, exec_encode_of_lt h c dt sa s⟩
    · exact ⟨_, exec_encode_of_le (by bv_omega) c dt sa s⟩
  | decode raw dir =>
    cases h : decodeFrame s.params.delims dir raw with
    | ok r => exact ⟨_, exec_decode_of_ok h⟩
    | error c => exact ⟨_, exec_decode_of_error h⟩
  | setSlaveAddress v =>
    cases h : slaveAddress? v with
    | some b => exact ⟨_, exec_setSlaveAddress_of_some h s⟩
    | none => exact ⟨_, exec_setSlaveAddress_of_none h s⟩
  | receive b => exact exists_exec_receive b s
  | respond => exact exists_exec_respond s
  | encodeReply | gate | gateRecord | execute | stop | set | get | reset => exact ⟨_, rfl⟩

theorem exists_readReturns (k : Nat) (s : State) : ∃ t, readReturns k s = .next t := by
  by_cases hnil : readBytes s.params.respWindow k s = []
  · exact ⟨_, readReturns_of_nil hnil⟩
  · simp only [readReturns, if_neg hnil]
    exact exists_handleResponse _ _

theorem exists_turn (k : Nat) (s : State) : ∃ t, turn k s = .next t := by
  unfold turn
  split
  · split
    · exact exists_exec_respond s
    · split
      · exact ⟨_, rfl⟩
      · exact exists_exec_receive _ _
  · split
    · exact ⟨_, rfl⟩
    · split_ifs <;> exact ⟨_, rfl⟩
    · exact ⟨_, rfl⟩
    · exact exists_readReturns k s

theorem exists_present (i : Instr) (s : State) : ∃ t, present i s = .next t := by
  unfold present
  split
  · exact ⟨_, rfl⟩
  · exact exists_exec i s

theorem failing_of_next {o : Host.Outcome State Fault Refusal} {t : State} (h : o = .next t) (n : Nat) (s : State) :
    failing n s o = .next (failAtCall n s t) := by
  rw [h, failing]

/-- Every input but a collision is taken (U13). -/
theorem applyInput_answers (e : Input) (s : State) :
    (∃ t, applyInput e s = .next t) ∨ (e = .collision ∧ applyInput e s = .refused .lineCollision) := by
  cases e with
  | op i => exact .inl (exists_present i s)
  | turn k => exact .inl (exists_turn k s)
  | opFails n i =>
    obtain ⟨t, ht⟩ := exists_present i s
    exact .inl ⟨_, failing_of_next ht n s⟩
  | turnFails n k =>
    obtain ⟨t, ht⟩ := exists_turn k s
    exact .inl ⟨_, failing_of_next ht n s⟩
  | collision => exact .inr ⟨rfl, rfl⟩
  | writeCfg | arrive | clock | setBaud => exact .inl ⟨_, rfl⟩

theorem step_answers (s : State) : (∃ t, step s = .next t) ∨
    (∃ rest, s.env.inputs = .collision :: rest ∧ step s = .refused .lineCollision) := by
  cases hi : s.env.inputs with
  | nil =>
    rw [step_of_no_inputs hi]
    exact .inl (exists_turn _ _)
  | cons e rest =>
    rw [step_of_inputs hi]
    obtain h | ⟨rfl, h⟩ := applyInput_answers e (dropInput rest s)
    · exact .inl h
    · exact .inr ⟨rest, rfl, h⟩

/-! ### A step that makes a transport call -/

/-- What the block keeps in a step that makes a transport call: the identity and `CFG`, since SET_SLAVE_ADDRESS and
reset make none, and a slave's Blind State, since a SET is not answered. -/
structure CallKeeps (s t : State) : Prop where
  identity : SameIdentity s t
  cfg : t.cfg = s.cfg
  apart : Apart s t
  tells : Tells s t
  blind : s.params.role = .slave → t.height = s.height ∧ t.angle = s.angle

/-- Neither reset nor SET_SLAVE_ADDRESS makes a transport call (R183, R230). -/
theorem operation_of_call {i : Instr} {s t : State} (h : exec i s = .next t) (hcall : t.env.trace ≠ s.env.trace) :
    i ≠ .reset ∧ ∀ v, i ≠ .setSlaveAddress v := by
  constructor
  · rintro rfl
    exact hcall (by rw [← next_inj h]; rfl)
  · rintro v rfl
    cases hv : slaveAddress? v with
    | some b => exact hcall (by rw [← next_inj ((exec_setSlaveAddress_of_some hv s).symm.trans h)]; simp)
    | none => exact hcall (by rw [← next_inj ((exec_setSlaveAddress_of_none hv s).symm.trans h)]; simp)

/-- A slave that makes a call in an operation answers a GET, which leaves the Blind State (R178). -/
theorem Effect.blind_of_call {i : Instr} {s t : State} (h : Effect i s t) (hd : i.dir? = none) (hi : i ≠ .reset)
    (hcall : t.env.trace ≠ s.env.trace) : t.height = s.height ∧ t.angle = s.angle := by
  cases h with
  | stored _ _ _ _ _ _ _ _ _ _ _ hq =>
    obtain ⟨-, -, rfl⟩ := hq.holdsRequest hd
    exact absurd (by simp) hcall
  | acted _ _ _ _ _ _ hq | answered _ _ _ _ _ _ _ hq =>
    obtain ⟨-, -, rfl⟩ := hq.holdsRequest hd
    exact ⟨by simp, by simp⟩
  | resetTo => exact absurd rfl hi
  | overflowed | rejected => exact ⟨rfl, rfl⟩
  | _ => exact ⟨by simp, by simp⟩

theorem callKeeps_of_exec {i : Instr} {s t : State} (h : exec i s = .next t) (hd : i.dir? = none)
    (hcall : t.env.trace ≠ s.env.trace) : CallKeeps s t := by
  obtain ⟨hreset, hset⟩ := operation_of_call h hcall
  have heffect := exec_effect h
  exact ⟨heffect.sameIdentity hset hreset, heffect.cfg hreset, heffect.apart hreset, heffect.tells hd,
    fun _ => heffect.blind_of_call hd hreset hcall⟩

theorem callKeeps_of_turn {k : Nat} {s t : State} (h : turn k s = .next t) (hcall : t.env.trace ≠ s.env.trace) :
    CallKeeps s t := by
  have heffect := turn_effect h
  refine ⟨heffect.sameIdentity, heffect.cfg, heffect.apart, heffect.tells, fun hr => ?_⟩
  by_cases hp : s.rphase = .ready
  · rw [turn_of_ready hr hp] at h
    exact (exec_effect h).blind_of_call rfl nofun hcall
  · cases heffect.blindMove with
    | kept hh ha => exact ⟨hh, ha⟩
    | reset h => exact h.elim
    | stored _ _ _ _ _ _ _ _ _ hholds => exact absurd hholds.1 hp

/-- What the failing call after the first `n` makes of a step that makes more calls (U6; log entry 13). -/
theorem failAtCall_of_call {n : Nat} {s t : State} {new : List TEvent} (htrace : t.env.trace = s.env.trace ++ new)
    (hn : n < new.length) : ∃ sent, (failAtCall n s t).env.trace = s.env.trace ++ new.take n ++ [.broken sent] ∧
      (s.params.role = .master → (failAtCall n s t).mphase = .idle ∧
        (failAtCall n s t).mres = { s.mres with code := .transportError } ∧ (failAtCall n s t).lrt = s.lrt ∧
        (failAtCall n s t).gdl = s.gdl ∧ (failAtCall n s t).mcmd = t.mcmd ∧ (failAtCall n s t).txbuf = t.txbuf ∧
        (failAtCall n s t).env.reports = s.env.reports ++ [.transportFailed]) ∧
      (s.params.role = .slave → (failAtCall n s t).env.reports = s.env.reports ∧
        ((failAtCall n s t).height = t.height ∧ (failAtCall n s t).angle = t.angle ∨
          (failAtCall n s t).height = s.height ∧ (failAtCall n s t).angle = s.angle)) := by
  have hcalls := callsOf_of_trace htrace
  refine ⟨Config.sentAfterError t.env.draws, ?_⟩
  obtain ⟨hle, -⟩ | ⟨-, hr, e⟩ | ⟨-, hr, -, e⟩ | ⟨-, hr, -, e⟩ := failAtCall_cases n s t
  · rw [hcalls] at hle
    omega
  · rw [e]
    simp [hcalls, hr]
  · rw [e]
    simp [hcalls, hr]
  · rw [e]
    simp [hcalls, hr]

/-- The failing call of a step, with what it leaves (U6; log entry 13). -/
theorem failAtCall_keeps {n : Nat} {s t : State} {new : List TEvent} (htrace : t.env.trace = s.env.trace ++ new)
    (hn : n < new.length) (hkeeps : CallKeeps s t) : SameIdentity s (failAtCall n s t) ∧
      (failAtCall n s t).env.now = s.env.now ∧ (failAtCall n s t).cfg = s.cfg ∧ Apart s (failAtCall n s t) ∧
      (s.params.role = .slave → (failAtCall n s t).height = s.height ∧ (failAtCall n s t).angle = s.angle) := by
  refine ⟨?_, (hkeeps.tells.failAtCall n).now, failAtCall_cfg hkeeps.cfg n, hkeeps.apart.failAtCall n, fun hr => ?_⟩
  · obtain h | h := failAtCall_sameIdentity n s t
    · exact hkeeps.identity.trans h
    · exact h
  · obtain ⟨_, -, -, hslave⟩ := failAtCall_of_call htrace hn
    obtain ⟨hh, ha⟩ := hkeeps.blind hr
    obtain ⟨-, ⟨h1, h2⟩ | ⟨h1, h2⟩⟩ := hslave hr
    · exact ⟨h1.trans hh, h2.trans ha⟩
    · exact ⟨h1, h2⟩

/-- Settles O58: every operation and turn answers, so a step does but for a collision; a step with a failing call is
`failAtCall` of the step without it. -/
theorem blockNeverStops : Obligations.BlockNeverStops := by
  refine ⟨exists_exec, step_answers, by decide, ?fails⟩
  intro s t n rest new hworks htrace
  have hstep : step s = .next (failAtCall n (dropInput rest s) t) := by
    obtain ⟨k, hi, ht⟩ | ⟨i, hd, hi, ht⟩ := hworks
    · exact (step_of_inputs hi).trans (failing_of_next ht n _)
    · exact (step_of_inputs hi).trans (failing_of_next ((present_of_operation hd _).trans ht) n _)
  have htrace' : t.env.trace = (dropInput rest s).env.trace ++ new := htrace
  constructor
  · intro hn
    have hsame : failAtCall n (dropInput rest s) t = t := if_pos (by rw [callsOf_of_trace htrace']; exact hn)
    rw [hstep, hsame]
  · intro hn
    have hcall : t.env.trace ≠ (dropInput rest s).env.trace := by
      intro h
      obtain rfl : new = [] := by simpa [h] using htrace'
      simp at hn
    have hkeeps : CallKeeps (dropInput rest s) t := by
      obtain ⟨k, -, ht⟩ | ⟨i, hd, -, ht⟩ := hworks
      · exact callKeeps_of_turn ht hcall
      · exact callKeeps_of_exec ht hd hcall
    obtain ⟨sent, hbroken, hmaster, hslave⟩ := failAtCall_of_call htrace' hn
    obtain ⟨hidentity, hnow, hcfg, hapart, hblind⟩ := failAtCall_keeps htrace' hn hkeeps
    have hapart : Apart s (failAtCall n (dropInput rest s) t) := (apart_begun rest s.env.draws s).trans rfl hapart
    refine ⟨_, sent, hstep, (sameIdentity_dropInput rest s).trans hidentity, hnow, hbroken, fun hr => ?_, fun hr => ?_⟩
    · obtain ⟨hmphase, hmres, hlrt, hgdl, hmcmd, htxbuf, htold⟩ := hmaster hr
      exact ⟨hmphase, hmres, hlrt, hgdl, hcfg, hmcmd, htxbuf, hapart.master hr, htold⟩
    · obtain ⟨hh, ha⟩ := hblind hr
      exact ⟨hapart.slave hr, hh, ha, (hslave hr).1⟩

/-! ### The line -/

/-- What a station wrote in a step are the bytes of its new transport events (R53). -/
theorem newBytes_of_trace {s t : State} {new : List TEvent} (h : t.env.trace = s.env.trace ++ new) :
    newBytes s t = new.flatMap TEvent.written := by
  rw [newBytes, outbound_of_trace h, List.drop_left]

theorem deliver_sameMaster (bs : List Byte) (s : State) : SameMaster s (deliver bs s) := by constructor <;> simp

theorem deliver_sameSlave (bs : List Byte) (s : State) : SameSlave s (deliver bs s) := by constructor <;> simp

theorem deliver_sameIdentity (bs : List Byte) (s : State) : SameIdentity s (deliver bs s) := by constructor <;> simp

theorem step_params {s t : State} (hstep : step s = .next t) : t.params = s.params :=
  (identityWrittenOnlyByItsOperations s t hstep).1

/-- A station that hears the line keeps its role. -/
theorem role_of_mem_map_deliver {bs : List Byte} {slaves : List State} {v : State}
    (h : ∀ u ∈ slaves, u.params.role = .slave) (hv : v ∈ slaves.map (deliver bs)) : v.params.role = .slave := by
  obtain ⟨u, hu, rfl⟩ := List.mem_map.1 hv
  simpa using h u hu

theorem masterStep_of_next {l : Line} {t : State} {new : List TEvent} (hstep : step l.master = .next t)
    (htrace : t.env.trace = l.master.env.trace ++ new) : l.masterStep = .next { l with
      master := if l.echo then deliver (new.flatMap TEvent.written) t else t
      slaves := l.slaves.map (deliver (new.flatMap TEvent.written)) } := by
  simp only [Line.masterStep, hstep, newBytes_of_trace htrace]

theorem slaveStep_of_next {l : Line} {n : Nat} {v t : State} {new : List TEvent} (hv : l.slaves[n]? = some v)
    (hstep : step v = .next t) (htrace : t.env.trace = v.env.trace ++ new) : l.slaveStep n = .next { l with
      master := deliver (new.flatMap TEvent.written) l.master
      slaves := (l.slaves.map (deliver (new.flatMap TEvent.written))).set n t } := by
  simp only [Line.slaveStep, hv, hstep, newBytes_of_trace htrace]

/-- Settles O60: the bytes of the new events are delivered to the other stations, and a delivery touches nothing but the
inbound stream. -/
theorem lineCarriesWrites : Obligations.LineCarriesWrites := by
  intro l t new
  constructor
  · intro hstep htrace
    refine ⟨_, masterStep_of_next hstep htrace, rfl, by simp, fun n v hv => ?_, ?_⟩
    · exact ⟨deliver (new.flatMap TEvent.written) v, by simp [hv], by simp, deliver_sameSlave _ v,
        deliver_sameIdentity _ v⟩
    · have hmaster : (if l.echo then deliver (new.flatMap TEvent.written) t else t).params = l.master.params := by
        rw [← step_params hstep]
        split <;> simp
      refine ⟨by split <;> simp, ?_, ?_, fun ⟨hm, hs⟩ => ⟨hmaster ▸ hm, fun v hv => role_of_mem_map_deliver hs hv⟩⟩
      · split
        · exact deliver_sameMaster _ t
        · exact .refl t
      · split
        · exact deliver_sameIdentity _ t
        · exact .refl t
  · intro n v hv hstep htrace
    have hn : n < l.slaves.length := (List.getElem?_eq_some_iff.1 hv).1
    refine ⟨_, slaveStep_of_next hv hstep htrace, rfl, by simp, by simp [hn], fun m u hm hu => ?_, by simp,
      deliver_sameMaster _ _, deliver_sameIdentity _ _, ?_⟩
    · exact ⟨deliver (new.flatMap TEvent.written) u, by simp [hu, hm.symm], by simp, deliver_sameSlave _ u,
        deliver_sameIdentity _ u⟩
    · rintro ⟨hm, hs⟩
      refine ⟨by simpa using hm, fun u hu => ?_⟩
      obtain hu | rfl := List.mem_or_eq_of_mem_set hu
      · exact role_of_mem_map_deliver hs hu
      · rw [step_params hstep]
        exact hs v (List.mem_of_getElem? hv)

end Sys2Proof.Machine

/-! The invariant of the block: it holds after reset, and every step keeps it. -/

namespace Sys2Proof.Machine

open Config (Params)

/-! ### The four parts and what keeps them -/

section Parts

variable {s t : State}

theorem timeInv_iff : s.timeInv ↔ 0 ≤ s.env.now ∧ 0 ≤ s.gdl ∧
    ∀ l, s.lrt = some l → 0 ≤ l ∧ l ≤ s.env.now ∧ (s.mphase = .gate → l < s.gdl) := by
  unfold State.timeInv
  cases s.lrt <;> simp

/-- `LRT` and `GDL` stand, time may pass, and `M_GATE` is not entered. -/
theorem timeInv_of_kept (h : s.timeInv) (hnow : s.env.now ≤ t.env.now) (hlrt : t.lrt = s.lrt) (hgdl : t.gdl = s.gdl)
    (hphase : t.mphase = .gate → s.mphase = .gate) : t.timeInv := by
  rw [timeInv_iff] at h ⊢
  obtain ⟨h0, hg, hl⟩ := h
  rw [hlrt, hgdl]
  refine ⟨h0.trans hnow, hg, fun l hl' => ?_⟩
  obtain ⟨hpos, hpast, hgate⟩ := hl l hl'
  exact ⟨hpos, hpast.trans hnow, fun hm => hgate (hphase hm)⟩

/-- A read is recorded, outside `M_GATE`. -/
theorem timeInv_of_recorded (h : s.timeInv) (hnow : t.env.now = s.env.now) (hlrt : t.lrt = some s.env.now)
    (hgdl : t.gdl = s.gdl) (hphase : t.mphase = .idle) : t.timeInv := by
  obtain ⟨h0, hg, -⟩ := h
  rw [timeInv_iff, hnow, hlrt, hgdl, hphase]
  refine ⟨h0, hg, fun l hl => ?_⟩
  obtain rfl := Option.some.inj hl
  exact ⟨h0, le_refl _, nofun⟩

/-- The gate is entered at a positive baud rate: the deadline lies behind now, and behind the recorded read by the
silent period, which is positive (R131, R132). -/
theorem timeInv_of_entered (h : s.timeInv) (hb : 0 < s.env.baud) (hnow : t.env.now = s.env.now) (hlrt : t.lrt = s.lrt)
    (hgdl : t.gdl = gateDeadline s.env.baud s.env.now s.lrt) : t.timeInv := by
  rw [timeInv_iff] at h ⊢
  obtain ⟨h0, -, hl⟩ := h
  have hwait := gateWait_nonneg s.env.baud s.env.now s.lrt
  rw [hnow, hlrt, hgdl]
  refine ⟨h0, add_nonneg h0 hwait, fun l hl' => ?_⟩
  obtain ⟨hpos, hpast, -⟩ := hl l hl'
  refine ⟨hpos, hpast, fun _ => ?_⟩
  rw [hl', gateDeadline_eq]
  have hb' : (0 : Rat) < s.env.baud := by exact_mod_cast hb
  have hperiod : (0 : Rat) < 77 / (2 * (s.env.baud : Rat)) := by positivity
  exact lt_max_of_lt_right (lt_add_of_pos_right l hperiod)

/-- A call of GATE blocks in `M_GATE` and nowhere else (log entry 9). -/
theorem gateCall_eq_false (h : s.masterInv) (hm : s.mphase ≠ .gate) : s.env.gateCall = false := by
  obtain ⟨-, hgate, -⟩ := h
  exact Bool.eq_false_iff.2 (mt hgate hm)

/-- A sequencer that is idle, with no call of GATE blocked. -/
theorem masterInv_of_idle (hm : t.mphase = .idle) (hg : t.env.gateCall = false)
    (htx : t.txbuf = [] ∨ 12 ≤ t.txbuf.length ∧ t.txbuf.length ≤ 21)
    (hcode : t.mres.code.toNat ≤ 5 ∨ t.mres.code = .transportError) : t.masterInv :=
  ⟨fun _ => hm, by simp [hg], fun h => absurd hm h.1, by simp [hm], by simp [hm], htx, hcode⟩

theorem masterInv_of_kept (h : s.masterInv) (hp : t.params = s.params) (hd : t.devtype = s.devtype)
    (hsrc : t.srcaddr = s.srcaddr) (hsame : SameMaster s t) (hg : t.env.gateCall = s.env.gateCall) : t.masterInv := by
  obtain ⟨hcfg, -, hmphase, hmcmd, -, htxbuf, hmres⟩ := hsame
  unfold State.masterInv State.inFlight at h ⊢
  rw [hp, hd, hsrc, hcfg, hmphase, hmcmd, htxbuf, hmres, hg]
  exact h

theorem masterInv_of_env {e : Env} (h : s.masterInv) (hg : e.gateCall = s.env.gateCall) :
    State.masterInv { s with env := e } :=
  masterInv_of_kept h rfl rfl rfl ⟨rfl, rfl, rfl, rfl, rfl, rfl, rfl⟩ hg

/-- A transaction in flight goes on, with its request, to `M_ECHO` or `M_READ`. -/
theorem masterInv_of_advance (h : s.masterInv) (hr : s.params.role = .master) (hm : s.mphase ≠ .idle)
    (hg : s.env.gateCall = false) (hp : t.params = s.params) (hd : t.devtype = s.devtype) (hsrc : t.srcaddr = s.srcaddr)
    (hcfg : t.cfg = s.cfg) (hmcmd : t.mcmd = s.mcmd) (htxbuf : t.txbuf = s.txbuf) (hmres : t.mres = s.mres)
    (hgate : t.env.gateCall = s.env.gateCall) (hecho : t.mphase = .echo → s.cfg.localEcho = true)
    (hread : t.mphase = .read → s.mcmd.cmd = .get) : t.masterInv := by
  obtain ⟨-, -, henc, -, -, htx, hcode⟩ := h
  refine ⟨by simp [hp, hr], by simp [hgate, hg], fun _ => ?_, by rwa [hcfg], by rwa [hmcmd], by rwa [htxbuf],
    by rwa [hmres]⟩
  rw [hp, hd, hsrc, hmcmd, htxbuf]
  exact henc ⟨hm, hg⟩

theorem responderInv_of_kept (h : s.responderInv) (hp : t.params = s.params) (hsame : SameSlave s t) :
    t.responderInv := by
  obtain ⟨-, -, hphase, hbuf, hstat⟩ := hsame
  unfold State.responderInv at h ⊢
  rw [hp, hphase, hbuf, hstat]
  exact h

/-- A Responder that holds nothing. -/
theorem responderInv_of_empty (hlen : 2 ≤ t.params.rxMaxLen) (hp : t.rphase = .accum) (hbuf : t.rxbuf = [])
    (hcode : t.rstat.code = .ok ∨ t.rstat.code = .malformedFrame ∨ t.rstat.code = .rxOverflow) : t.responderInv := by
  refine ⟨fun _ => ⟨hp, hbuf⟩, ?_, hcode⟩
  rw [hp, hbuf]
  exact ⟨by simpa using Nat.lt_of_succ_le hlen, nofun⟩

end Parts

/-! ### After reset -/

theorem inv_resetWith {p : Params} {e : Env} (hp : p.wf) (hnow : 0 ≤ e.now) (hg : e.gateCall = false) :
    (State.resetWith p e).Inv := by
  obtain ⟨haddr, -, hlen, -⟩ := id hp
  exact ⟨⟨hp, rfl, rfl, haddr⟩, ⟨hnow, le_refl _, trivial⟩,
    masterInv_of_idle rfl hg (.inl rfl) (.inl (Nat.zero_le 5)),
    responderInv_of_empty (t := State.resetWith p e) (le_trans (by decide) hlen) rfl rfl (.inl rfl)⟩

/-- Settles O55: `State.reset` is the reset state of a legal instance at time 0. -/
theorem invariantHoldsAtReset : Obligations.InvariantHoldsAtReset :=
  ⟨inv_resetWith (by decide) (le_refl _) rfl, fun _ _ hp hnow hg => inv_resetWith hp hnow hg⟩

/-! ### The identity -/

/-- R21, R22: an accepted slave address is not 0, and reset takes the identity of construction. -/
theorem IdentityEffect.identityInv {asked : Instr → Prop} {s t : State} (h : IdentityEffect asked s t)
    (hs : s.identityInv) : t.identityInv := by
  obtain ⟨hwf, hdev, hsrc, haddr⟩ := hs
  cases h with
  | kept h =>
    obtain ⟨h1, h2, h3, h4⟩ := h
    exact ⟨h1 ▸ hwf, by rw [h1, h2, hdev], by rw [h1, h3, hsrc], h4 ▸ haddr⟩
  | addressSet v b _ hv h =>
    obtain ⟨h1, h2, h3, h4⟩ := h
    obtain ⟨hlow, -, hval⟩ := slaveAddress?_eq_some hv
    refine ⟨h1 ▸ hwf, by rw [h1, h2]; exact hdev, by rw [h1, h3]; exact hsrc, fun h0 => ?_⟩
    have hzero : b.toNat = 0 := by rw [show b = 0 from h4.symm.trans h0]; rfl
    omega
  | reset _ h =>
    obtain ⟨h1, h2, h3, h4⟩ := h
    exact ⟨h1 ▸ hwf, by rw [h1, h2]; rfl, by rw [h1, h3]; rfl, h4 ▸ hwf.1⟩

/-! ### The master's part -/

theorem requestFrame_length (d : Config.Delims) (c : Command) {das dae : Byte} (hle : das ≤ dae) (dt sa : Byte) :
    12 ≤ (frameOf d (requestFields c das dae dt sa)).length ∧
      (frameOf d (requestFields c das dae dt sa)).length ≤ 21 := by
  refine ⟨?_, length_le_of_encodeRequest (encodeRequest_ok hle)⟩
  have := payloadOf_length_bounds (requestFields c das dae dt sa)
  have := (requestFields_length c das dae dt sa).1
  have := esc_length_cases (byteCount (requestFields c das dae dt sa))
  rw [frameOf_length]
  omega

/-- An operation keeps the invariant of time and of the sequencer. -/
theorem Effect.masterPart {i : Instr} {s t : State} (h : Effect i s t) (hd : i.dir? = none) (hs : s.Inv) :
    t.timeInv ∧ t.masterInv := by
  obtain ⟨⟨hwf, -⟩, htime, hmaster, -⟩ := hs
  obtain ⟨-, -, -, -, -, htx, hcode⟩ := id hmaster
  cases h with
  | nothing => exact ⟨htime, hmaster⟩
  | told | addressSet =>
    exact ⟨timeInv_of_kept htime (by simp) (by simp) (by simp) (by simp),
      masterInv_of_kept hmaster (by simp) (by simp) (by simp) (by constructor <;> simp) (by simp)⟩
  | rangeFailed _ _ _ _ _ _ _ _ _ hm | gateFailed _ _ hm =>
    have hg := gateCall_eq_false hmaster (by simp [hm])
    exact ⟨timeInv_of_kept htime (by simp) (by simp) (by simp) (by simp),
      masterInv_of_idle (by simp) (by simpa using hg) (by simpa using htx) (.inl (by simp [failureCode, Code.toNat]))⟩
  | baudFailed _ _ _ _ _ _ _ _ _ hm hle =>
    have hg := gateCall_eq_false hmaster (by simp [hm])
    exact ⟨timeInv_of_kept htime (by simp) (by simp) (by simp) (by simp),
      masterInv_of_idle (by simp) (by simpa using hg) (.inr (by simpa using requestFrame_length _ _ hle _ _))
        (.inl (by simp [failureCode, Code.toNat]))⟩
  | gateEntered _ _ cmd das dae h a n hr hm hle hb =>
    have hg := gateCall_eq_false hmaster (by simp [hm])
    refine ⟨timeInv_of_entered htime hb (by simp) (by simp) (by simp), ?_⟩
    have htx' := requestFrame_length s.params.delims (commandOf cmd h a) hle s.devtype s.srcaddr
    exact ⟨by simp [hr], by simp [hg], fun _ => by simpa using encodeRequest_ok hle, by simp, by simp,
      .inr (by simpa using htx'), by simpa using hcode⟩
  | gateCalled _ hr hm hb =>
    refine ⟨timeInv_of_entered htime hb (by simp) (by simp) (by simp), ?_⟩
    exact ⟨by simp [hr], by simp, fun ⟨_, hg⟩ => absurd hg (by simp), by simp, by simp, by simpa using htx,
      by simpa using hcode⟩
  | recorded _ hr hm =>
    have hg := gateCall_eq_false hmaster (by simp [hm])
    exact ⟨timeInv_of_recorded htime (by simp) (by simp) (by simp) (by simpa using hm),
      masterInv_of_idle (by simpa using hm) (by simpa using hg) (by simpa using htx) (by simpa using hcode)⟩
  | replied _ _ _ _ hwire | responseFailed _ _ _ hwire | replyRejected _ _ hwire => exact absurd hd hwire
  | frameEnded | etxReceived | overflowed | accumulated | rejected => exact ⟨htime, hmaster⟩
  | acted _ _ _ _ _ _ hq | stored _ _ _ _ _ _ _ _ _ _ _ hq | answered _ _ _ _ _ _ _ hq =>
    obtain ⟨-, -, rfl⟩ := hq.holdsRequest hd
    exact ⟨htime, hmaster⟩
  | resetTo =>
    obtain ⟨-, htime', hmaster', -⟩ := inv_resetWith (e := { s.env with gateCall := false }) hwf htime.1 rfl
    exact ⟨htime', hmaster'⟩

/-- So does what the block does by itself. -/
theorem TurnEffect.masterPart {k : Nat} {s t : State} (h : TurnEffect k s t) (hs : s.Inv) :
    t.timeInv ∧ t.masterInv := by
  obtain ⟨-, htime, hmaster, -⟩ := id hs
  obtain ⟨-, -, -, -, -, htx, hcode⟩ := id hmaster
  cases h with
  | waits => exact ⟨htime, hmaster⟩
  | responds _ _ _ h => exact h.masterPart rfl hs
  | readsNothing => exact ⟨htime, hmaster⟩
  | readsByte _ b _ _ h => exact h.masterPart rfl (s := tRead 1 k s) hs
  | releases =>
    exact ⟨timeInv_of_kept htime (le_refl _) rfl rfl nofun, masterInv_of_idle rfl rfl htx hcode⟩
  | writesForEcho hr hm _ hg hecho =>
    exact ⟨timeInv_of_kept htime (by simp) (by simp) (by simp) (by simp), masterInv_of_advance hmaster hr (by simp [hm]) hg
      (by simp) (by simp) (by simp) (by simp) (by simp) (by simp) (by simp) (by simp) (fun _ => hecho) (by simp)⟩
  | writesForReply hr hm _ hg hget =>
    exact ⟨timeInv_of_kept htime (by simp) (by simp) (by simp) (by simp), masterInv_of_advance hmaster hr (by simp [hm]) hg
      (by simp) (by simp) (by simp) (by simp) (by simp) (by simp) (by simp) (by simp) (by simp) (fun _ => hget)⟩
  | echoForReply hr hm hget =>
    have hg := gateCall_eq_false hmaster (by simp [hm])
    exact ⟨timeInv_of_kept htime (by simp) (by simp) (by simp) (by simp), masterInv_of_advance hmaster hr (by simp [hm]) hg
      (by simp) (by simp) (by simp) (by simp) (by simp) (by simp) (by simp) (by simp) (by simp) (fun _ => hget)⟩
  | writesLast _ _ _ hg =>
    exact ⟨timeInv_of_kept htime (by simp) (by simp) (by simp) (by simp),
      masterInv_of_idle (by simp) (by simpa using hg) (by simpa using htx) (.inl (by simp [Code.toNat]))⟩
  | echoFails _ hm | echoLast _ hm | noResponse _ hm =>
    have hg := gateCall_eq_false hmaster (by simp [hm])
    exact ⟨timeInv_of_kept htime (by simp) (by simp) (by simp) (by simp),
      masterInv_of_idle (by simp) (by simpa using hg) (by simpa using htx) (.inl (by simp [failureCode, Code.toNat]))⟩
  | badResponse _ _ hm | replies _ _ _ hm =>
    have hg := gateCall_eq_false hmaster (by simp [hm])
    exact ⟨timeInv_of_recorded htime (by simp) (by simp) (by simp) (by simp),
      masterInv_of_idle (by simp) (by simpa using hg) (by simpa using htx) (.inl (by simp [failureCode, Code.toNat]))⟩

/-! ### The Responder's part -/

theorem IdentityEffect.params {asked : Instr → Prop} {s t : State} (h : IdentityEffect asked s t) :
    t.params = s.params := by
  cases h with
  | kept h => exact h.params
  | addressSet _ _ _ _ h => exact h.params
  | reset _ h => exact h.params

/-- R21: a legal `RX_MAX_LEN` holds an ETX and the FCC. -/
theorem two_le_rxMaxLen {s : State} (h : s.params.wf) : 2 ≤ s.params.rxMaxLen := by
  obtain ⟨-, -, hlen, -⟩ := h
  exact le_trans (by decide) hlen

/-- A byte that RECEIVE takes, or a RESPOND, keeps the invariant of the Responder; a master's operation does not touch
it. -/
theorem Effect.responderPart {i : Instr} {s t : State} (h : Effect i s t) (hd : i.dir? = none) (hwf : s.params.wf)
    (hs : s.responderInv) : t.responderInv := by
  have hlen := two_le_rxMaxLen hwf
  obtain ⟨-, hbuf, hcode⟩ := id hs
  cases h with
  | nothing => exact hs
  | told | addressSet | rangeFailed | baudFailed | gateEntered | gateFailed | gateCalled | recorded | replied
  | responseFailed => exact responderInv_of_kept hs (by simp) (by constructor <;> simp)
  | replyRejected _ _ hwire => exact absurd hd hwire
  | frameEnded _ b hr hp =>
    rw [hp] at hbuf
    obtain ⟨hfree, hlast, -⟩ := hbuf
    have hne : 0 < s.rxbuf.length := List.length_pos_iff.2 (by rintro h; simp [h] at hlast)
    exact ⟨by simp [hr], by simp; omega, hcode⟩
  | etxReceived _ hr hp =>
    rw [hp] at hbuf
    obtain ⟨hfree, hno⟩ := hbuf
    exact ⟨by simp [hr], ⟨by simpa using hfree, by simp, by simpa using hno⟩, hcode⟩
  | accumulated _ b hr hp hb hfree =>
    rw [hp] at hbuf
    obtain ⟨-, hno⟩ := hbuf
    refine ⟨by simp [hr], ?_, hcode⟩
    simp only [hp]
    exact ⟨by simp; omega, by simp [hno, hb.symm]⟩
  | overflowed => exact responderInv_of_empty (t := rxOverflows s) hlen rfl rfl (.inr (.inr rfl))
  | rejected => exact responderInv_of_empty hlen rfl rfl (.inr (.inl rfl))
  | acted _ _ _ _ _ _ hq | stored _ _ _ _ _ _ _ _ _ _ _ hq | answered _ _ _ _ _ _ _ hq =>
    obtain ⟨-, -, rfl⟩ := hq.holdsRequest hd
    exact responderInv_of_empty (by simpa using hlen) (by simp) (by simp) (.inl (by simp))
  | resetTo => exact responderInv_of_empty hlen rfl rfl (.inl rfl)

theorem TurnEffect.responderPart {k : Nat} {s t : State} (h : TurnEffect k s t) (hwf : s.params.wf)
    (hs : s.responderInv) : t.responderInv := by
  cases h with
  | responds _ _ _ h => exact h.responderPart rfl hwf hs
  | readsByte _ b _ _ h => exact h.responderPart rfl (s := tRead 1 k s) hwf hs
  | waits | readsNothing | releases => exact hs
  | _ => exact responderInv_of_kept hs (by simp) (by constructor <;> simp)

/-! ### A step -/

theorem Acts.inv {s u t : State} (h : Acts s u t) (hu : u.Inv) : t.Inv := by
  obtain ⟨hid, -, -, hresponder⟩ := id hu
  cases h with
  | turn k _ h =>
    obtain ⟨htime, hmaster⟩ := h.masterPart hu
    exact ⟨(IdentityEffect.kept (asked := fun _ => False) h.sameIdentity).identityInv hid, htime, hmaster,
      h.responderPart hid.1 hresponder⟩
  | operation i _ hd h =>
    obtain ⟨htime, hmaster⟩ := h.masterPart hd hu
    exact ⟨h.identity.identityInv hid, htime, hmaster, h.responderPart hd hid.1 hresponder⟩

theorem Acts.params {s u t : State} (h : Acts s u t) : t.params = u.params := by
  cases h with
  | turn k _ h => exact h.sameIdentity.params
  | operation i _ hd h => exact h.identity.params

/-- U6: a master is left idle with its times as before the step; a slave is as before or as after it, with its
surroundings changed (log entry 13). -/
theorem inv_failAtCall {s t : State} (n : Nat) (hs : s.Inv) (ht : t.Inv) (hp : t.params = s.params)
    (hnow : t.env.now = s.env.now) : (failAtCall n s t).Inv := by
  obtain ⟨hid, htime, hmaster, hresponder⟩ := id hs
  obtain ⟨hid', htime', hmaster', hresponder'⟩ := id ht
  obtain ⟨-, e⟩ | ⟨-, hr, e⟩ | ⟨-, hr, -, e⟩ | ⟨-, hr, -, e⟩ := failAtCall_cases n s t <;> rw [e]
  · exact ht
  · obtain ⟨-, -, -, -, -, htx, -⟩ := hmaster'
    exact ⟨hid', timeInv_of_kept htime (by simp [hnow]) (by simp) (by simp) (by simp),
      masterInv_of_idle (by simp) (by simp) (by simpa using htx) (.inr (by simp)), hresponder'⟩
  · have hg := gateCall_eq_false hmaster' (by simp [hmaster'.1 (hp ▸ hr)])
    exact ⟨hid', htime', masterInv_of_env hmaster' hg.symm, hresponder'⟩
  · have hg := gateCall_eq_false hmaster (by simp [hmaster.1 hr])
    exact ⟨hid, timeInv_of_kept htime hnow.ge rfl rfl id, masterInv_of_env hmaster hg.symm,
      hresponder⟩

/-- Settles O56: what the block does keeps the invariant, a failing call too; the surroundings only let time pass; and
`CFG` is written in `M_IDLE`, where no echo is waited for. -/
theorem invariantKeptByEveryStep : Obligations.InvariantKeptByEveryStep := by
  intro s t hs hstep
  obtain ⟨hid, htime, hmaster, hresponder⟩ := id hs
  cases step_shape hstep with
  | acts rest d _ h => exact h.inv hs
  | fails rest d n u h => exact inv_failAtCall n (s := begun rest d s) hs (h.inv hs) h.params h.tells.now
  | outside e htrace hgate hnow htold =>
    exact ⟨hid, timeInv_of_kept htime hnow rfl rfl id, masterInv_of_env hmaster hgate, hresponder⟩
  | cfgWritten v rest hidle =>
    have hg := gateCall_eq_false hmaster (by simp [hidle])
    obtain ⟨-, -, -, -, -, htx, hcode⟩ := hmaster
    exact ⟨hid, htime, masterInv_of_idle hidle hg htx hcode, hresponder⟩

end Sys2Proof.Machine
